-- ==== Sys2Proof/Word.lean ====
section
/-! DEFINITION. The word types of the engine (00_scope.md R8, 20_memory.md R70): a byte, a register word, a bus address,
a slot index as the hardware holds it. -/

namespace Sys2Proof

/-- A byte of host memory, of the captured stream or of an operand. -/
abbrev Byte := BitVec 8

/-- A register word (10_state.md section 2: every register is 32 bits wide). -/
abbrev Word := BitVec 32

/-- A bus address (00_scope.md R4, `BUS_ADDR_BITS` = 64). -/
abbrev Addr := BitVec 64

/-- A slot index as the 3-bit hardware fields hold it (10_state.md R22). -/
abbrev SlotIx := BitVec 3

end Sys2Proof
end

