-- ==== Sys2Proof/Config.lean ====
section
/-! DEFINITION. The engine's constants (00_scope.md R4), its open parameters (R5) and the free values: constants with no
body, of which nothing can be proved, that stand for what the spec lets the environment or the revision choose. -/

namespace Sys2Proof

/-- `MARGIN`, 1 or 2 by hardware revision (00_scope.md R5, P1). -/
inductive Margin where
  | one
  | two
deriving DecidableEq, Repr, Inhabited

/-- The number of slots a margin stands for. -/
def Margin.slots : Margin → Nat
  | .one => 1
  | .two => 2

/-- The two views of host memory (20_memory.md R72). -/
inductive View where
  | cpu
  | dev
deriving DecidableEq, Repr, Inhabited

/-- The registers by name (10_state.md R21 to R28); a table register is one of eight (R23). -/
inductive Reg where
  | dmaEnable
  | dmaBufferMode
  | tableLow (i : Fin 8)
  | tableHigh (i : Fin 8)
  | blockSize
  | totalSize
  | intEnable
  | intStatus
  | intClear
deriving DecidableEq, Repr, Inhabited

/-- `REGMAP` (00_scope.md R5, 30_encoding.md R101): the byte offset of each register inside a channel's block, and the
distance between two channels' blocks. DESIGN CHOICE (log 22): a list of rows, so a map may leave a register out, and may
put two at one offset. -/
structure RegMap where
  /-- offset and register, one row each -/
  entries : List (Nat × Reg)
  /-- `CH_STRIDE` -/
  stride : Nat
deriving DecidableEq, Repr, Inhabited

/-- The open parameters of the hardware that its operations read (00_scope.md R5). -/
structure HwConfig where
  /-- `MARGIN` -/
  margin : Margin
  /-- `ERRATUM_REWRITE` -/
  erratumRewrite : Bool
  /-- `REGMAP` -/
  regMap : RegMap
deriving DecidableEq, Repr, Inhabited

namespace Config

/-! ### Constants the source fixes (00_scope.md R4) -/

/-- `PAGE_SIZE`. -/
abbrev pageSize : Nat := 4096
/-- `ENTRY_SIZE`. -/
abbrev entrySize : Nat := 8
/-- `ENTRIES_PER_TABLE`. -/
abbrev entriesPerTable : Nat := 512
/-- `TABLE_CAPACITY`. -/
abbrev tableCapacity : Nat := 2097152
/-- `PACKET_SIZE`. -/
abbrev packetSize : Nat := 188
/-- `MARKER`. -/
abbrev marker : Byte := 0x47#8
/-- `SCAN_WINDOW`, three packets; the last byte a candidate run looks at lies inside it. -/
abbrev scanWindow : Nat := 564
/-- `PENDING_CAP`. -/
abbrev pendingCap : Nat := 2
/-- `RESET_POLL_MAX`. -/
abbrev resetPollMax : Nat := 100
/-- `MAX_SLOTS`. -/
abbrev maxSlots : Nat := 8

/-! ### Open parameters of the machine at hand (00_scope.md R5; log 3, log 4) -/

/-- `MARGIN`, `ERRATUM_REWRITE` and `REGMAP` of the machine that `State.reset` describes. -/
opaque hw : HwConfig
/-- `NUM_CHANNELS` less one (the domain of `NUM_CHANNELS` is 1 and up). -/
opaque channelsLessOne : Nat
/-- The port number bound to each channel (10_state.md R39). -/
opaque portNumber : Nat → Nat

/-! ### Free values (93_implementation_defined.md section 2), each applied to a draw number, so that no two draws are
known to be equal -/

/-- U6: the byte the capture port of a channel gives at a draw. (U7, the turn at a draw, is `Config.turn` of Syntax.lean.) -/
opaque portByte (channel draw : Nat) : Byte
/-- U5: the allocator's raw answer at a draw (`none` is `fail`). -/
opaque allocAnswer (draw : Nat) : Option Addr
/-- U3: the value the erratum leaves in the write index at a draw, before it is brought into range. -/
opaque spoiledIndex (channel draw : Nat) : Nat
/-- U1: the content of a byte nothing has written, by the allocation its page's content belongs to, the view and the
address. -/
opaque freshByte (age : Nat) (view : View) (address : Nat) : Byte

end Config

end Sys2Proof
end

