-- ==== Sys2Proof/Syntax.lean ====
section
/-! DEFINITION. The operations of the engine, one constructor per row of spec/opcode_table.json (30_encoding.md R112, operand
forms R113), the turns of a schedule, and the reasons a decoder refuses. -/

namespace Sys2Proof

/-- The 39 operations. Constructor order is the table's. The channel is an implicit operand (30_encoding.md R113): it stands
in the turn, not here. -/
inductive Instr where
  | wrDmaEnable (v : Word)
  | wrDmaBufferMode (v : Word)
  | wrDmaPageTableAddrLow (i : Fin 8) (v : Word)
  | wrDmaPageTableAddrHigh (i : Fin 8) (v : Word)
  | wrDmaBlockSize (v : Word)
  | wrDmaTotalSize (v : Word)
  | wrIntEnable (v : Word)
  | wrIntStatus (v : Word)
  | wrIntClear (v : Word)
  | rdDmaEnable
  | rdDmaBufferMode
  | rdDmaPageTableAddrLow (i : Fin 8)
  | rdDmaPageTableAddrHigh (i : Fin 8)
  | rdDmaBlockSize
  | rdDmaTotalSize
  | rdIntEnable
  | rdIntStatus
  | rdIntClear
  | flush (addr : Addr) (n : Nat)
  | cpuSync (addr : Addr) (n : Nat)
  | build (pages : List Addr) (table : Addr)
  | installTables
  | init (nSlots : Nat) (slotSize : Nat)
  | teardown
  | reset
  | currentWriteIndex
  | readSlot (i : Nat)
  | start (pitch : Nat) (lines : Nat)
  | stop
  | scan (slot : List Byte) (known : Option Nat)
  | align (slot : List Byte) (off : Nat) (stage : List Byte)
  | sinkWrite (bytes : List Byte)
  | capByte
  | capLand
  | rstDone
  | irq
  | drainBegin
  | drainSlot
  | drainEnd
deriving DecidableEq, Repr, Inhabited

/-- One turn of the schedule (10_state.md R45d: "the order in which enabled agents step"): who steps next and what it does.
`c` is a channel's number. -/
inductive Turn where
  /-- An operation of the table on channel `c`, in its byte form. -/
  | op (c : Nat) (bytes : List Byte)
  /-- The HOST of channel `c` takes its next step inside RESET, START or STOP (41 R144, 42 R170, R172). -/
  | resume (c : Nat)
  /-- A raw bus access of the HOST (30_encoding.md R101, 45 R243): direction, byte address counted from `REG_BASE`, width in
  bits, and the word written. -/
  | bus (write : Bool) (address : Nat) (width : Nat) (data : Word)
  /-- A raw CPU write of host memory by the HOST of channel `c` (00_scope.md R8, 20_memory.md R72). -/
  | cpuWrite (c : Nat) (addr : Addr) (bytes : List Byte)
  /-- A raw CPU read of host memory by the HOST of channel `c`. -/
  | cpuRead (c : Nat) (addr : Addr) (n : Nat)
  /-- The environment's unrequested copy of one byte from the CPU view to the device view (20_memory.md R75). -/
  | writeBack (addr : Addr)
  /-- The environment's unrequested copy of one byte from the device view to the CPU view (20_memory.md R75). -/
  | refill (addr : Addr)
deriving DecidableEq, Repr, Inhabited

/-- U7: the turn the environment chooses at a draw, where the schedule has ended (log 1). -/
opaque Config.turn (draw : Nat) : Turn

/-- Why a byte form is no operation. -/
inductive DecodeError where
  /-- The first byte is no tag of 30_encoding.md R112 (R114g). -/
  | unknownTag
  /-- The bytes end before the operands do. -/
  | truncated
  /-- An operand byte is outside the operand's domain (30_encoding.md R113). -/
  | operandOutOfDomain
deriving DecidableEq, Repr

end Sys2Proof
end

