-- ==== Sys2Proof/WellFormed.lean ====
section
/-! DEFINITION. The operand domains of 30_encoding.md R113 that the types of Syntax.lean do not already hold (a register word,
a bus address and a table number 0..7 are right by their types). An ill-formed operation is decoded where it has a byte form
and is then refused by its own meaning where its rule says so. -/

namespace Sys2Proof

/-- The largest offset of a packet marker, 0..187 (10_state.md R33). -/
abbrev offsetMax : Nat := 187

/-- An offset is in 0..187. -/
def okOffset (off : Nat) : Bool := decide (off ≤ offsetMax)

/-- `known` is `Unknown` or in 0..187. -/
def okKnown : Option Nat → Bool
  | none => true
  | some k => okOffset k

/-- A staged tail has 0..187 bytes (30_encoding.md R113 with 43_sync_scanner.md R188). -/
def okStage (stage : List Byte) : Bool := decide (stage.length ≤ offsetMax)

/-- A byte count of FLUSH and CPU_SYNC is at least 1. -/
def okCount (n : Nat) : Bool := decide (1 ≤ n)

/-- `n_slots` is in 1..8. -/
def okSlots (n : Nat) : Bool := decide (1 ≤ n ∧ n ≤ Config.maxSlots)

/-- The operand forms of 30_encoding.md R113. -/
def wellFormed : Instr → Bool
  | .wrDmaEnable _ => true
  | .wrDmaBufferMode _ => true
  | .wrDmaPageTableAddrLow _ _ => true
  | .wrDmaPageTableAddrHigh _ _ => true
  | .wrDmaBlockSize _ => true
  | .wrDmaTotalSize _ => true
  | .wrIntEnable _ => true
  | .wrIntStatus _ => true
  | .wrIntClear _ => true
  | .rdDmaEnable => true
  | .rdDmaBufferMode => true
  | .rdDmaPageTableAddrLow _ => true
  | .rdDmaPageTableAddrHigh _ => true
  | .rdDmaBlockSize => true
  | .rdDmaTotalSize => true
  | .rdIntEnable => true
  | .rdIntStatus => true
  | .rdIntClear => true
  | .flush _ n => okCount n
  | .cpuSync _ n => okCount n
  | .build _ _ => true
  | .installTables => true
  | .init n _ => okSlots n
  | .teardown => true
  | .reset => true
  | .currentWriteIndex => true
  | .readSlot _ => true
  | .start _ _ => true
  | .stop => true
  | .scan _ known => okKnown known
  | .align _ off stage => okOffset off && okStage stage
  | .sinkWrite _ => true
  | .capByte => true
  | .capLand => true
  | .rstDone => true
  | .irq => true
  | .drainBegin => true
  | .drainSlot => true
  | .drainEnd => true

end Sys2Proof
end

