-- ==== Sys2Proof/Decode.lean ====
section
/-! DEFINITION. The decoder and encoder of operations, the byte-order helpers they use, the word's view for the host, and the
decoder of a raw register access.

The tags are those of 30_encoding.md R112. The spec gives no byte layout of operands (R100: the tag is "the model's own name
for each operation; not a hardware encoding"): the layout here is a DESIGN CHOICE (log 2, unsafe only for a claim about
the bytes themselves). After the tag, in the order of R113: a register word is 4 bytes and a bus address 8, the least
significant byte first (20_memory.md R71); a table number is 1 byte 0..7; an offset is 1 byte 0..187, with 0xFF for `Unknown`;
a natural number is base-128 digits, the least significant first, each but the last marked by bit 7; a list is its length as
a natural number and then its elements. -/

namespace Sys2Proof

/-! ### Byte order (20_memory.md R71) -/

/-- The `k` low bytes of `v`, the least significant first. -/
def leBytes : Nat → Nat → List Byte
  | 0, _ => []
  | k + 1, v => BitVec.ofNat 8 v :: leBytes k (v / 256)

/-- The number whose bytes, the least significant first, are given. -/
def leNat : List Byte → Nat
  | [] => 0
  | b :: rest => b.toNat + 256 * leNat rest

/-- The four bytes of a register word. -/
def wordBytes (v : Word) : List Byte := leBytes 4 v.toNat

/-- The eight bytes of a bus address. -/
def addrBytes (a : Addr) : List Byte := leBytes 8 a.toNat

/-! ### Natural numbers in bytes (log 2) -/

/-- The base-128 digits of `v`, at most `fuel + 1` of them. -/
def natDigits : Nat → Nat → List Byte
  | 0, v => [BitVec.ofNat 8 (v % 128)]
  | fuel + 1, v =>
    if v < 128 then [BitVec.ofNat 8 v]
    else BitVec.ofNat 8 (v % 128 + 128) :: natDigits fuel (v / 128)

/-- The byte form of a natural number. -/
def natBytes (v : Nat) : List Byte := natDigits v.log2 v

/-! ### The encoder -/

/-- The tag of an operation (30_encoding.md R112). -/
def tagOf : Instr → Nat
  | .wrDmaEnable _ => 0x00
  | .wrDmaBufferMode _ => 0x01
  | .wrDmaPageTableAddrLow _ _ => 0x02
  | .wrDmaPageTableAddrHigh _ _ => 0x03
  | .wrDmaBlockSize _ => 0x04
  | .wrDmaTotalSize _ => 0x05
  | .wrIntEnable _ => 0x06
  | .wrIntStatus _ => 0x07
  | .wrIntClear _ => 0x08
  | .rdDmaEnable => 0x10
  | .rdDmaBufferMode => 0x11
  | .rdDmaPageTableAddrLow _ => 0x12
  | .rdDmaPageTableAddrHigh _ => 0x13
  | .rdDmaBlockSize => 0x14
  | .rdDmaTotalSize => 0x15
  | .rdIntEnable => 0x16
  | .rdIntStatus => 0x17
  | .rdIntClear => 0x18
  | .flush _ _ => 0x20
  | .cpuSync _ _ => 0x21
  | .build _ _ => 0x40
  | .installTables => 0x41
  | .init _ _ => 0x42
  | .teardown => 0x43
  | .reset => 0x44
  | .currentWriteIndex => 0x45
  | .readSlot _ => 0x46
  | .start _ _ => 0x47
  | .stop => 0x48
  | .scan _ _ => 0x49
  | .align _ _ _ => 0x4A
  | .sinkWrite _ => 0x4B
  | .capByte => 0x80
  | .capLand => 0x81
  | .rstDone => 0x82
  | .irq => 0x83
  | .drainBegin => 0x84
  | .drainSlot => 0x85
  | .drainEnd => 0x86

/-- A list of bytes in its byte form: the length, then the bytes. -/
def listBytes (bs : List Byte) : List Byte := natBytes bs.length ++ bs

/-- A list of addresses in its byte form: the length, then each address. -/
def addrsBytes (as : List Addr) : List Byte := natBytes as.length ++ as.flatMap addrBytes

/-- The byte of `Unknown` or an offset. -/
def knownByte : Option Nat → Byte
  | none => 0xFF#8
  | some k => BitVec.ofNat 8 k

/-- The operands of an operation in their byte form, in the order of 30_encoding.md R113. -/
def operandBytes : Instr → List Byte
  | .wrDmaEnable v => wordBytes v
  | .wrDmaBufferMode v => wordBytes v
  | .wrDmaPageTableAddrLow i v => BitVec.ofNat 8 i.val :: wordBytes v
  | .wrDmaPageTableAddrHigh i v => BitVec.ofNat 8 i.val :: wordBytes v
  | .wrDmaBlockSize v => wordBytes v
  | .wrDmaTotalSize v => wordBytes v
  | .wrIntEnable v => wordBytes v
  | .wrIntStatus v => wordBytes v
  | .wrIntClear v => wordBytes v
  | .rdDmaEnable => []
  | .rdDmaBufferMode => []
  | .rdDmaPageTableAddrLow i => [BitVec.ofNat 8 i.val]
  | .rdDmaPageTableAddrHigh i => [BitVec.ofNat 8 i.val]
  | .rdDmaBlockSize => []
  | .rdDmaTotalSize => []
  | .rdIntEnable => []
  | .rdIntStatus => []
  | .rdIntClear => []
  | .flush addr n => addrBytes addr ++ natBytes n
  | .cpuSync addr n => addrBytes addr ++ natBytes n
  | .build pages table => addrsBytes pages ++ addrBytes table
  | .installTables => []
  | .init nSlots slotSize => natBytes nSlots ++ natBytes slotSize
  | .teardown => []
  | .reset => []
  | .currentWriteIndex => []
  | .readSlot i => natBytes i
  | .start pitch lines => natBytes pitch ++ natBytes lines
  | .stop => []
  | .scan slot known => listBytes slot ++ [knownByte known]
  | .align slot off stage => listBytes slot ++ BitVec.ofNat 8 off :: listBytes stage
  | .sinkWrite bytes => listBytes bytes
  | .capByte => []
  | .capLand => []
  | .rstDone => []
  | .irq => []
  | .drainBegin => []
  | .drainSlot => []
  | .drainEnd => []

/-- The byte form of an operation: its tag, then its operands. -/
def encode (i : Instr) : List Byte := BitVec.ofNat 8 (tagOf i) :: operandBytes i

/-! ### The decoder -/

/-- What reading an operand from bytes gives: the operand and the bytes that are left. -/
abbrev Parsed (α : Type) := Except DecodeError (α × List Byte)

/-- Read one operand, then go on with it and with the bytes that are left. -/
def thenTake {α β : Type} (p : Parsed α) (f : α → List Byte → Parsed β) : Parsed β :=
  match p with
  | .ok (a, rest) => f a rest
  | .error e => .error e

/-- One byte. -/
def takeByte : List Byte → Parsed Byte
  | [] => .error .truncated
  | b :: rest => .ok (b, rest)

/-- A number of `k` bytes, the least significant first. -/
def takeLe (k : Nat) (bs : List Byte) : Parsed Nat :=
  if k ≤ bs.length then .ok (leNat (bs.take k), bs.drop k) else .error .truncated

/-- A register word. -/
def takeWord (bs : List Byte) : Parsed Word :=
  thenTake (takeLe 4 bs) fun v rest =>
  .ok (BitVec.ofNat 32 v, rest)

/-- A bus address. -/
def takeAddr (bs : List Byte) : Parsed Addr :=
  thenTake (takeLe 8 bs) fun v rest =>
  .ok (BitVec.ofNat 64 v, rest)

/-- A table number, 0..7. -/
def takeTableNumber (bs : List Byte) : Parsed (Fin 8) :=
  thenTake (takeByte bs) fun b rest =>
  if h : b.toNat < 8 then .ok (⟨b.toNat, h⟩, rest) else .error .operandOutOfDomain

/-- An offset, 0..187. -/
def takeOffset (bs : List Byte) : Parsed Nat :=
  thenTake (takeByte bs) fun b rest =>
  if okOffset b.toNat then .ok (b.toNat, rest) else .error .operandOutOfDomain

/-- `Unknown` or an offset. -/
def takeKnown (bs : List Byte) : Parsed (Option Nat) :=
  thenTake (takeByte bs) fun b rest =>
  if b = 0xFF#8 then .ok (none, rest)
  else if okOffset b.toNat then .ok (some b.toNat, rest) else .error .operandOutOfDomain

/-- A natural number. -/
def takeNat : List Byte → Parsed Nat
  | [] => .error .truncated
  | b :: rest =>
    if b.toNat < 128 then .ok (b.toNat, rest)
    else
      thenTake (takeNat rest) fun v rest' =>
      .ok (b.toNat - 128 + 128 * v, rest')

/-- A list of bytes. -/
def takeBytes (bs : List Byte) : Parsed (List Byte) :=
  thenTake (takeNat bs) fun k rest =>
  if k ≤ rest.length then .ok (rest.take k, rest.drop k) else .error .truncated

/-- A staged tail: a list of at most 187 bytes. -/
def takeStage (bs : List Byte) : Parsed (List Byte) :=
  thenTake (takeBytes bs) fun stage rest =>
  if okStage stage then .ok (stage, rest) else .error .operandOutOfDomain

/-- `k` bus addresses. -/
def takeAddrs : Nat → List Byte → Parsed (List Addr)
  | 0, bs => .ok ([], bs)
  | k + 1, bs =>
    thenTake (takeAddr bs) fun a rest =>
    thenTake (takeAddrs k rest) fun as rest' =>
    .ok (a :: as, rest')

/-- A list of bus addresses. The length is held against the bytes there are before the list is read. -/
def takeAddrList (bs : List Byte) : Parsed (List Addr) :=
  thenTake (takeNat bs) fun k rest =>
  if 8 * k ≤ rest.length then takeAddrs k rest else .error .truncated

/-- An operation whose operand is one register word. -/
def withWord (f : Word → Instr) (bs : List Byte) : Parsed Instr :=
  thenTake (takeWord bs) fun v rest =>
  .ok (f v, rest)

/-- An operation whose operands are a table number and a register word. -/
def withTableWord (f : Fin 8 → Word → Instr) (bs : List Byte) : Parsed Instr :=
  thenTake (takeTableNumber bs) fun i rest =>
  thenTake (takeWord rest) fun v rest' =>
  .ok (f i v, rest')

/-- An operation whose operand is a table number. -/
def withTable (f : Fin 8 → Instr) (bs : List Byte) : Parsed Instr :=
  thenTake (takeTableNumber bs) fun i rest =>
  .ok (f i, rest)

/-- An operation whose operands are a bus address and a byte count. -/
def withRange (f : Addr → Nat → Instr) (bs : List Byte) : Parsed Instr :=
  thenTake (takeAddr bs) fun a rest =>
  thenTake (takeNat rest) fun n rest' =>
  .ok (f a n, rest')

/-- An operation whose operands are two natural numbers. -/
def withTwoNats (f : Nat → Nat → Instr) (bs : List Byte) : Parsed Instr :=
  thenTake (takeNat bs) fun a rest =>
  thenTake (takeNat rest) fun b rest' =>
  .ok (f a b, rest')

/-- An operation without operands. -/
def withNone (i : Instr) (bs : List Byte) : Parsed Instr := .ok (i, bs)

/-- The operands of BUILD. -/
def takeBuild (bs : List Byte) : Parsed Instr :=
  thenTake (takeAddrList bs) fun pages rest =>
  thenTake (takeAddr rest) fun table rest' =>
  .ok (.build pages table, rest')

/-- The operand of READ_SLOT. -/
def takeReadSlot (bs : List Byte) : Parsed Instr :=
  thenTake (takeNat bs) fun i rest =>
  .ok (.readSlot i, rest)

/-- The operands of SCAN. -/
def takeScan (bs : List Byte) : Parsed Instr :=
  thenTake (takeBytes bs) fun slot rest =>
  thenTake (takeKnown rest) fun known rest' =>
  .ok (.scan slot known, rest')

/-- The operands of ALIGN. -/
def takeAlign (bs : List Byte) : Parsed Instr :=
  thenTake (takeBytes bs) fun slot rest =>
  thenTake (takeOffset rest) fun off rest' =>
  thenTake (takeStage rest') fun stage rest'' =>
  .ok (.align slot off stage, rest'')

/-- The operand of SINK_WRITE. -/
def takeSinkWrite (bs : List Byte) : Parsed Instr :=
  thenTake (takeBytes bs) fun bytes rest =>
  .ok (.sinkWrite bytes, rest)

/-- The operands that follow a tag (30_encoding.md R112, R113); a tag outside the table is invalid (R114g). -/
def decodeOperands (tag : Nat) (bs : List Byte) : Parsed Instr :=
  match tag with
  | 0x00 => withWord .wrDmaEnable bs
  | 0x01 => withWord .wrDmaBufferMode bs
  | 0x02 => withTableWord .wrDmaPageTableAddrLow bs
  | 0x03 => withTableWord .wrDmaPageTableAddrHigh bs
  | 0x04 => withWord .wrDmaBlockSize bs
  | 0x05 => withWord .wrDmaTotalSize bs
  | 0x06 => withWord .wrIntEnable bs
  | 0x07 => withWord .wrIntStatus bs
  | 0x08 => withWord .wrIntClear bs
  | 0x10 => withNone .rdDmaEnable bs
  | 0x11 => withNone .rdDmaBufferMode bs
  | 0x12 => withTable .rdDmaPageTableAddrLow bs
  | 0x13 => withTable .rdDmaPageTableAddrHigh bs
  | 0x14 => withNone .rdDmaBlockSize bs
  | 0x15 => withNone .rdDmaTotalSize bs
  | 0x16 => withNone .rdIntEnable bs
  | 0x17 => withNone .rdIntStatus bs
  | 0x18 => withNone .rdIntClear bs
  | 0x20 => withRange .flush bs
  | 0x21 => withRange .cpuSync bs
  | 0x40 => takeBuild bs
  | 0x41 => withNone .installTables bs
  | 0x42 => withTwoNats .init bs
  | 0x43 => withNone .teardown bs
  | 0x44 => withNone .reset bs
  | 0x45 => withNone .currentWriteIndex bs
  | 0x46 => takeReadSlot bs
  | 0x47 => withTwoNats .start bs
  | 0x48 => withNone .stop bs
  | 0x49 => takeScan bs
  | 0x4A => takeAlign bs
  | 0x4B => takeSinkWrite bs
  | 0x80 => withNone .capByte bs
  | 0x81 => withNone .capLand bs
  | 0x82 => withNone .rstDone bs
  | 0x83 => withNone .irq bs
  | 0x84 => withNone .drainBegin bs
  | 0x85 => withNone .drainSlot bs
  | 0x86 => withNone .drainEnd bs
  | _ => .error .unknownTag

/-- The operation at the head of a byte sequence, and the bytes after it. -/
def decode : List Byte → Parsed Instr
  | [] => .error .truncated
  | t :: rest => decodeOperands t.toNat rest

/-! ### The host's words -/

/-- How many zero bytes stand after a table word: more than the longest operand form of zeros (BUILD, 9 bytes). -/
def paddingBytes : Nat := 16

/-- The bytes of an operation whose bits are `w`, `nbits` of them, with zeros above (the first word is the tag byte). -/
def tableWordBytes (nbits w : Nat) : List Byte :=
  leBytes ((nbits + 7) / 8) w ++ List.replicate paddingBytes 0#8

/-- The operation the decoder reads from a table word. -/
def decodeTableWord (nbits w : Nat) : Option Instr :=
  match decode (tableWordBytes nbits w) with
  | .ok (i, _) => some i
  | .error _ => none

/-! ### Register accesses by offset (30_encoding.md R101, R102) -/

/-- The default `REGMAP` (30_encoding.md R102). -/
def RegMap.default : RegMap where
  entries :=
    [(0x00, .dmaEnable), (0x04, .dmaBufferMode), (0x08, .blockSize), (0x0C, .totalSize), (0x10, .intEnable),
     (0x14, .intStatus), (0x18, .intClear)] ++
    (List.finRange 8).map (fun i => (0x40 + 8 * i.val, .tableLow i)) ++
    (List.finRange 8).map (fun i => (0x44 + 8 * i.val, .tableHigh i))
  stride := 0x100

/-- The register at an offset of a channel's block, none where `REGMAP` names none. DESIGN CHOICE (log 22): where two rows of a
map share an offset, which the spec leaves open, the first row is meant. -/
def RegMap.regAt (m : RegMap) (offset : Nat) : Option Reg :=
  (m.entries.find? (fun e => e.1 == offset)).map Prod.snd

/-- The address of an offset of channel `c`'s block, counted from `REG_BASE` (30_encoding.md R101). -/
def RegMap.address (m : RegMap) (c offset : Nat) : Nat := c * m.stride + offset

/-- The write access of a register, as an operation of the table. -/
def Reg.writeOp (v : Word) : Reg → Instr
  | .dmaEnable => .wrDmaEnable v
  | .dmaBufferMode => .wrDmaBufferMode v
  | .tableLow i => .wrDmaPageTableAddrLow i v
  | .tableHigh i => .wrDmaPageTableAddrHigh i v
  | .blockSize => .wrDmaBlockSize v
  | .totalSize => .wrDmaTotalSize v
  | .intEnable => .wrIntEnable v
  | .intStatus => .wrIntStatus v
  | .intClear => .wrIntClear v

/-- The read access of a register, as an operation of the table. -/
def Reg.readOp : Reg → Instr
  | .dmaEnable => .rdDmaEnable
  | .dmaBufferMode => .rdDmaBufferMode
  | .tableLow i => .rdDmaPageTableAddrLow i
  | .tableHigh i => .rdDmaPageTableAddrHigh i
  | .blockSize => .rdDmaBlockSize
  | .totalSize => .rdDmaTotalSize
  | .intEnable => .rdIntEnable
  | .intStatus => .rdIntStatus
  | .intClear => .rdIntClear

end Sys2Proof
end

