-- ==== Sys2Proof/Machine/State.lean ====
section
/-! DEFINITION. The state of the engine as plain data (10_state.md), its faults and refusals, and the machine after power-on
(R47, R300). -/

namespace Sys2Proof.Machine

open Host (Outcome)

/-! ### Enumerations and records -/

/-- `ring_state` (10_state.md R37a). -/
inductive RingState where
  | absent
  | idle
  | armed
  | streaming
deriving DecidableEq, Repr, Inhabited

/-- `clock_mode` (10_state.md R39). -/
inductive ClockMode where
  | internal
  | external
deriving DecidableEq, Repr, Inhabited

/-- The logical state of a slot (10_state.md R41); computed, never stored. -/
inductive SlotState where
  | idle
  | filling
  | filled
  | draining
deriving DecidableEq, Repr

/-- The six error kinds (60_exceptions.md R260). -/
inductive ErrorKind where
  | allocationFailure
  | hardwareResetFailed
  | tableOverflow
  | streamDesynchronized
  | spuriousInterrupt
  | invalidParams
deriving DecidableEq, Repr

/-- A self-healing event of `log` (10_state.md R44). -/
inductive LogEvent where
  | spuriousInterrupt
  | streamDesynchronized
deriving DecidableEq, Repr

/-- The status of a scan (43_sync_scanner.md R185). -/
inductive ScanStatus where
  | kept
  | resynced
  | desynchronized
deriving DecidableEq, Repr

/-- How the last call of a channel ended, with the value its rule names (00_scope.md R9, 30_encoding.md R113; log 11). -/
inductive Result where
  /-- No call has ended yet. -/
  | none
  /-- `Ok`, no value. -/
  | ok
  /-- A fatal error kind. -/
  | error (e : ErrorKind)
  /-- The word a register read returns. -/
  | word (w : Word)
  /-- The index CURRENT_WRITE_INDEX returns. -/
  | index (i : Nat)
  /-- The bytes READ_SLOT or a raw CPU read returns. -/
  | bytes (bs : List Byte)
  /-- What SCAN returns. -/
  | scanned (status : ScanStatus) (offset : Option Nat)
  /-- What ALIGN returns. -/
  | aligned (out newStage : List Byte)
  /-- What the sink answers. -/
  | sunk (accepted : Bool)
deriving DecidableEq, Repr

/-- The RingBuffer record (10_state.md R38). -/
structure Ring where
  /-- `n_slots` (N) -/
  nSlots : Nat
  /-- `slot_size` (S) -/
  slotSize : Nat
  /-- `pages_per_slot` (P) -/
  pagesPerSlot : Nat
  /-- `pages[i][j]`: the pages of each slot in stream order -/
  pages : List (List Addr)
  /-- `table[i]`: the page that holds slot `i`'s ScatterGatherTable -/
  table : List Addr
  /-- `spare`: the page that backs `stage` -/
  spare : Addr
deriving DecidableEq, Repr

/-- One element of `inflight` (10_state.md R40): a captured byte that has not landed. -/
structure InFlight where
  slot : SlotIx
  addr : Addr
  byte : Byte
deriving DecidableEq, Repr

/-- Where the HOST stands inside START (42_capture_channel.md R170); the name is that of its next step. -/
inductive StartPhase where
  /-- step 2 is next -/
  | reset
  /-- inside step 2: the `k`-th read of the poll is next -/
  | poll (k : Nat)
  /-- step 3 is next -/
  | sizes
  /-- step 4 is next -/
  | clock
  /-- step 5 is next -/
  | enable
  /-- step 6 is next -/
  | irq
deriving DecidableEq, Repr

/-- Where the HOST stands inside STOP (42_capture_channel.md R172); the name is that of its next step. -/
inductive StopPhase where
  /-- step 2 is next -/
  | join
  /-- step 3 is next -/
  | disable
  /-- step 4 is next -/
  | clock
deriving DecidableEq, Repr

/-- The composite operation a HOST is inside, between two of its steps (log 10). -/
inductive HostWork where
  /-- RESET, the `k`-th read of the poll is next (41_dma_ring_buffer.md R144). -/
  | reset (k : Nat)
  /-- START with its operands. -/
  | start (pitch lines : Nat) (phase : StartPhase)
  /-- STOP. -/
  | stop (phase : StopPhase)
deriving DecidableEq, Repr

/-- The state of one channel (10_state.md R20). -/
structure Chan where
  /-- `id` (R39) -/
  id : Nat
  /-- `port` (R39), read by no rule -/
  port : Nat
  /-- `DMA_ENABLE.EN` (R21) -/
  en : Bool
  /-- `DMA_BUFFER_MODE.SLOT_COUNT_M1` (R22) -/
  slotCountM1 : SlotIx
  /-- `DMA_BUFFER_MODE.WRITE_INDEX` (R22, R32) -/
  writeIndex : SlotIx
  /-- `DMA_BUFFER_MODE.RST` (R22) -/
  rst : Bool
  /-- `DMA_PAGE_TABLE_ADDR_LOW[i]` bits 31:12 (R23) -/
  tableLow : Vector (BitVec 20) 8
  /-- `DMA_PAGE_TABLE_ADDR_HIGH[i]` (R23) -/
  tableHigh : Vector Word 8
  /-- `DMA_BLOCK_SIZE` (R24) -/
  blockSize : Word
  /-- `DMA_TOTAL_SIZE` (R25) -/
  totalSize : Word
  /-- `INT_ENABLE.SLOT_DONE` (R26) -/
  intEnable : Bool
  /-- `INT_STATUS.SLOT_DONE` (R27) -/
  intStatus : Bool
  /-- `read_index` (R31) -/
  readIndex : Nat
  /-- `resync_offset`, `none` for `Unknown` (R33) -/
  resyncOffset : Option Nat
  /-- `stage` (R34) -/
  stage : List Byte
  /-- `pending` (R35) -/
  pending : Nat
  /-- `drain_running` (R36) -/
  drainRunning : Bool
  /-- `drain_left` (R36) -/
  drainLeft : Nat
  /-- `ring_state` (R37a) -/
  ringState : RingState
  /-- `ring` (R38) -/
  ring : Option Ring
  /-- `clock_mode` (R39, 42 R175) -/
  clockMode : ClockMode
  /-- `fill_pos` (R37b, R40) -/
  fillPos : Nat
  /-- `inflight`, oldest first (R40, 20 R83) -/
  inflight : List InFlight
  /-- `track_dirty` (R40) -/
  trackDirty : Bool
  /-- `needs_reset` (R40) -/
  needsReset : Bool
  /-- `sink_out` (R44) -/
  sinkOut : List (List Byte)
  /-- `sink_rejected` (R44) -/
  sinkRejected : Nat
  /-- `log` (R44) -/
  log : List LogEvent
  /-- The model's: where the HOST stands inside a composite operation (log 10). -/
  host : Option HostWork
  /-- The model's: how the last call ended (log 11). -/
  result : Result
  /-- The model's: bytes waiting at the capture port (R45a; log 5). -/
  portIn : List Byte
  /-- The model's: values the erratum will leave in the write index (R45e; log 5). -/
  spoilIn : List Nat
deriving DecidableEq, Repr

/-- Host memory in one view: address and byte, addresses strictly rising. An address that is not listed holds a byte nothing
has written, a free value (10_state.md R42, U1; log 7). -/
abbrev Memory := List Host.Cell

/-- The canonical form: strictly rising addresses inside the address space. No entry can equal what an unlisted address
reads as: an unlisted address has no byte of its own. -/
abbrev Memory.wf (m : Memory) : Prop :=
  m.Pairwise (fun a b => a.1 < b.1) ∧ ∀ cell ∈ m, cell.1 < 2 ^ 64

/-- The state all channels share (10_state.md R20). -/
structure Shared where
  /-- `mem_cpu` (20 R72) -/
  memCpu : Memory
  /-- `mem_dev` (20 R72) -/
  memDev : Memory
  /-- `dirty`, addresses strictly rising (20 R72) -/
  dirty : List Nat
  /-- `allocated`, page addresses strictly rising (10 R42) -/
  allocated : List Nat
  /-- The model's: the allocation each page's unspecified content belongs to, pages strictly rising (U1; log 7). -/
  pageAge : List (Nat × Nat)
  /-- The model's: answers the allocator will give (R45b; log 5). -/
  allocIn : List (Option Addr)
  /-- The model's: how many free values have been drawn (log 5). -/
  draws : Nat
deriving DecidableEq, Repr

/-- What one operation acts on: its channel and what the channels share. -/
structure Local where
  chan : Chan
  shared : Shared
deriving DecidableEq, Repr

/-- The whole machine. -/
structure State where
  /-- The open parameters, read-only (00_scope.md R5; log 3). -/
  cfg : HwConfig
  /-- The channels, `NUM_CHANNELS` of them (60 R278; log 4). -/
  chans : List Chan
  /-- What they share. -/
  shared : Shared
  /-- The model's: the channel the operation in progress runs on (30 R113). -/
  cur : Nat
  /-- The model's: the turns the environment has fixed (R45d; log 1). -/
  schedule : List Turn
deriving DecidableEq, Repr

/-! ### Stops -/

/-- Faults: the run has left what the hardware may do (60_exceptions.md R281). -/
inductive Fault where
  /-- F1, 70_reset_and_hazards.md R316: CAP_LAND, or the landings of a disable (45 R220), would write a byte of a page no ring
  owns. Safe: the hardware would write foreign memory, the model stops. -/
  | dmaToFreedPage
  /-- A raw CPU access at or past 2^64, which 20_memory.md R70 says does not exist (log 16). Safe: the model stops. -/
  | outsideAddressSpace
deriving DecidableEq, Repr

/-- Refusals: the spec gives the step no meaning (00_scope.md R9, 93_implementation_defined.md section 3). All are safe: the
model stops where the spec says a model has no step. -/
inductive Refusal where
  /-- An arm of `exec` that has no meaning yet; raised by `exec` alone. -/
  | notModelled (mnemonic : String)
  /-- X13, 30_encoding.md R114g: a turn's bytes are no operation; raised by the turn. -/
  | illegalEncoding (e : DecodeError)
  /-- The turn names a channel that does not exist (30_encoding.md R113); raised by every operation. -/
  | noSuchChannel
  /-- The agent's enabling condition does not hold, so it has no step (log 9); raised by CAP_BYTE, CAP_LAND, RST_DONE, IRQ,
  DRAIN_BEGIN, DRAIN_SLOT, DRAIN_END. -/
  | notEnabled
  /-- The HOST is inside RESET, START or STOP and its next step is that operation's (60 R270; log 10); raised by HOST calls. -/
  | hostBusy
  /-- STOP waits in its join while a pass runs: the HOST has no step (42 R173); raised by STOP. -/
  | joinWaits
  /-- A `resume` turn for a HOST that is inside no operation (log 10). -/
  | nothingToResume
  /-- X1: a register access that is not 32 bits wide or not at a multiple of 4; raised by a raw bus access. -/
  | badAccess
  /-- X2: enabling while `needs_reset` is set (45 R220). -/
  | enableNeedsReset
  /-- X2: enabling while `RST` is 1 (45 R220). -/
  | enableDuringReset
  /-- X2: enabling with an illegal `DMA_BLOCK_SIZE` (45 R220). -/
  | enableBlockSize
  /-- X2: enabling with an inconsistent `DMA_TOTAL_SIZE` (45 R220). -/
  | enableTotalSize
  /-- X3: a write of `DMA_BUFFER_MODE` under a running unit that sets `RST` or changes the slot count (45 R222). -/
  | modeWhileRunning
  /-- X4: a write of a table or size register under a running unit (45 R224, R226, R228, R230). -/
  | frozenWhileRunning
  /-- X5: FLUSH or CPU_SYNC of no byte or of a page not in `allocated` (20 R73, R74). -/
  | visibilityRange
  /-- X6: a precondition of BUILD fails (40 R133). -/
  | buildPrecondition
  /-- X7: a precondition of INIT fails (41 R141). -/
  | initPrecondition
  /-- X8: a precondition of TEARDOWN fails (41 R142). -/
  | teardownPrecondition
  /-- X9: a precondition of RESET fails (41 R143). -/
  | resetPrecondition
  /-- X10: START outside Idle and Armed (42 R170). -/
  | startPrecondition
  /-- X11: an operation that needs a ring and there is none (41 R145, R146, 40 R135). -/
  | noRing
  /-- X11: a slot number at or above the number of slots (41 R146). -/
  | slotOutOfRange
  /-- X12: a translation with entry index 512 or more (20 R80). -/
  | entryOutOfTable
  /-- X14: a raw CPU write to a table page under a running unit (20 R87). -/
  | tableFrozen
  /-- An unrequested copy whose condition does not hold (20 R75; log 9); raised by the two copy turns. -/
  | copyNotAllowed
deriving DecidableEq, Repr

/-! ### Updates -/

/-- The same place with another channel state. -/
def Local.withChan (l : Local) (c : Chan) : Local := { l with chan := c }

/-- The same place with another shared state. -/
def Local.withShared (l : Local) (sh : Shared) : Local := { l with shared := sh }

/-- The machine after an operation of channel `s.cur` has left its place as `l`. -/
def State.put (s : State) (l : Local) : State := { s with chans := s.chans.set s.cur l.chan, shared := l.shared }

/-- The machine with channel `c` selected. -/
def State.select (s : State) (c : Nat) : State := { s with cur := c }

/-- The machine with another schedule. -/
def State.withSchedule (s : State) (ts : List Turn) : State := { s with schedule := ts }

/-- The machine with another shared state. -/
def State.withShared (s : State) (sh : Shared) : State := { s with shared := sh }

/-- One view of host memory. -/
def Shared.view (sh : Shared) : View → Memory
  | .cpu => sh.memCpu
  | .dev => sh.memDev

/-- Another content of one view of host memory. -/
def Shared.withView (sh : Shared) (m : Memory) : View → Shared
  | .cpu => { sh with memCpu := m }
  | .dev => { sh with memDev := m }

/-! ### After power-on (10_state.md R47, 70_reset_and_hazards.md R300) -/

/-- A channel after power-on. -/
def Chan.reset (c : Nat) : Chan where
  id := c
  port := Config.portNumber c
  en := false
  slotCountM1 := 0
  writeIndex := 0
  rst := false
  tableLow := Vector.replicate 8 0
  tableHigh := Vector.replicate 8 0
  blockSize := 0
  totalSize := 0
  intEnable := false
  intStatus := false
  readIndex := 0
  resyncOffset := none
  stage := []
  pending := 0
  drainRunning := false
  drainLeft := 0
  ringState := .absent
  ring := none
  clockMode := .internal
  fillPos := 0
  inflight := []
  trackDirty := false
  needsReset := false
  sinkOut := []
  sinkRejected := 0
  log := []
  host := none
  result := .none
  portIn := []
  spoilIn := []

/-- `n` channels after power-on, numbered from `c`. -/
def resetChans : Nat → Nat → List Chan
  | 0, _ => []
  | n + 1, c => Chan.reset c :: resetChans n (c + 1)

/-- The shared state after power-on. -/
def Shared.reset : Shared where
  memCpu := []
  memDev := []
  dirty := []
  allocated := []
  pageAge := []
  allocIn := []
  draws := 0

/-- The machine after power-on. -/
def State.reset : State where
  cfg := Config.hw
  chans := resetChans (Config.channelsLessOne + 1) 0
  shared := Shared.reset
  cur := 0
  schedule := []

end Sys2Proof.Machine
end

