-- ==== Sys2Proof/Machine/Operands.lean ====
section
/-! DEFINITION. Operand forms: index arithmetic (00_scope.md R7), register words (30_encoding.md R103 to R107), the
scatter-gather entry and table (R108, R109), the assembly of 64-bit addresses (R110), pages. -/

namespace Sys2Proof.Machine

/-! ### Arithmetic (00_scope.md R7) -/

/-- `(a - b) mod n`, computed as `(a + n - b) mod n` on the values modulo `n`. -/
def distance (a b n : Nat) : Nat := (a % n + n - b % n) % n

/-- The index after `i` modulo `n`. -/
def nextIndex (i n : Nat) : Nat := (i + 1) % n

/-- `ceil(s / 4096)`: the pages that back `s` bytes. -/
def pagesFor (s : Nat) : Nat := (s + (Config.pageSize - 1)) / Config.pageSize

/-- The page a byte lies in (45 R241, `page_of`). -/
def pageOf (a : Nat) : Nat := a - a % Config.pageSize

/-- A page address (10_state.md R42). -/
def pageAligned (a : Addr) : Bool := a.toNat % Config.pageSize == 0

/-! ### Register words -/

/-- The word of a one-bit register (30_encoding.md R103, R107): bit 0, reserved bits 0. -/
def bitWord (b : Bool) : Word := (BitVec.ofBool b).setWidth 32

/-- Bit 0 of a word: the `EN` and `SLOT_DONE` fields. -/
def bit0 (v : Word) : Bool := v.getLsbD 0

/-- The `SLOT_COUNT_M1` field of a `DMA_BUFFER_MODE` word (30_encoding.md R104). -/
def slotCountField (v : Word) : SlotIx := v.extractLsb' 0 3

/-- The `WRITE_INDEX` field of a `DMA_BUFFER_MODE` word. -/
def writeIndexField (v : Word) : SlotIx := v.extractLsb' 3 3

/-- The `RST` field of a `DMA_BUFFER_MODE` word. -/
def rstField (v : Word) : Bool := v.getLsbD 6

/-- The `DMA_BUFFER_MODE` word of its fields (30_encoding.md R104). -/
def bufferModeWord (rst : Bool) (writeIndex slotCountM1 : SlotIx) : Word :=
  0#25 ++ BitVec.ofBool rst ++ writeIndex ++ slotCountM1

/-- Bits 31:12 of a `DMA_PAGE_TABLE_ADDR_LOW` word (30_encoding.md R105). -/
def tableLowField (v : Word) : BitVec 20 := v.extractLsb' 12 20

/-- The `DMA_PAGE_TABLE_ADDR_LOW` word of its field; bits 11:0 read 0. -/
def tableLowWord (a : BitVec 20) : Word := a ++ 0#12

/-! ### Addresses (30_encoding.md R110) -/

/-- `A[31:0]`. -/
def lowHalf (a : Addr) : Word := a.extractLsb' 0 32

/-- `A[63:32]`. -/
def highHalf (a : Addr) : Word := a.extractLsb' 32 32

/-- The address of two halves with bits 11:0 forced to 0. -/
def pageAddress (hi lo : Word) : Addr := hi ++ tableLowWord (tableLowField lo)

/-- The table base the registers of slot `i` hold (20_memory.md R80). -/
def tableBase (c : Chan) (i : Fin 8) : Addr := c.tableHigh.get i ++ tableLowWord (c.tableLow.get i)

/-! ### Scatter-gather entry and table (30_encoding.md R108, R109) -/

/-- The eight bytes of an entry. -/
def entryBytes (page : Addr) : List Byte := wordBytes (lowHalf page) ++ wordBytes (highHalf page)

/-- The 512 entries of a table for `pages`: the pages in stream order, then the last page again (40 R131). -/
def tableEntries (pages : List Addr) : List Addr :=
  pages ++ List.replicate (Config.entriesPerTable - pages.length) (pages.getLastD 0)

/-- The 4096 bytes of a table for `pages`. -/
def tableBytes (pages : List Addr) : List Byte := (tableEntries pages).flatMap entryBytes

end Sys2Proof.Machine
end

