-- ==== Sys2Proof/Machine/Flags.lean ====
section
/-! DEFINITION. The one-bit conditions of the engine (10_state.md R48): the interrupt line, the enabling conditions of the
agents' steps, the landing condition, the slot states; and the numbering of the error kinds. -/

namespace Sys2Proof.Machine

/-! ### The interrupt -/

/-- The interrupt line of a channel (60_exceptions.md R271): status and enable. -/
def irqLine (c : Chan) : Bool := c.intStatus && c.intEnable

/-- A ring exists (10_state.md R37a). -/
def ringExists (c : Chan) : Bool := decide (c.ringState ≠ .absent)

/-- `ring_state` is Idle or Armed: the states that admit TEARDOWN, RESET and START (41 R140). -/
def idleOrArmed (c : Chan) : Bool := decide (c.ringState = .idle ∨ c.ringState = .armed)

/-! ### Enabling conditions -/

/-- IRQ (44 R200). -/
def irqEnabled (c : Chan) : Bool := irqLine c && ringExists c

/-- DRAIN_BEGIN (44 R202). -/
def drainBeginEnabled (c : Chan) : Bool := decide (0 < c.pending) && !c.drainRunning && ringExists c

/-- DRAIN_SLOT (44 R204). -/
def drainSlotEnabled (c : Chan) : Bool := c.drainRunning && decide (0 < c.drainLeft)

/-- DRAIN_END (44 R205). -/
def drainEndEnabled (c : Chan) : Bool := c.drainRunning && decide (c.drainLeft = 0)

/-- RST_DONE (45 R242). -/
def rstDoneEnabled (c : Chan) : Bool := c.rst

/-- CAP_LAND (45 R241). -/
def capLandEnabled (c : Chan) : Bool := !c.inflight.isEmpty

/-- The number of slots the capture unit wraps at, `SLOT_COUNT_M1 + 1` (10_state.md R22). -/
def modeSlots (c : Chan) : Nat := c.slotCountM1.toNat + 1

/-- The next captured byte is the last of its slot (45 R240). -/
def lastOfSlot (c : Chan) : Bool := decide (c.blockSize.toNat ≤ c.fillPos + 1)

/-- The index the capture unit advances to (45 R240). -/
def advancedIndex (c : Chan) : Nat := nextIndex c.writeIndex.toNat (modeSlots c)

/-- The landing condition of an advance (20_memory.md R83): every byte in flight belongs to a slot at most `MARGIN` behind the
new index. -/
def landingCondition (margin : Margin) (c : Chan) : Bool :=
  c.inflight.all fun e => decide (distance (advancedIndex c) e.slot.toNat (modeSlots c) ≤ margin.slots)

/-- CAP_BYTE (45 R240). -/
def capByteEnabled (margin : Margin) (c : Chan) : Bool :=
  c.en && !c.rst && (!lastOfSlot c || landingCondition margin c)

/-! ### Slot states (10_state.md R41) -/

/-- The logical state of slot `i`. -/
def slotState (c : Chan) (i : Nat) : SlotState :=
  match c.ring with
  | none => .idle
  | some r =>
    let w := c.writeIndex.toNat % r.nSlots
    if c.ringState ≠ .streaming then .idle
    else if i = w then .filling
    else if c.drainRunning ∧ 0 < c.drainLeft ∧ i = c.readIndex then .draining
    else if 1 ≤ distance w i r.nSlots ∧ distance w i r.nSlots ≤ distance w c.readIndex r.nSlots then .filled
    else .idle

/-- A Filled slot that lies at most `MARGIN` behind the write index. -/
def slotGuarded (margin : Margin) (c : Chan) (i : Nat) : Bool :=
  match c.ring with
  | none => false
  | some r => decide (slotState c i = .filled ∧ distance (c.writeIndex.toNat % r.nSlots) i r.nSlots ≤ margin.slots)

/-- A Filled slot that lies further behind the write index than `MARGIN`. -/
def slotDrainable (margin : Margin) (c : Chan) (i : Nat) : Bool :=
  match c.ring with
  | none => false
  | some r => decide (slotState c i = .filled ∧ margin.slots < distance (c.writeIndex.toNat % r.nSlots) i r.nSlots)

/-! ### Error kinds (30_encoding.md R116, 60_exceptions.md R260) -/

/-- The spec's number of an error kind (`Ok` is 0). -/
def ErrorKind.code : ErrorKind → Nat
  | .allocationFailure => 1
  | .hardwareResetFailed => 2
  | .tableOverflow => 3
  | .streamDesynchronized => 4
  | .spuriousInterrupt => 5
  | .invalidParams => 6

/-- A fatal kind ends the operation and is handed to the caller; the others are logged (R260). -/
def ErrorKind.fatal : ErrorKind → Bool
  | .allocationFailure => true
  | .hardwareResetFailed => true
  | .tableOverflow => true
  | .streamDesynchronized => false
  | .spuriousInterrupt => false
  | .invalidParams => true

/-- The kind a logged event stands for (10_state.md R44). -/
def LogEvent.kind : LogEvent → ErrorKind
  | .spuriousInterrupt => .spuriousInterrupt
  | .streamDesynchronized => .streamDesynchronized

/-- The code of how a call ended: 0 for every `Ok`, the kind's number for an error. -/
def Result.code : Result → Nat
  | .error e => e.code
  | _ => 0

end Sys2Proof.Machine
end

