-- ==== Sys2Proof/Machine/Ops.lean ====
section
/-! DEFINITION. The named operations over memory, pages, registers and the capture queue, which the meanings call; taking the
interrupt and the end of the work it schedules; how an operation is run on its channel. -/

namespace Sys2Proof.Machine

open Host (Outcome)

/-! ### Sequencing -/

/-- What an operation answers: a value, a fault or a refusal. -/
abbrev Out (α : Type) := Outcome α Fault Refusal

/-- Go on with the value of a step that answers one. -/
def andThen {α β : Type} (x : Out α) (f : α → Out β) : Out β :=
  match x with
  | .next a => f a
  | .fault r => .fault r
  | .refused r => .refused r

/-- Run an operation on the channel `s.cur` (30_encoding.md R113). No other channel is read or written (60 R278). -/
def onChannel (s : State) (f : Local → Out Local) : Out State :=
  match s.chans[s.cur]? with
  | none => .refused .noSuchChannel
  | some c => andThen (f ⟨c, s.shared⟩) fun l => .next (s.put l)

/-- A call of the HOST: it has no step of its own while it is inside a composite operation (60 R270; log 10). -/
def hostCall (f : Local → Out Local) (l : Local) : Out Local :=
  if l.chan.host.isNone then f l else .refused .hostBusy

/-- The call ends with this result (log 11). -/
def finish (r : Result) (l : Local) : Local := l.withChan { l.chan with result := r }

/-- Whether `x` lies among `a .. a + n - 1`. -/
def within (a n x : Nat) : Bool := decide (a ≤ x) && decide (x < a + n)

/-! ### Sets of addresses: strictly rising lists -/

/-- Take the addresses `a .. a + n - 1` out. -/
def removeRange (xs : List Nat) (a n : Nat) : List Nat := xs.filter fun x => !within a n x

/-- Put the addresses `a .. a + n - 1` in. -/
def addRange (xs : List Nat) (a n : Nat) : List Nat :=
  xs.filter (fun x => decide (x < a)) ++ (List.range' a n ++ xs.filter (fun x => decide (a + n ≤ x)))

/-- Put one address in. -/
def addOne (xs : List Nat) (a : Nat) : List Nat := addRange xs a 1

/-! ### Memory (20_memory.md R70 to R75) -/

/-- The byte something has written at an address, if any. -/
def lookup (m : Memory) (a : Nat) : Option Byte := (m.find? fun cell => cell.1 == a).map Prod.snd

/-- Bytes at rising addresses from `a`. -/
def numbered : Nat → List Byte → Memory
  | _, [] => []
  | a, b :: bs => (a, b) :: numbered (a + 1) bs

/-- The memory with the bytes written from `a` upward (20_memory.md R71: the first byte to the lowest address). -/
def writeBytes (m : Memory) (a : Nat) (bs : List Byte) : Memory :=
  m.filter (fun cell => decide (cell.1 < a)) ++
    (numbered a bs ++ m.filter (fun cell => decide (a + bs.length ≤ cell.1)))

/-- The memory without the bytes at `a .. a + n - 1`: their content is unspecified again. -/
def forgetBytes (m : Memory) (a n : Nat) : Memory := m.filter fun cell => !within a n cell.1

/-- The allocation a page's unspecified content belongs to; 0 where the page was never allocated (log 7). -/
def ageOf (sh : Shared) (page : Nat) : Nat :=
  ((sh.pageAge.find? fun e => e.1 == page).map Prod.snd).getD 0

/-- What a byte nothing has written holds: a free value (10_state.md R42, U1; log 7). -/
def freshByteAt (sh : Shared) (v : View) (a : Nat) : Byte := Config.freshByte (ageOf sh (pageOf a)) v a

/-- The byte at an address of a view. -/
def byteAt (sh : Shared) (v : View) (a : Nat) : Byte := (lookup (sh.view v) a).getD (freshByteAt sh v a)

/-- The bytes from `a` on, `n` of them, of a memory whose entries below `a` are left out: each listed byte, and the free value
of each byte that is not listed. One pass over the entries (`readBytes_eq` of Laws/Memory.lean is the plain reading). -/
def spell (fresh : Nat → Byte) : Memory → Nat → Nat → List Byte
  | _, _, 0 => []
  | [], a, n + 1 => fresh a :: spell fresh [] (a + 1) n
  | (x, b) :: cells, a, n + 1 =>
    if x = a then b :: spell fresh cells (a + 1) n
    else fresh a :: spell fresh ((x, b) :: cells) (a + 1) n

/-- The `n` bytes from `a` in a view (`MemReadCpu`, `MemReadDev` of 00_scope.md R8). -/
def readBytes (sh : Shared) (v : View) (a n : Nat) : List Byte :=
  spell (freshByteAt sh v) ((sh.view v).filter fun cell => within a n cell.1) a n

/-- `MemWriteCpu`: writes the CPU view and makes the bytes dirty (20_memory.md R72). -/
def writeCpu (sh : Shared) (a : Nat) (bs : List Byte) : Shared :=
  { sh with memCpu := writeBytes sh.memCpu a bs, dirty := addRange sh.dirty a bs.length }

/-- `MemWriteDev`: writes the device view only (20_memory.md R72). -/
def writeDev (sh : Shared) (a : Nat) (bs : List Byte) : Shared :=
  { sh with memDev := writeBytes sh.memDev a bs }

/-- A 32-bit little-endian read of the device view (20_memory.md R71, R77). -/
def readDevWord (sh : Shared) (a : Nat) : Word := BitVec.ofNat 32 (leNat (readBytes sh .dev a 4))

/-- `n` pages from page number `p` on are all in `allocated`. -/
def pagesAllocated (allocated : List Nat) : Nat → Nat → Bool
  | _, 0 => true
  | p, n + 1 => allocated.contains (p * Config.pageSize) && pagesAllocated allocated (p + 1) n

/-- Every byte of `a .. a + n - 1` lies in a page in `allocated`, and there is such a byte (20_memory.md R73, R74). -/
def rangeAllocated (sh : Shared) (a n : Nat) : Bool :=
  decide (1 ≤ n) &&
    pagesAllocated sh.allocated (a / Config.pageSize) ((a + n - 1) / Config.pageSize - a / Config.pageSize + 1)

/-- Publish: the device view of the range becomes the CPU view's (20_memory.md R73). -/
def publish (sh : Shared) (a n : Nat) : Shared :=
  { sh with memDev := writeBytes sh.memDev a (readBytes sh .cpu a n), dirty := removeRange sh.dirty a n }

/-- Sync: the CPU view of the range becomes the device view's (20_memory.md R74). -/
def syncCpu (sh : Shared) (a n : Nat) : Shared :=
  { sh with memCpu := writeBytes sh.memCpu a (readBytes sh .dev a n), dirty := removeRange sh.dirty a n }

/-- FLUSH (20_memory.md R73). -/
def flushRange (a n : Nat) (l : Local) : Out Local :=
  if rangeAllocated l.shared a n then .next (l.withShared (publish l.shared a n)) else .refused .visibilityRange

/-- CPU_SYNC (20_memory.md R74). -/
def syncRange (a n : Nat) (l : Local) : Out Local :=
  if rangeAllocated l.shared a n then .next (l.withShared (syncCpu l.shared a n)) else .refused .visibilityRange

/-! ### Draws from the environment (10_state.md R45; log 5): a value the state already holds, else a free value -/

/-- The allocator's raw answer (U5). -/
def drawAnswer (sh : Shared) : Option Addr × Shared :=
  match sh.allocIn with
  | a :: rest => (a, { sh with allocIn := rest })
  | [] => (Config.allocAnswer sh.draws, { sh with draws := sh.draws + 1 })

/-- The port's next byte (U6). -/
def drawPortByte (l : Local) : Byte × Local :=
  match l.chan.portIn with
  | b :: rest => (b, l.withChan { l.chan with portIn := rest })
  | [] => (Config.portByte l.chan.id l.shared.draws, l.withShared { l.shared with draws := l.shared.draws + 1 })

/-- The value the erratum leaves in the write index, brought into `0 .. SLOT_COUNT_M1` (U3; log 5). -/
def drawSpoiledIndex (l : Local) : SlotIx × Local :=
  match l.chan.spoilIn with
  | x :: rest => (BitVec.ofNat 3 (x % modeSlots l.chan), l.withChan { l.chan with spoilIn := rest })
  | [] =>
    (BitVec.ofNat 3 (Config.spoiledIndex l.chan.id l.shared.draws % modeSlots l.chan),
      l.withShared { l.shared with draws := l.shared.draws + 1 })

/-! ### Pages (10_state.md R42) -/

/-- The page at `p` becomes allocated: its content is unspecified in both views and none of its bytes is dirty. -/
def freshPage (sh : Shared) (p : Nat) : Shared :=
  { sh with
    allocated := addOne sh.allocated p
    memCpu := forgetBytes sh.memCpu p Config.pageSize
    memDev := forgetBytes sh.memDev p Config.pageSize
    dirty := removeRange sh.dirty p Config.pageSize
    pageAge := sh.pageAge.filter (fun e => decide (e.1 < p)) ++
      ((p, sh.draws + 1) :: sh.pageAge.filter (fun e => decide (p < e.1)))
    draws := sh.draws + 1 }

/-- `alloc_page()`: `fail`, or a page address not in `allocated`. A raw answer is brought to a page boundary; one that is
allocated already counts as `fail`, so every answer the spec allows can occur and no other (log 6). -/
def allocPage (sh : Shared) : Option Addr × Shared :=
  match drawAnswer sh with
  | (none, sh') => (none, sh')
  | (some a, sh') =>
    let p := pageAddress (highHalf a) (lowHalf a)
    if sh'.allocated.contains p.toNat then (none, sh') else (some p, freshPage sh' p.toNat)

/-- `free_page(p)`: out of `allocated`, and its bytes out of `dirty` (20_memory.md R72). -/
def freePage (sh : Shared) (p : Nat) : Shared :=
  { sh with
    allocated := sh.allocated.filter (fun x => x != p)
    dirty := removeRange sh.dirty p Config.pageSize }

/-- `free_page` of each page. -/
def freePages (sh : Shared) (ps : List Addr) : Shared := ps.foldl (fun s p => freePage s p.toNat) sh

/-- `alloc_page` `k` times, stopping at the first `fail`: whether all were given, the pages given in order, and the shared
state. -/
def allocPages : Nat → List Addr → Shared → Bool × List Addr × Shared
  | 0, got, sh => (true, got, sh)
  | k + 1, got, sh =>
    match allocPage sh with
    | (none, sh') => (false, got, sh')
    | (some p, sh') => allocPages k (got ++ [p]) sh'

/-- A byte of `a .. a + n - 1` lies in a table page of a ring whose unit runs: the hardware may be reading it (20_memory.md
R87). No byte touches no page (log 23). -/
def touchesFrozenTable (chans : List Chan) (a n : Nat) : Bool :=
  decide (0 < n) && chans.any fun c => c.en &&
    match c.ring with
    | none => false
    | some r => r.table.any fun t => decide (t.toNat < a + n) && decide (a < t.toNat + Config.pageSize)

/-! ### Translation (20_memory.md R80) -/

/-- The bus address of offset `b` of slot `i`: two device reads of the slot's table. -/
def translateOffset (l : Local) (i : Fin 8) (b : Nat) : Out Addr :=
  let e := b / Config.pageSize
  if e < Config.entriesPerTable then
    let at_ := (tableBase l.chan i).toNat + Config.entrySize * e
    let lo := readDevWord l.shared at_
    let hi := readDevWord l.shared (at_ + 4)
    .next (pageAddress hi lo + BitVec.ofNat 64 (b % Config.pageSize))
  else .refused .entryOutOfTable

/-! ### The capture queue (20_memory.md R83, 45 R241) -/

/-- One captured byte reaches host memory, or the model faults where no ring owns the page (70 R316). -/
def landByte (sh : Shared) (e : InFlight) : Out Shared :=
  if sh.allocated.contains (pageOf e.addr.toNat) then .next (writeDev sh e.addr.toNat [e.byte])
  else .fault .dmaToFreedPage

/-- All bytes of a queue land, oldest first. -/
def landBytes : List InFlight → Shared → Out Shared
  | [], sh => .next sh
  | e :: rest, sh => andThen (landByte sh e) (landBytes rest)

/-! ### Register accesses (45_register_access_and_capture.md) -/

/-- R220: what an enable tests, in order. -/
def enableRefusal (c : Chan) : Option Refusal :=
  if c.needsReset then some .enableNeedsReset
  else if c.rst then some .enableDuringReset
  else if c.blockSize.toNat = 0 ∨ Config.tableCapacity < c.blockSize.toNat then some .enableBlockSize
  else if c.totalSize.toNat ≠ modeSlots c * c.blockSize.toNat then some .enableTotalSize
  else none

/-- R220, an enable of a disabled unit. -/
def enableUnit (l : Local) : Out Local :=
  match enableRefusal l.chan with
  | some r => .refused r
  | none => .next (l.withChan { l.chan with en := true })

/-- R220, a disable of an enabled unit: the pipeline empties first. -/
def disableUnit (l : Local) : Out Local :=
  andThen (landBytes l.chan.inflight l.shared) fun sh =>
    .next ⟨{ l.chan with inflight := [], en := false, needsReset := true }, sh⟩

/-- R220: a write of `DMA_ENABLE`; only bit 0 counts, and an unchanged value has no effect. -/
def writeEnable (v : Word) (l : Local) : Out Local :=
  if bit0 v && !l.chan.en then enableUnit l
  else if !bit0 v && l.chan.en then disableUnit l
  else .next l

/-- R222: a write of `DMA_BUFFER_MODE`. -/
def writeBufferMode (v : Word) (l : Local) : Out Local :=
  if l.chan.en && (rstField v || decide (slotCountField v ≠ l.chan.slotCountM1)) then .refused .modeWhileRunning
  else .next (l.withChan { l.chan with slotCountM1 := slotCountField v, rst := rstField v, trackDirty := false })

/-- A register that is frozen while the unit runs (70 R318). -/
def whileStopped (l : Local) (c : Chan) : Out Local :=
  if l.chan.en then .refused .frozenWhileRunning else .next (l.withChan c)

/-- R224: a write of `DMA_PAGE_TABLE_ADDR_LOW[i]`. -/
def writeTableLow (i : Fin 8) (v : Word) (l : Local) : Out Local :=
  whileStopped l { l.chan with tableLow := l.chan.tableLow.set i.val (tableLowField v) i.isLt }

/-- R226: a write of `DMA_PAGE_TABLE_ADDR_HIGH[i]`. -/
def writeTableHigh (i : Fin 8) (v : Word) (l : Local) : Out Local :=
  whileStopped l { l.chan with tableHigh := l.chan.tableHigh.set i.val v i.isLt }

/-- R228: a write of `DMA_BLOCK_SIZE`. -/
def writeBlockSize (v : Word) (l : Local) : Out Local := whileStopped l { l.chan with blockSize := v }

/-- R230: a write of `DMA_TOTAL_SIZE`. -/
def writeTotalSize (v : Word) (l : Local) : Out Local := whileStopped l { l.chan with totalSize := v }

/-- R232: a write of `INT_ENABLE`. -/
def writeIntEnable (v : Word) (l : Local) : Local := l.withChan { l.chan with intEnable := bit0 v }

/-- R234: a write of `INT_STATUS` is ignored. -/
def writeIntStatus (_v : Word) (l : Local) : Local := l

/-- R236: a write of `INT_CLEAR`, write-one-to-clear. -/
def writeIntClear (v : Word) (l : Local) : Local :=
  if bit0 v then l.withChan { l.chan with intStatus := false } else l

/-- R221. -/
def readEnable (c : Chan) : Word := bitWord c.en

/-- R223: a read of `DMA_BUFFER_MODE`: on an affected revision, while the unit runs, a read that no write separates from the
one before spoils the write index first. -/
def readBufferMode (cfg : HwConfig) (l : Local) : Word × Local :=
  let l' :=
    if l.chan.en && cfg.erratumRewrite then
      let l₁ :=
        if l.chan.trackDirty then
          let l₀ := (drawSpoiledIndex l).2
          l₀.withChan { l₀.chan with writeIndex := (drawSpoiledIndex l).1 }
        else l
      l₁.withChan { l₁.chan with trackDirty := true }
    else l
  (bufferModeWord l'.chan.rst l'.chan.writeIndex l'.chan.slotCountM1, l')

/-- R225. -/
def readTableLow (i : Fin 8) (c : Chan) : Word := tableLowWord (c.tableLow.get i)

/-- R227. -/
def readTableHigh (i : Fin 8) (c : Chan) : Word := c.tableHigh.get i

/-- R229. -/
def readBlockSize (c : Chan) : Word := c.blockSize

/-- R231. -/
def readTotalSize (c : Chan) : Word := c.totalSize

/-- R233. -/
def readIntEnable (c : Chan) : Word := bitWord c.intEnable

/-- R235: reading does not clear. -/
def readIntStatus (c : Chan) : Word := bitWord c.intStatus

/-- R237: the register stores nothing and reads 0. -/
def readIntClear (_c : Chan) : Word := 0

/-! ### Taking the interrupt, and the end of the work it schedules -/

/-- Taking the interrupt (44 R200, 60 R273): acknowledge through `INT_CLEAR`, count with saturation. A pass is scheduled exactly
when `pending > 0`. Nothing is saved and nothing else is touched. -/
def takeInterrupt (l : Local) : Local :=
  let l' := writeIntClear 1 l
  l'.withChan { l'.chan with pending := min Config.pendingCap (l'.chan.pending + 1) }

/-- The end of a pass (44 R205, 60 R274): there is no return instruction, the deferred work just ends.
DESIGN CHOICE (log 13): `pending` stays 0 where it is 0. -/
def endPass (l : Local) : Local :=
  l.withChan { l.chan with pending := l.chan.pending - 1, drainRunning := false }

end Sys2Proof.Machine
end

