-- ==== Sys2Proof/Machine/PageTable.lean ====
section
/-! DEFINITION. Scatter-gather descriptor programming: BUILD and INSTALL_TABLES (40_page_table_builder.md). -/

namespace Sys2Proof.Machine

/-- A page that BUILD takes: page-aligned and owned by some ring (40 R133). -/
def usablePage (sh : Shared) (p : Addr) : Bool := pageAligned p && sh.allocated.contains p.toNat

/-- The preconditions of BUILD (40 R133). -/
def buildAllowed (sh : Shared) (pages : List Addr) (table : Addr) : Bool :=
  !pages.isEmpty && pages.all (usablePage sh) && usablePage sh table && !pages.contains table

/-- BUILD (40 R130 to R133): whether it ended with `Ok` or with `TableOverflow` (then nothing is written), and the shared state.
The 1024 writes of four bytes of the rule are one write of the table's 4096 bytes, the step being atomic. -/
def buildTable (pages : List Addr) (table : Addr) (sh : Shared) : Out (Result × Shared) :=
  if !buildAllowed sh pages table then .refused .buildPrecondition
  else if Config.tableCapacity < pages.length * Config.pageSize then .next (.error .tableOverflow, sh)
  else .next (.ok, writeCpu sh table.toNat (tableBytes pages))

/-- BUILD as a call. A write of a table page under a running unit is refused (20 R87, X14; log 17). -/
def execBuild (pages : List Addr) (table : Addr) (s : State) : Out State :=
  onChannel s (hostCall fun l =>
    andThen (buildTable pages table l.shared) fun (r, sh) =>
      if r = .ok ∧ touchesFrozenTable s.chans table.toNat Config.pageSize then .refused .tableFrozen
      else .next (finish r (l.withShared sh)))

/-- One slot of INSTALL_TABLES (40 R135): publish, then the low half, then the high half. -/
def installTable (i : Fin 8) (table : Addr) (l : Local) : Out Local :=
  andThen (flushRange table.toNat Config.pageSize l) fun l₁ =>
  andThen (writeTableLow i (lowHalf table) l₁) fun l₂ =>
  writeTableHigh i (highHalf table) l₂

/-- The slots of INSTALL_TABLES in rising order from `i`. -/
def installFrom : Nat → List Addr → Local → Out Local
  | _, [], l => .next l
  | i, t :: rest, l =>
    if h : i < 8 then andThen (installTable ⟨i, h⟩ t l) (installFrom (i + 1) rest)
    else .refused .slotOutOfRange

/-- INSTALL_TABLES (40 R135) for a ring. -/
def installTables (r : Ring) (l : Local) : Out Local := installFrom 0 r.table l

/-- The ring of a channel where there is one (41 R140). -/
def withRing {α : Type} (c : Chan) (f : Ring → Out α) : Out α :=
  match c.ring with
  | none => .refused .noRing
  | some r => if ringExists c then f r else .refused .noRing

/-- INSTALL_TABLES as a call (40 R135). -/
def execInstallTables (s : State) : Out State :=
  onChannel s (hostCall fun l =>
    withRing l.chan fun r => andThen (installTables r l) fun l' => .next (finish .ok l'))

end Sys2Proof.Machine
end

