-- ==== Sys2Proof/Machine/Ring.lean ====
section
/-! DEFINITION. The ring buffer (41_dma_ring_buffer.md): INIT, TEARDOWN, RESET with its poll, CURRENT_WRITE_INDEX,
READ_SLOT. -/

namespace Sys2Proof.Machine

/-! ### INIT (R141) -/

/-- How many pages INIT asks for: `N x P + N + 1`. -/
def initPages (n s : Nat) : Nat := n * pagesFor s + n + 1

/-- The pages of slot `i`, of `P` pages each, from the pages got. -/
def slotPages (got : List Addr) (p i : Nat) : List Addr := (got.drop (i * p)).take p

/-- The record INIT makes of the pages got: data pages, then table pages, then the spare page. -/
def ringOf (n s : Nat) (got : List Addr) : Ring where
  nSlots := n
  slotSize := s
  pagesPerSlot := pagesFor s
  pages := (List.range n).map (slotPages got (pagesFor s))
  table := (got.drop (n * pagesFor s)).take n
  spare := got.getD (n * pagesFor s + n) 0

/-- BUILD of each slot's table, stopping at the first that overflows. -/
def buildAll : List (List Addr × Addr) → Shared → Out (Result × Shared)
  | [], sh => .next (.ok, sh)
  | (pages, table) :: rest, sh =>
    andThen (buildTable pages table sh) fun (r, sh') =>
      match r with
      | .ok => buildAll rest sh'
      | e => .next (e, sh')

/-- The working registers as INIT and RESET leave them (R141, R143). -/
def clearWorking (c : Chan) : Chan :=
  { c with readIndex := 0, resyncOffset := none, stage := [], pending := 0 }

/-- INIT once every table is built: the ring is there, its tables are published and installed, the slot count is written. -/
def initInstall (r : Ring) (l : Local) : Out Local :=
  andThen (installTables r (l.withChan { l.chan with ring := some r })) fun l₁ =>
  andThen (writeBufferMode (BitVec.ofNat 32 (r.nSlots - 1)) l₁) fun l₂ =>
  .next (finish .ok (l₂.withChan { clearWorking l₂.chan with ringState := .idle }))

/-- INIT on its channel (R141): every page obtained by an INIT that fails is freed, and no register has been written. -/
def initRing (n s : Nat) (l : Local) : Out Local :=
  if l.chan.ringState = .absent ∧ 1 ≤ n ∧ n ≤ Config.maxSlots ∧ 1 ≤ s then
    match allocPages (initPages n s) [] l.shared with
    | (false, got, sh) => .next (finish (.error .allocationFailure) (l.withShared (freePages sh got)))
    | (true, got, sh) =>
      let r := ringOf n s got
      andThen (buildAll (r.pages.zip r.table) sh) fun (built, sh') =>
        match built with
        | .ok => initInstall r (l.withShared sh')
        | e => .next (finish e (l.withShared (freePages sh' got)))
  else .refused .initPrecondition

/-- INIT. -/
def execInit (n s : Nat) (st : State) : Out State := onChannel st (hostCall (initRing n s))

/-! ### TEARDOWN (R142) -/

/-- Every page of a ring. -/
def ringPages (r : Ring) : List Addr := r.pages.flatten ++ (r.table ++ [r.spare])

/-- The preconditions of TEARDOWN. -/
def teardownAllowed (c : Chan) : Bool :=
  idleOrArmed c && !c.drainRunning && decide (c.pending = 0) && !c.en && !c.intEnable

/-- TEARDOWN on its channel. -/
def teardownRing (l : Local) : Out Local :=
  if teardownAllowed l.chan then
    withRing l.chan fun r =>
      .next (finish .ok ⟨{ l.chan with ring := none, ringState := .absent }, freePages l.shared (ringPages r)⟩)
  else .refused .teardownPrecondition

/-- TEARDOWN. -/
def execTeardown (s : State) : Out State := onChannel s (hostCall teardownRing)

/-! ### RESET (R143) and its poll (R144) -/

/-- RESET up to the first read of its poll. -/
def resetRequest (l : Local) : Out Local :=
  if idleOrArmed l.chan && !l.chan.drainRunning then
    withRing l.chan fun r =>
      andThen (writeEnable 0 l) fun l₁ =>
      andThen (writeBufferMode 0 l₁) fun l₂ =>
      andThen (installTables r l₂) fun l₃ =>
      writeBufferMode (0x40#32 ||| BitVec.ofNat 32 (r.nSlots - 1)) l₃
  else .refused .resetPrecondition

/-- What one read of the poll tells (R144). -/
inductive PollAnswer where
  /-- `RST` read 0. -/
  | confirmed
  /-- `RST` read 1 and reads are left. -/
  | again
  /-- `RST` read 1 at the hundredth read. -/
  | timedOut
deriving DecidableEq, Repr

/-- The `k`-th read of the poll. -/
def pollRead (cfg : HwConfig) (k : Nat) (l : Local) : PollAnswer × Local :=
  ((if rstField (readBufferMode cfg l).1 then (if k < Config.resetPollMax then .again else .timedOut) else .confirmed),
    (readBufferMode cfg l).2)

/-- A confirmed reset: the working registers start anew and the ring is Armed. -/
def resetConfirmed (l : Local) : Local := l.withChan { clearWorking l.chan with ringState := .armed }

/-- A reset that timed out: the ring is Idle, the call ends with `HardwareResetFailed` (60 R262). -/
def resetTimedOut (l : Local) : Local :=
  finish (.error .hardwareResetFailed) (l.withChan { l.chan with ringState := .idle, host := none })

/-- The HOST's next step is this. -/
def hostAt (w : Option HostWork) (l : Local) : Local := l.withChan { l.chan with host := w }

/-- One step of RESET by a HOST that is inside it. -/
def resetPoll (cfg : HwConfig) (k : Nat) (l : Local) : Local :=
  match pollRead cfg k l with
  | (.confirmed, l') => finish .ok (hostAt none (resetConfirmed l'))
  | (.again, l') => hostAt (some (.reset (k + 1))) l'
  | (.timedOut, l') => resetTimedOut l'

/-- RESET on its channel: the first step, or the next one of a RESET in progress (log 10). -/
def resetStep (cfg : HwConfig) (l : Local) : Out Local :=
  match l.chan.host with
  | none => andThen (resetRequest l) fun l' => .next (hostAt (some (.reset 1)) l')
  | some (.reset k) => .next (resetPoll cfg k l)
  | some _ => .refused .hostBusy

/-- RESET. -/
def execReset (s : State) : Out State := onChannel s (resetStep s.cfg)

/-! ### CURRENT_WRITE_INDEX (R145) -/

/-- CURRENT_WRITE_INDEX: one register read, and on an affected revision the re-write. -/
def currentWriteIndex (cfg : HwConfig) (l : Local) : Out (Nat × Local) :=
  withRing l.chan fun r =>
    let v := (readBufferMode cfg l).1
    let l₁ := (readBufferMode cfg l).2
    andThen (if cfg.erratumRewrite then writeBufferMode (v &&& 7#32) l₁ else .next l₁) fun l₂ =>
    .next ((writeIndexField v).toNat % r.nSlots, l₂)

/-- CURRENT_WRITE_INDEX as a call. -/
def execCurrentWriteIndex (s : State) : Out State :=
  onChannel s (hostCall fun l =>
    andThen (currentWriteIndex s.cfg l) fun (w, l') => .next (finish (.index w) l'))

/-! ### READ_SLOT (R146) -/

/-- CPU_SYNC of each page. -/
def syncPages : List Addr → Local → Out Local
  | [], l => .next l
  | p :: rest, l => andThen (syncRange p.toNat Config.pageSize l) (syncPages rest)

/-- The bytes of each page in the CPU view, in order. -/
def readPages (sh : Shared) (ps : List Addr) : List Byte :=
  ps.flatMap fun p => readBytes sh .cpu p.toNat Config.pageSize

/-- READ_SLOT: the sync and the read are one step. -/
def readSlot (i : Nat) (l : Local) : Out (List Byte × Local) :=
  withRing l.chan fun r =>
    match if i < r.nSlots then r.pages[i]? else none with
    | none => .refused .slotOutOfRange
    | some ps => andThen (syncPages ps l) fun l' => .next ((readPages l'.shared ps).take r.slotSize, l')

/-- READ_SLOT as a call. -/
def execReadSlot (i : Nat) (s : State) : Out State :=
  onChannel s (hostCall fun l => andThen (readSlot i l) fun (bs, l') => .next (finish (.bytes bs) l'))

end Sys2Proof.Machine
end

