-- ==== Sys2Proof/Machine/Sync.lean ====
section
/-! DEFINITION. The packet-boundary synchronizer: the pure functions SCAN and ALIGN (43_sync_scanner.md), and their calls. -/

namespace Sys2Proof.Machine

/-- Byte `i` of a slot is there and is the packet marker. -/
def markerAt (slot : List Byte) (i : Nat) : Bool := slot[i]? == some Config.marker

/-- Three markers, one packet apart, the first at `i`. -/
def threeMarkers (slot : List Byte) (i : Nat) : Bool :=
  decide (i + 2 * Config.packetSize < slot.length) && markerAt slot i && markerAt slot (i + Config.packetSize) &&
    markerAt slot (i + 2 * Config.packetSize)

/-- `search` (43 R186): the smallest offset of a run of three markers in the first window. -/
def search (slot : List Byte) : Option Nat := (List.range Config.packetSize).find? (threeMarkers slot)

/-- The byte at the known offset is the marker. -/
def keepsOffset (slot : List Byte) : Option Nat → Bool
  | none => false
  | some k => decide (k < slot.length) && markerAt slot k

/-- `scan` (43 R185, R187). -/
def scan (slot : List Byte) (known : Option Nat) : ScanStatus × Option Nat :=
  if keepsOffset slot known then (.kept, known)
  else
    match search slot with
    | some i => (.resynced, some i)
    | none => (.desynchronized, known)

/-- The staged tail and the head of the slot make one packet (43 R188). -/
def stageFits (off : Nat) (stage : List Byte) : Bool :=
  decide (0 < stage.length) && decide (stage.length + off = Config.packetSize) && markerAt stage 0

/-- `align` (43 R188): the bytes to forward and the new staged tail. -/
def align (slot : List Byte) (off : Nat) (stage : List Byte) : List Byte × List Byte :=
  if slot.length ≤ off then ([], [])
  else
    let head := if stageFits off stage then stage ++ slot.take off else []
    let whole := Config.packetSize * ((slot.length - off) / Config.packetSize)
    (head ++ (slot.drop off).take whole, slot.drop (off + whole))

/-- SCAN as a call: only the result is written (43, "both are pure functions"; log 12). -/
def execScan (slot : List Byte) (known : Option Nat) (s : State) : Out State :=
  onChannel s fun l => .next (finish (.scanned (scan slot known).1 (scan slot known).2) l)

/-- ALIGN as a call: only the result is written (log 12). -/
def execAlign (slot : List Byte) (off : Nat) (stage : List Byte) (s : State) : Out State :=
  onChannel s fun l => .next (finish (.aligned (align slot off stage).1 (align slot off stage).2) l)

end Sys2Proof.Machine
end

