-- ==== Sys2Proof/Machine/Bridge.lean ====
section
/-! DEFINITION. The interrupt bridge (44_interrupt_bridge.md): IRQ, DRAIN_BEGIN, DRAIN_SLOT, DRAIN_END, SINK_WRITE. -/

namespace Sys2Proof.Machine

/-! ### SINK_WRITE (R206) -/

/-- The sink's acceptance test (30_encoding.md R111): a positive multiple of 188 bytes that begins with the marker. -/
def packetAligned (bytes : List Byte) : Bool :=
  decide (bytes.length % Config.packetSize = 0) && decide (0 < bytes.length) && markerAt bytes 0

/-- The sink takes or rejects a buffer. -/
def sinkWrite (bytes : List Byte) (c : Chan) : Chan :=
  if packetAligned bytes then { c with sinkOut := c.sinkOut ++ [bytes] }
  else { c with sinkRejected := c.sinkRejected + 1 }

/-- SINK_WRITE as a call (log 12). -/
def execSinkWrite (bytes : List Byte) (s : State) : Out State :=
  onChannel s fun l => .next (finish (.sunk (packetAligned bytes)) (l.withChan (sinkWrite bytes l.chan)))

/-! ### IRQ (R200) -/

/-- A step of an agent other than the HOST: none where its enabling condition does not hold (log 9). -/
def whenEnabled (enabled : Chan → Bool) (f : Local → Out Local) (l : Local) : Out Local :=
  if enabled l.chan then f l else .refused .notEnabled

/-- IRQ. -/
def execIrq (s : State) : Out State := onChannel s (whenEnabled irqEnabled fun l => .next (takeInterrupt l))

/-! ### The drain (R202 to R205) -/

/-- How many slots a pass may drain (R203): the distance from `read_index` to the write index, less the margin. -/
def drainCount (margin : Margin) (w readIndex n : Nat) : Nat := distance w readIndex n - margin.slots

/-- An event is logged (60 R268). -/
def logEvent (e : LogEvent) (c : Chan) : Chan := { c with log := c.log ++ [e] }

/-- DRAIN_BEGIN on its channel (R202). -/
def drainBegin (cfg : HwConfig) (l : Local) : Out Local :=
  withRing l.chan fun r =>
    andThen (currentWriteIndex cfg (l.withChan { l.chan with drainRunning := true })) fun (w, l') =>
      if distance w l'.chan.readIndex r.nSlots = 0 then
        .next (l'.withChan { logEvent .spuriousInterrupt l'.chan with drainLeft := 0 })
      else
        .next (l'.withChan { l'.chan with drainLeft := drainCount cfg.margin w l'.chan.readIndex r.nSlots })

/-- DRAIN_BEGIN. -/
def execDrainBegin (s : State) : Out State := onChannel s (whenEnabled drainBeginEnabled (drainBegin s.cfg))

/-- DRAIN_SLOT after the slot's bytes are read: the scan's effect. -/
def noteScan (status : ScanStatus) (off : Option Nat) (c : Chan) : Chan :=
  if status = .desynchronized then logEvent .streamDesynchronized c else { c with resyncOffset := off }

/-- DRAIN_SLOT after the scan: align, stage, forward. An empty buffer is not forwarded. -/
def forwardSlot (bytes : List Byte) (off : Option Nat) (c : Chan) : Chan :=
  match off with
  | none => { c with stage := [] }
  | some o =>
    let out := (align bytes o c.stage).1
    let c' := { c with stage := (align bytes o c.stage).2 }
    if out.isEmpty then c' else sinkWrite out c'

/-- DRAIN_SLOT at its end: the cursor moves on. -/
def advanceRead (n : Nat) (c : Chan) : Chan :=
  { c with readIndex := nextIndex c.readIndex n, drainLeft := c.drainLeft - 1 }

/-- What DRAIN_SLOT makes of a slot's bytes (R204). -/
def consumeSlot (n : Nat) (bytes : List Byte) (c : Chan) : Chan :=
  let found := scan bytes c.resyncOffset
  advanceRead n (forwardSlot bytes found.2 (noteScan found.1 found.2 c))

/-- DRAIN_SLOT on its channel (R204). -/
def drainSlot (l : Local) : Out Local :=
  withRing l.chan fun r =>
    andThen (readSlot l.chan.readIndex l) fun (bytes, l') =>
      .next (l'.withChan (consumeSlot r.nSlots bytes l'.chan))

/-- DRAIN_SLOT. -/
def execDrainSlot (s : State) : Out State := onChannel s (whenEnabled drainSlotEnabled drainSlot)

/-- DRAIN_END (R205). -/
def execDrainEnd (s : State) : Out State := onChannel s (whenEnabled drainEndEnabled fun l => .next (endPass l))

end Sys2Proof.Machine
end

