-- ==== Sys2Proof/Machine/Capture.lean ====
section
/-! DEFINITION. The capture unit's own steps (45_register_access_and_capture.md section 6): CAP_BYTE, CAP_LAND, RST_DONE. -/

namespace Sys2Proof.Machine

/-- The position after a byte is taken (R240): the next byte of the slot, or the start of the next slot, which sets the
interrupt's status bit. -/
def advanceCapture (c : Chan) : Chan :=
  if lastOfSlot c then
    { c with fillPos := 0, writeIndex := BitVec.ofNat 3 (advancedIndex c), intStatus := true }
  else { c with fillPos := c.fillPos + 1 }

/-- CAP_BYTE on its channel (R240): the byte is drawn, its address translated, and it joins the queue. -/
def captureByte (l : Local) : Out Local :=
  andThen (translateOffset l l.chan.writeIndex.toFin l.chan.fillPos) fun addr =>
    let l' := (drawPortByte l).2
    let c := { l'.chan with inflight := l'.chan.inflight ++ [⟨l.chan.writeIndex, addr, (drawPortByte l).1⟩] }
    .next (l'.withChan (advanceCapture c))

/-- CAP_BYTE. -/
def execCapByte (s : State) : Out State := onChannel s (whenEnabled (capByteEnabled s.cfg.margin) captureByte)

/-- CAP_LAND on its channel (R241): the oldest byte of the queue lands. -/
def landOldest (l : Local) : Out Local :=
  match l.chan.inflight with
  | [] => .refused .notEnabled
  | e :: rest => andThen (landByte l.shared e) fun sh => .next ⟨{ l.chan with inflight := rest }, sh⟩

/-- CAP_LAND. -/
def execCapLand (s : State) : Out State := onChannel s (whenEnabled capLandEnabled landOldest)

/-- The hardware reset is done (R242, 70 R301). -/
def resetDone (c : Chan) : Chan :=
  { c with writeIndex := 0, fillPos := 0, inflight := [], trackDirty := false, needsReset := false, rst := false }

/-- RST_DONE. -/
def execRstDone (s : State) : Out State :=
  onChannel s (whenEnabled rstDoneEnabled fun l => .next (l.withChan (resetDone l.chan)))

end Sys2Proof.Machine
end

