-- ==== Sys2Proof/Machine/Channel.lean ====
section
/-! DEFINITION. The capture channel (42_capture_channel.md): START and STOP. Each numbered step of their rules is a separate step
of the HOST, with other agents' steps allowed in between (R170, R172; log 10). -/

namespace Sys2Proof.Machine

/-! ### START (R170, R171) -/

/-- `valid(pitch, lines)` (R171). -/
def validParams (r : Ring) (pitch lines : Nat) : Bool :=
  decide (1 ≤ pitch) && decide (1 ≤ lines) && decide (pitch * lines = r.slotSize) &&
    decide (pitch * lines % Config.packetSize = 0)

/-- Step 1: validation. Nothing is written but the HOST's place, or the call's result where the parameters are invalid. -/
def startValidate (pitch lines : Nat) (l : Local) : Out Local :=
  if idleOrArmed l.chan then
    withRing l.chan fun r =>
      if validParams r pitch lines then .next (hostAt (some (.start pitch lines .reset)) l)
      else .next (finish (.error .invalidParams) l)
  else .refused .startPrecondition

/-- One read of the poll inside step 2. -/
def startPoll (cfg : HwConfig) (pitch lines k : Nat) (l : Local) : Local :=
  match pollRead cfg k l with
  | (.confirmed, l') => hostAt (some (.start pitch lines .sizes)) (resetConfirmed l')
  | (.again, l') => hostAt (some (.start pitch lines (.poll (k + 1)))) l'
  | (.timedOut, l') => resetTimedOut l'

/-- Step 3: the format registers. -/
def startSizes (l : Local) : Out Local :=
  withRing l.chan fun r =>
    andThen (writeBlockSize (BitVec.ofNat 32 r.slotSize) l) fun l₁ =>
    writeTotalSize (BitVec.ofNat 32 (r.nSlots * r.slotSize)) l₁

/-- Step 4: the port clock. -/
def setClock (m : ClockMode) (l : Local) : Local := l.withChan { l.chan with clockMode := m }

/-- The HOST's step of START at a phase. -/
def startPhase (cfg : HwConfig) (pitch lines : Nat) (phase : StartPhase) (l : Local) : Out Local :=
  match phase with
  | .reset => andThen (resetRequest l) fun l' => .next (hostAt (some (.start pitch lines (.poll 1))) l')
  | .poll k => .next (startPoll cfg pitch lines k l)
  | .sizes => andThen (startSizes l) fun l' => .next (hostAt (some (.start pitch lines .clock)) l')
  | .clock => .next (hostAt (some (.start pitch lines .enable)) (setClock .external l))
  | .enable => andThen (writeEnable 1 l) fun l' => .next (hostAt (some (.start pitch lines .irq)) l')
  | .irq =>
    let l' := writeIntEnable 1 l
    .next (finish .ok (hostAt none (l'.withChan { l'.chan with ringState := .streaming })))

/-- START on its channel: step 1, or the next step of a START with the same operands that is in progress. -/
def startStep (cfg : HwConfig) (pitch lines : Nat) (l : Local) : Out Local :=
  match l.chan.host with
  | none => startValidate pitch lines l
  | some (.start p n phase) =>
    if p = pitch ∧ n = lines then startPhase cfg pitch lines phase l else .refused .hostBusy
  | some _ => .refused .hostBusy

/-- START. -/
def execStart (pitch lines : Nat) (s : State) : Out State := onChannel s (startStep s.cfg pitch lines)

/-! ### STOP (R172 to R174) -/

/-- The HOST's step of STOP at a phase. -/
def stopPhase (phase : StopPhase) (l : Local) : Out Local :=
  match phase with
  | .join =>
    if l.chan.drainRunning then .refused .joinWaits
    else .next (hostAt (some (.stop .disable)) (l.withChan { l.chan with pending := 0 }))
  | .disable => andThen (writeEnable 0 l) fun l' => .next (hostAt (some (.stop .clock)) l')
  | .clock =>
    let l' := setClock .internal l
    .next (finish .ok (hostAt none (l'.withChan { l'.chan with ringState := .idle })))

/-- STOP on its channel: outside Streaming no effect (R174); else step 1, or the next step of a STOP in progress. -/
def stopStep (l : Local) : Out Local :=
  match l.chan.host with
  | none =>
    if l.chan.ringState = .streaming then .next (hostAt (some (.stop .join)) (writeIntEnable 0 l))
    else .next (finish .ok l)
  | some (.stop phase) => stopPhase phase l
  | some _ => .refused .hostBusy

/-- STOP. -/
def execStop (s : State) : Out State := onChannel s stopStep

end Sys2Proof.Machine
end

