-- ==== Sys2Proof/Machine/Registers.lean ====
section
/-! DEFINITION. The eighteen register accesses (45_register_access_and_capture.md sections 1 to 5), each a call of the HOST. A
write ends with `Ok`, a read with the word it returns (log 11). -/

namespace Sys2Proof.Machine

/-- A HOST register write that cannot be refused. -/
def plainWrite (s : State) (f : Local → Local) : Out State :=
  onChannel s (hostCall fun l => .next (finish .ok (f l)))

/-- A HOST register write that its rule may refuse. -/
def guardedWrite (s : State) (f : Local → Out Local) : Out State :=
  onChannel s (hostCall fun l => andThen (f l) fun l' => .next (finish .ok l'))

/-- A HOST register read without side effect. -/
def plainRead (s : State) (f : Chan → Word) : Out State :=
  onChannel s (hostCall fun l => .next (finish (.word (f l.chan)) l))

/-- WR_DMA_ENABLE (R220). -/
def execWrDmaEnable (v : Word) (s : State) : Out State := guardedWrite s (writeEnable v)

/-- WR_DMA_BUFFER_MODE (R222). -/
def execWrDmaBufferMode (v : Word) (s : State) : Out State := guardedWrite s (writeBufferMode v)

/-- WR_DMA_PAGE_TABLE_ADDR_LOW (R224). -/
def execWrDmaPageTableAddrLow (i : Fin 8) (v : Word) (s : State) : Out State := guardedWrite s (writeTableLow i v)

/-- WR_DMA_PAGE_TABLE_ADDR_HIGH (R226). -/
def execWrDmaPageTableAddrHigh (i : Fin 8) (v : Word) (s : State) : Out State := guardedWrite s (writeTableHigh i v)

/-- WR_DMA_BLOCK_SIZE (R228). -/
def execWrDmaBlockSize (v : Word) (s : State) : Out State := guardedWrite s (writeBlockSize v)

/-- WR_DMA_TOTAL_SIZE (R230). -/
def execWrDmaTotalSize (v : Word) (s : State) : Out State := guardedWrite s (writeTotalSize v)

/-- WR_INT_ENABLE (R232). -/
def execWrIntEnable (v : Word) (s : State) : Out State := plainWrite s (writeIntEnable v)

/-- WR_INT_STATUS (R234). -/
def execWrIntStatus (v : Word) (s : State) : Out State := plainWrite s (writeIntStatus v)

/-- WR_INT_CLEAR (R236). -/
def execWrIntClear (v : Word) (s : State) : Out State := plainWrite s (writeIntClear v)

/-- RD_DMA_ENABLE (R221). -/
def execRdDmaEnable (s : State) : Out State := plainRead s readEnable

/-- RD_DMA_BUFFER_MODE (R223), the one read with a side effect (20 R78). -/
def execRdDmaBufferMode (s : State) : Out State :=
  onChannel s (hostCall fun l => .next (finish (.word (readBufferMode s.cfg l).1) (readBufferMode s.cfg l).2))

/-- RD_DMA_PAGE_TABLE_ADDR_LOW (R225). -/
def execRdDmaPageTableAddrLow (i : Fin 8) (s : State) : Out State := plainRead s (readTableLow i)

/-- RD_DMA_PAGE_TABLE_ADDR_HIGH (R227). -/
def execRdDmaPageTableAddrHigh (i : Fin 8) (s : State) : Out State := plainRead s (readTableHigh i)

/-- RD_DMA_BLOCK_SIZE (R229). -/
def execRdDmaBlockSize (s : State) : Out State := plainRead s readBlockSize

/-- RD_DMA_TOTAL_SIZE (R231). -/
def execRdDmaTotalSize (s : State) : Out State := plainRead s readTotalSize

/-- RD_INT_ENABLE (R233). -/
def execRdIntEnable (s : State) : Out State := plainRead s readIntEnable

/-- RD_INT_STATUS (R235). -/
def execRdIntStatus (s : State) : Out State := plainRead s readIntStatus

/-- RD_INT_CLEAR (R237). -/
def execRdIntClear (s : State) : Out State := plainRead s readIntClear

end Sys2Proof.Machine
end

