-- ==== Sys2Proof/Machine/Visibility.lean ====
section
/-! DEFINITION. The visibility operations FLUSH and CPU_SYNC (20_memory.md R73, R74), and the environment's unrequested copies
of one byte (R75). -/

namespace Sys2Proof.Machine

/-- FLUSH (R73). -/
def execFlush (addr : Addr) (n : Nat) (s : State) : Out State :=
  onChannel s (hostCall fun l => andThen (flushRange addr.toNat n l) fun l' => .next (finish .ok l'))

/-- CPU_SYNC (R74). -/
def execCpuSync (addr : Addr) (n : Nat) (s : State) : Out State :=
  onChannel s (hostCall fun l => andThen (syncRange addr.toNat n l) fun l' => .next (finish .ok l'))

/-- The unrequested write-back of a dirty byte of an allocated page (R75). -/
def writeBackByte (addr : Addr) (s : State) : Out State :=
  if s.shared.allocated.contains (pageOf addr.toNat) && s.shared.dirty.contains addr.toNat then
    .next (s.withShared (publish s.shared addr.toNat 1))
  else .refused .copyNotAllowed

/-- The unrequested refill of a byte of an allocated page that is not dirty (R75). -/
def refillByte (addr : Addr) (s : State) : Out State :=
  if s.shared.allocated.contains (pageOf addr.toNat) && !s.shared.dirty.contains addr.toNat then
    .next (s.withShared { s.shared with
      memCpu := writeBytes s.shared.memCpu addr.toNat (readBytes s.shared .dev addr.toNat 1) })
  else .refused .copyNotAllowed

end Sys2Proof.Machine
end

