-- ==== Sys2Proof/Machine/Dispatch.lean ====
section
/-! DEFINITION. What each operation does: one arm per row of spec/opcode_table.json, in the table's order. -/

namespace Sys2Proof.Machine

open Host (Outcome)

def exec (i : Instr) (s : State) : Host.Outcome State Fault Refusal :=
  match i with
  | .wrDmaEnable v => Sys2Proof.Machine.execWrDmaEnable v s
  | .wrDmaBufferMode v => Sys2Proof.Machine.execWrDmaBufferMode v s
  | .wrDmaPageTableAddrLow k v => Sys2Proof.Machine.execWrDmaPageTableAddrLow k v s
  | .wrDmaPageTableAddrHigh k v => Sys2Proof.Machine.execWrDmaPageTableAddrHigh k v s
  | .wrDmaBlockSize v => Sys2Proof.Machine.execWrDmaBlockSize v s
  | .wrDmaTotalSize v => Sys2Proof.Machine.execWrDmaTotalSize v s
  | .wrIntEnable v => Sys2Proof.Machine.execWrIntEnable v s
  | .wrIntStatus v => Sys2Proof.Machine.execWrIntStatus v s
  | .wrIntClear v => Sys2Proof.Machine.execWrIntClear v s
  | .rdDmaEnable => Sys2Proof.Machine.execRdDmaEnable s
  | .rdDmaBufferMode => Sys2Proof.Machine.execRdDmaBufferMode s
  | .rdDmaPageTableAddrLow k => Sys2Proof.Machine.execRdDmaPageTableAddrLow k s
  | .rdDmaPageTableAddrHigh k => Sys2Proof.Machine.execRdDmaPageTableAddrHigh k s
  | .rdDmaBlockSize => Sys2Proof.Machine.execRdDmaBlockSize s
  | .rdDmaTotalSize => Sys2Proof.Machine.execRdDmaTotalSize s
  | .rdIntEnable => Sys2Proof.Machine.execRdIntEnable s
  | .rdIntStatus => Sys2Proof.Machine.execRdIntStatus s
  | .rdIntClear => Sys2Proof.Machine.execRdIntClear s
  | .flush addr n => Sys2Proof.Machine.execFlush addr n s
  | .cpuSync addr n => Sys2Proof.Machine.execCpuSync addr n s
  | .build pages table => Sys2Proof.Machine.execBuild pages table s
  | .installTables => Sys2Proof.Machine.execInstallTables s
  | .init nSlots slotSize => Sys2Proof.Machine.execInit nSlots slotSize s
  | .teardown => Sys2Proof.Machine.execTeardown s
  | .reset => Sys2Proof.Machine.execReset s
  | .currentWriteIndex => Sys2Proof.Machine.execCurrentWriteIndex s
  | .readSlot k => Sys2Proof.Machine.execReadSlot k s
  | .start pitch lines => Sys2Proof.Machine.execStart pitch lines s
  | .stop => Sys2Proof.Machine.execStop s
  | .scan slot known => Sys2Proof.Machine.execScan slot known s
  | .align slot off stage => Sys2Proof.Machine.execAlign slot off stage s
  | .sinkWrite bytes => Sys2Proof.Machine.execSinkWrite bytes s
  | .capByte => Sys2Proof.Machine.execCapByte s
  | .capLand => Sys2Proof.Machine.execCapLand s
  | .rstDone => Sys2Proof.Machine.execRstDone s
  | .irq => Sys2Proof.Machine.execIrq s
  | .drainBegin => Sys2Proof.Machine.execDrainBegin s
  | .drainSlot => Sys2Proof.Machine.execDrainSlot s
  | .drainEnd => Sys2Proof.Machine.execDrainEnd s

end Sys2Proof.Machine
end

