-- ==== Sys2Proof/Machine/Turns.lean ====
section
/-! DEFINITION. What one turn of the schedule does (10_state.md R45d; log 1): an operation of the table, the next step of a HOST
inside a composite operation, a raw bus access, a raw CPU access, an unrequested copy. -/

namespace Sys2Proof.Machine

open Host (Outcome)

/-- The turn that is next, and the state without it. Where the schedule has ended the environment's choice is a free value
(U7; log 1). -/
def nextTurn (s : State) : Turn × State :=
  match s.schedule with
  | t :: rest => (t, s.withSchedule rest)
  | [] => (Config.turn s.shared.draws, s.withShared { s.shared with draws := s.shared.draws + 1 })

/-- An operation in its byte form; bytes that are none are refused (30_encoding.md R114g). Bytes after the operation are not
read (log 2). -/
def takeOp (bytes : List Byte) (s : State) : Out State :=
  match decode bytes with
  | .ok (i, _) => exec i s
  | .error e => .refused (.illegalEncoding e)

/-- The operation whose next step a HOST takes. -/
def workInstr : HostWork → Instr
  | .reset _ => .reset
  | .start pitch lines _ => .start pitch lines
  | .stop _ => .stop

/-- The HOST of channel `s.cur` takes its next step inside RESET, START or STOP (log 10). -/
def resumeHost (s : State) : Out State :=
  match s.chans[s.cur]? with
  | none => .refused .noSuchChannel
  | some c =>
    match c.host with
    | none => .refused .nothingToResume
    | some w => exec (workInstr w) s

/-- An access at an offset `REGMAP` does not name: a write is ignored, a read returns 0 (45 R243). -/
def unmappedAccess (write : Bool) (s : State) : Out State :=
  onChannel s (hostCall fun l => .next (finish (if write then .ok else .word 0) l))

/-- A raw bus access (30_encoding.md R101, 45 R243): the address names the channel and the offset of its block, its quotient and its
remainder by CH_STRIDE (DESIGN CHOICE for maps with an offset at or above CH_STRIDE, log 15). -/
def busAccess (write : Bool) (address width : Nat) (data : Word) (s : State) : Out State :=
  let offset := address % s.cfg.regMap.stride
  let s' := s.select (address / s.cfg.regMap.stride)
  if width ≠ 32 ∨ offset % 4 ≠ 0 then .refused .badAccess
  else
    match s.cfg.regMap.regAt offset with
    | some r => exec (if write then r.writeOp data else r.readOp) s'
    | none => unmappedAccess write s'

/-- A raw CPU write (20_memory.md R72). A table page is frozen while its unit runs (R87, X14). A write of no byte changes nothing
and ends with `Ok`, at any address (log 23). -/
def cpuWrite (addr : Addr) (bytes : List Byte) (s : State) : Out State :=
  if 2 ^ 64 < addr.toNat + bytes.length then .fault .outsideAddressSpace
  else if touchesFrozenTable s.chans addr.toNat bytes.length then .refused .tableFrozen
  else onChannel s (hostCall fun l => .next (finish .ok (l.withShared (writeCpu l.shared addr.toNat bytes))))

/-- A raw CPU read (20_memory.md R72): reads change nothing but the call's result. -/
def cpuRead (addr : Addr) (n : Nat) (s : State) : Out State :=
  if 2 ^ 64 < addr.toNat + n then .fault .outsideAddressSpace
  else onChannel s (hostCall fun l => .next (finish (.bytes (readBytes l.shared .cpu addr.toNat n)) l))

/-- One turn. -/
def takeTurn (t : Turn) (s : State) : Out State :=
  match t with
  | .op c bytes => takeOp bytes (s.select c)
  | .resume c => resumeHost (s.select c)
  | .bus write address width data => busAccess write address width data s
  | .cpuWrite c addr bytes => cpuWrite addr bytes (s.select c)
  | .cpuRead c addr n => cpuRead addr n (s.select c)
  | .writeBack addr => writeBackByte addr s
  | .refill addr => refillByte addr s

end Sys2Proof.Machine
end

