-- ==== Sys2Proof/Machine/Step.lean ====
section
/-! DEFINITION. One step of the machine, and the state whose next step runs a given operation (log 1). -/

namespace Sys2Proof.Machine

/-- One step: the next turn of the schedule. -/
def step (s : State) : Host.Outcome State Fault Refusal := takeTurn (nextTurn s).1 (nextTurn s).2

/-- The same state with an operation, in its byte form, as the first turn of the schedule, on channel 0. Nothing else changes:
the engine fetches no program of its own (10_state.md R37). -/
def State.withFetchWord (s : State) (nbits w : Nat) : State :=
  s.withSchedule (.op 0 (tableWordBytes nbits w) :: s.schedule)

end Sys2Proof.Machine
end

