-- ==== Sys2Proof/Safety.lean ====
section
/-! DEFINITION. What the claims speak of: the channel an operation runs on, the invariants of the state (10_state.md R46), the
turns of a host that uses no raw access (70 R316), and safe steps. -/

namespace Sys2Proof.Machine

/-! ### The channel of an operation -/

/-- The operation in progress runs on a channel in state `c`. -/
abbrev State.At (s : State) (c : Chan) : Prop := s.chans[s.cur]? = some c

/-- The machine with the channel of the operation in progress in another state, and nothing else changed. -/
def State.putChan (s : State) (c : Chan) : State := s.put ⟨c, s.shared⟩

/-- The shared state after the bytes of a queue have landed, oldest first, each in the device view at its own address. -/
def landed (queue : List InFlight) (sh : Shared) : Shared :=
  queue.foldl (fun acc e => writeDev acc e.addr.toNat [e.byte]) sh

/-- The shared state after the pages of a list have been published, in order. -/
def published (pages : List Addr) (sh : Shared) : Shared :=
  pages.foldl (fun acc p => publish acc p.toNat Config.pageSize) sh

/-- The shared state after the pages of a list have been synced for the CPU, in order. -/
def synced (pages : List Addr) (sh : Shared) : Shared :=
  pages.foldl (fun acc p => syncCpu acc p.toNat Config.pageSize) sh

/-- Two shared states agree in everything but the two views of memory and `dirty`. -/
def Shared.SameBooks (sh sh' : Shared) : Prop :=
  sh'.allocated = sh.allocated ∧ sh'.pageAge = sh.pageAge ∧ sh'.allocIn = sh.allocIn ∧ sh'.draws = sh.draws

/-- Byte `k` of a table for `pages` (30_encoding.md R108, R109; 40 R131): entry `k / 8` is the page of that number, or the last
page, and its bytes stand the least significant first. -/
def tableByte (pages : List Addr) (k : Nat) : Byte :=
  BitVec.ofNat 8 ((pages.getD (min (k / 8) (pages.length - 1)) 0).toNat / 256 ^ (k % 8))

/-- Operations performed one after the other on the selected channel. -/
def runOps : List Instr → State → Out State
  | [], s => .next s
  | i :: rest, s => andThen (exec i s) (runOps rest)

/-! ### Shared state in form -/

/-- Both views in canonical form, `dirty` and `allocated` strictly rising inside the address space, `allocated` made of page
addresses (10_state.md R42, 20_memory.md R70). -/
structure Shared.Form (sh : Shared) : Prop where
  cpu : Memory.wf sh.memCpu
  dev : Memory.wf sh.memDev
  dirtyRising : sh.dirty.Pairwise (· < ·)
  dirtyInside : ∀ a ∈ sh.dirty, a < 2 ^ 64
  allocatedRising : sh.allocated.Pairwise (· < ·)
  allocatedPages : ∀ p ∈ sh.allocated, p % Config.pageSize = 0 ∧ p < 2 ^ 64

/-! ### Rings -/

/-- The ranges and lengths of a RingBuffer record (10_state.md R38). -/
structure Ring.Shape (r : Ring) : Prop where
  slots : 1 ≤ r.nSlots ∧ r.nSlots ≤ Config.maxSlots
  size : 1 ≤ r.slotSize ∧ r.slotSize ≤ Config.tableCapacity
  perSlot : r.pagesPerSlot = pagesFor r.slotSize
  pagesCount : r.pages.length = r.nSlots
  pagesEach : ∀ ps ∈ r.pages, ps.length = r.pagesPerSlot
  tableCount : r.table.length = r.nSlots
  aligned : ∀ p ∈ ringPages r, pageAligned p = true

/-- The pages of a channel's ring, none where there is no ring. -/
def chanPages (c : Chan) : List Nat :=
  match c.ring with
  | none => []
  | some r => (ringPages r).map BitVec.toNat

/-- The pages all rings own. -/
def State.owned (s : State) : List Nat := s.chans.flatMap chanPages

/-- `allocated` is exactly what the rings own, and no page belongs to two rings or stands twice in one (10_state.md R42, 41
R147). -/
def State.Ownership (s : State) : Prop := s.owned.Nodup ∧ ∀ p, p ∈ s.shared.allocated ↔ p ∈ s.owned

/-! ### Channels -/

/-- The bounds of the working registers and the record's presence (10_state.md R31 to R38, R46). -/
structure Chan.Bounds (c : Chan) : Prop where
  ringPresent : c.ring.isSome = true ↔ c.ringState ≠ .absent
  pendingCap : c.pending ≤ Config.pendingCap
  stageShort : c.stage.length ≤ offsetMax
  offsetShort : ∀ k, c.resyncOffset = some k → k ≤ offsetMax
  quietDrain : c.drainRunning = false → c.drainLeft = 0
  quietAbsent : c.ringState = .absent → c.pending = 0 ∧ c.drainRunning = false
  hostHasRing : c.host ≠ none → c.ringState ≠ .absent
  ringFits : ∀ r, c.ring = some r → r.Shape ∧ c.readIndex < r.nSlots ∧ c.drainLeft < r.nSlots

/-- The capture unit's position (10_state.md R37b, R40; 45 R220, R222, R240, R242): a running unit has legal sizes and a position
inside them, a stopped unit has an empty pipeline and, unless it needs a reset, stands at the start of slot 0. -/
structure Chan.Position (c : Chan) : Prop where
  runningNeedsNoReset : c.en = true → c.needsReset = false
  runningNoReset : c.en = true → c.rst = false
  runningSize : c.en = true → c.blockSize.toNat ≤ Config.tableCapacity
  runningTotal : c.en = true → c.totalSize.toNat = modeSlots c * c.blockSize.toNat
  runningFill : c.en = true → c.fillPos < c.blockSize.toNat
  runningIndex : c.en = true → c.writeIndex.toNat < modeSlots c
  stoppedEmpty : c.en = false → c.inflight = []
  stoppedFresh : c.en = false → c.needsReset = false → c.fillPos = 0 ∧ c.writeIndex = 0

/-- The invariant every step keeps. -/
structure State.Inv (s : State) : Prop where
  form : s.shared.Form
  bounds : ∀ c ∈ s.chans, c.Bounds
  position : ∀ c ∈ s.chans, c.Position
  ownership : s.Ownership

/-- Every byte in flight belongs to a slot at most `MARGIN` behind the write index (20_memory.md R83). -/
def Chan.NearQueue (margin : Margin) (c : Chan) : Prop :=
  ∀ e ∈ c.inflight, distance c.writeIndex.toNat e.slot.toNat (modeSlots c) ≤ margin.slots

/-- What the table registers, the tables in memory and the queue of a channel with a ring hold, where no raw access has touched
them (10_state.md R38, R43; 20_memory.md R87, R88; 70 R316): the registers name the ring's tables, both views of every table page
hold the table of the slot's pages, the slot count is the ring's, the block size is the slot size from the size step of START
on, and every byte in flight is on its way to a page of a slot of the ring. -/
structure Chan.Installed (sh : Shared) (c : Chan) : Prop where
  tables : ∀ r, c.ring = some r → ∀ (i : Fin 8) (ps : List Addr) (t : Addr),
    r.pages[i.val]? = some ps → r.table[i.val]? = some t →
      tableBase c i = t ∧ ∀ v k, k < Config.pageSize → byteAt sh v (t.toNat + k) = tableByte ps k
  slotCount : ∀ r, c.ring = some r → modeSlots c = r.nSlots
  size : ∀ r, c.ring = some r →
    (c.en = true ∨ ∃ p n, c.host = some (.start p n .clock) ∨ c.host = some (.start p n .enable) ∨
      c.host = some (.start p n .irq)) → c.blockSize.toNat = r.slotSize
  queue : ∀ e ∈ c.inflight, ∃ r, c.ring = some r ∧ ∃ p ∈ r.pages.flatten, pageOf e.addr.toNat = p.toNat

/-! ### Hosts without raw accesses -/

/-- An operation that is no raw register write and no BUILD of the caller's own (70 R316: "raw register accesses or raw memory
writes"). BUILD and INSTALL_TABLES inside INIT and RESET are those operations' own. -/
def compositeOp : Instr → Bool
  | .wrDmaEnable _ => false
  | .wrDmaBufferMode _ => false
  | .wrDmaPageTableAddrLow _ _ => false
  | .wrDmaPageTableAddrHigh _ _ => false
  | .wrDmaBlockSize _ => false
  | .wrDmaTotalSize _ => false
  | .wrIntEnable _ => false
  | .wrIntStatus _ => false
  | .wrIntClear _ => false
  | .rdDmaEnable => true
  | .rdDmaBufferMode => true
  | .rdDmaPageTableAddrLow _ => true
  | .rdDmaPageTableAddrHigh _ => true
  | .rdDmaBlockSize => true
  | .rdDmaTotalSize => true
  | .rdIntEnable => true
  | .rdIntStatus => true
  | .rdIntClear => true
  | .flush _ _ => true
  | .cpuSync _ _ => true
  | .build _ _ => false
  | .installTables => true
  | .init _ _ => true
  | .teardown => true
  | .reset => true
  | .currentWriteIndex => true
  | .readSlot _ => true
  | .start _ _ => true
  | .stop => true
  | .scan _ _ => true
  | .align _ _ _ => true
  | .sinkWrite _ => true
  | .capByte => true
  | .capLand => true
  | .rstDone => true
  | .irq => true
  | .drainBegin => true
  | .drainSlot => true
  | .drainEnd => true

/-- A turn that is no raw write: an operation of `compositeOp`, or a step, read or copy that writes no register and no table. -/
def compositeTurn : Turn → Bool
  | .op _ bytes =>
    match decode bytes with
    | .ok (i, _) => compositeOp i
    | .error _ => true
  | .resume _ => true
  | .bus write _ _ _ => !write
  | .cpuWrite _ _ _ => false
  | .cpuRead _ _ _ => true
  | .writeBack _ => true
  | .refill _ => true

/-- An operation that is a call of the HOST (00_scope.md R10): every register access, the visibility operations and the composite
operations. SCAN, ALIGN and SINK_WRITE are functions (log 12), the rest are steps of the other agents. -/
def hostOp : Instr → Bool
  | .wrDmaEnable _ => true
  | .wrDmaBufferMode _ => true
  | .wrDmaPageTableAddrLow _ _ => true
  | .wrDmaPageTableAddrHigh _ _ => true
  | .wrDmaBlockSize _ => true
  | .wrDmaTotalSize _ => true
  | .wrIntEnable _ => true
  | .wrIntStatus _ => true
  | .wrIntClear _ => true
  | .rdDmaEnable => true
  | .rdDmaBufferMode => true
  | .rdDmaPageTableAddrLow _ => true
  | .rdDmaPageTableAddrHigh _ => true
  | .rdDmaBlockSize => true
  | .rdDmaTotalSize => true
  | .rdIntEnable => true
  | .rdIntStatus => true
  | .rdIntClear => true
  | .flush _ _ => true
  | .cpuSync _ _ => true
  | .build _ _ => true
  | .installTables => true
  | .init _ _ => true
  | .teardown => true
  | .reset => true
  | .currentWriteIndex => true
  | .readSlot _ => true
  | .start _ _ => true
  | .stop => true
  | .scan _ _ => false
  | .align _ _ _ => false
  | .sinkWrite _ => false
  | .capByte => false
  | .capLand => false
  | .rstDone => false
  | .irq => false
  | .drainBegin => false
  | .drainSlot => false
  | .drainEnd => false

/-- An operation one of whose steps reads `DMA_BUFFER_MODE` (45 R223): the read itself, CURRENT_WRITE_INDEX and DRAIN_BEGIN, which
calls it (41 R145, 44 R202), and the polls of RESET and START (41 R144). -/
def readsBufferMode : Instr → Bool
  | .wrDmaEnable _ => false
  | .wrDmaBufferMode _ => false
  | .wrDmaPageTableAddrLow _ _ => false
  | .wrDmaPageTableAddrHigh _ _ => false
  | .wrDmaBlockSize _ => false
  | .wrDmaTotalSize _ => false
  | .wrIntEnable _ => false
  | .wrIntStatus _ => false
  | .wrIntClear _ => false
  | .rdDmaEnable => false
  | .rdDmaBufferMode => true
  | .rdDmaPageTableAddrLow _ => false
  | .rdDmaPageTableAddrHigh _ => false
  | .rdDmaBlockSize => false
  | .rdDmaTotalSize => false
  | .rdIntEnable => false
  | .rdIntStatus => false
  | .rdIntClear => false
  | .flush _ _ => false
  | .cpuSync _ _ => false
  | .build _ _ => false
  | .installTables => false
  | .init _ _ => false
  | .teardown => false
  | .reset => true
  | .currentWriteIndex => true
  | .readSlot _ => false
  | .start _ _ => true
  | .stop => false
  | .scan _ _ => false
  | .align _ _ _ => false
  | .sinkWrite _ => false
  | .capByte => false
  | .capLand => false
  | .rstDone => false
  | .irq => false
  | .drainBegin => true
  | .drainSlot => false
  | .drainEnd => false

/-- The channel and the operation of the table that a turn runs: the operation its bytes decode to, the one its HOST is inside, or
the register access its bus address names. -/
def turnCall (s : State) : Turn → Option (Nat × Instr)
  | .op c bytes =>
    match decode bytes with
    | .ok (i, _) => some (c, i)
    | .error _ => none
  | .resume c => (s.chans[c]?).bind fun ch => ch.host.map fun w => (c, workInstr w)
  | .bus write address _ data =>
    (s.cfg.regMap.regAt (address % s.cfg.regMap.stride)).map fun r =>
      (address / s.cfg.regMap.stride, if write then r.writeOp data else r.readOp)
  | .cpuWrite _ _ _ => none
  | .cpuRead _ _ _ => none
  | .writeBack _ => none
  | .refill _ => none

/-- The next turn breaks no pairing (45 R223): on an affected revision it reads `DMA_BUFFER_MODE` of a running unit only where the
read before it has been followed by a write. -/
def State.ReadPaired (s : State) : Prop :=
  s.cfg.erratumRewrite = true → ∀ k i c, turnCall s (nextTurn s).1 = some (k, i) → readsBufferMode i = true →
    s.chans[k]? = some c → c.en = true → c.trackDirty = false

/-- What the composite operations keep of a channel's enable bit (10_state.md R46, last paragraph; 42 R175): the unit runs only in
Streaming, or in Armed inside START between its steps 5 and 6, and then on the external clock; and the HOST stands inside an
operation only in the ring states that operation's steps leave. -/
structure Chan.Disciplined (c : Chan) : Prop where
  running : c.en = true →
    c.clockMode = .external ∧
      (c.ringState = .streaming ∨ c.ringState = .armed ∧ ∃ p n, c.host = some (.start p n .irq))
  resetPlace : ∀ k, c.host = some (.reset k) → c.ringState = .idle ∨ c.ringState = .armed
  startPlace : ∀ p n ph, c.host = some (.start p n ph) →
    match ph with
    | .reset => c.ringState = .idle ∨ c.ringState = .armed
    | .poll _ => c.ringState = .idle ∨ c.ringState = .armed
    | .sizes => c.ringState = .armed
    | .clock => c.ringState = .armed
    | .enable => c.ringState = .armed ∧ c.clockMode = .external
    | .irq => c.ringState = .armed ∧ c.clockMode = .external
  stopPlace : ∀ ph, c.host = some (.stop ph) →
    c.ringState = .streaming ∧ (ph = .clock → c.en = false)

/-! ### Safe steps -/

/-- The step does not write memory that no ring owns (F1). -/
def State.StepSafe (s : State) : Prop := step s ≠ .fault .dmaToFreedPage

end Sys2Proof.Machine
end

