-- ==== Sys2Proof/Certificates/Slice0/Obligations.lean ====
section
/-! DEFINITION. The statements about the engine, each from the numbered rules of spec/ or from the model's own log. How a call
ends stands in `result` and where a HOST stands inside RESET, START or STOP in `host`: both fields are the model's (log 10,
log 11). Where a statement does not rest on what `result` holds it leaves it open (`∃ res`). -/

open Sys2Proof Sys2Proof.Machine

/-! ### Encoding -/

/-- Decoding the byte form of a well-formed operation gives it back, with every operand at every value its form admits, and
leaves the bytes after it. The byte layout is the model's (log 2). -/
def Obligations.DecodeEncodeAgree : Prop :=
  ∀ (i : Instr) (rest : List Byte), wellFormed i = true → decode (encode i ++ rest) = .ok (i, rest)

/-- Table words of every class of tag of 30 R112 (register write, register read, visibility, composite, pure function, environment
call, hardware event, interrupt context, deferred context), some with operand bytes in the model's layout (log 2), decode to the
operation they stand for; a word whose tag is no operation's decodes to none. -/
def Obligations.TableWordsDecode : Prop :=
  decodeTableWord 8 0x00 = some (.wrDmaEnable 0) ∧ decodeTableWord 8 0x11 = some .rdDmaBufferMode ∧
  decodeTableWord 8 0x44 = some .reset ∧ decodeTableWord 8 0x48 = some .stop ∧ decodeTableWord 8 0x80 = some .capByte ∧
  decodeTableWord 8 0x83 = some .irq ∧ decodeTableWord 8 0x86 = some .drainEnd ∧
  decodeTableWord 40 0x0000004701 = some (.wrDmaBufferMode 0x47) ∧
  decodeTableWord 48 0x000200000102 = some (.wrDmaPageTableAddrLow 1 0x00020000) ∧
  decodeTableWord 80 0x01000000000001000020 = some (.flush 0x10000 1) ∧
  decodeTableWord 88 0x2080000000000001000021 = some (.cpuSync 0x10000 4096) ∧
  decodeTableWord 24 0x020842 = some (.init 8 2) ∧ decodeTableWord 24 0xFF0049 = some (.scan [] none) ∧
  decodeTableWord 24 0x47014B = some (.sinkWrite [0x47]) ∧ decodeTableWord 8 0x7F = none

/-- A turn whose first byte is no operation's tag has no step. -/
def Obligations.UnknownTagsRefused : Prop :=
  ∀ (s : State) (c : Nat) (t : Byte) (rest : List Byte) (ts : List Turn),
    s.schedule = .op c (t :: rest) :: ts → (∀ i : Instr, tagOf i ≠ t.toNat) →
      step s = .refused (.illegalEncoding .unknownTag)

/-! ### The step -/

/-- A step runs the operation that the first turn's bytes decode to, on the turn's channel, with the turn taken off the schedule;
a `resume` turn runs the operation the HOST is inside (the schedule is the model's form of R45d, log 1). -/
def Obligations.StepRunsDecodedInstruction : Prop :=
  (∀ (s : State) (c : Nat) (bytes rest : List Byte) (ts : List Turn) (i : Instr),
    s.schedule = .op c bytes :: ts → decode bytes = .ok (i, rest) →
      step s = exec i ((s.withSchedule ts).select c)) ∧
  (∀ (s : State) (c : Nat) (ts : List Turn) (ch : Chan) (w : HostWork),
    s.schedule = .resume c :: ts → s.chans[c]? = some ch → ch.host = some w →
      step s = exec (workInstr w) ((s.withSchedule ts).select c))

/-- The default register map: a 32-bit access at each offset the map names runs that register's operation, blocks 0x100 apart, and
every other multiple of 4 below 0x100 is unmapped. Addresses count from `REG_BASE`. -/
def Obligations.DefaultRegisterMap : Prop :=
  (∀ (s : State) (ts : List Turn) (c off : Nat) (write : Bool) (v : Word) (r : Reg),
    s.cfg.regMap = RegMap.default →
    ((off = 0x00 ∧ r = .dmaEnable) ∨ (off = 0x04 ∧ r = .dmaBufferMode) ∨ (off = 0x08 ∧ r = .blockSize) ∨
      (off = 0x0C ∧ r = .totalSize) ∨ (off = 0x10 ∧ r = .intEnable) ∨ (off = 0x14 ∧ r = .intStatus) ∨
      (off = 0x18 ∧ r = .intClear) ∨ (∃ i : Fin 8, off = 0x40 + 8 * i.val ∧ r = .tableLow i) ∨
      (∃ i : Fin 8, off = 0x44 + 8 * i.val ∧ r = .tableHigh i)) →
    s.schedule = .bus write (c * 0x100 + off) 32 v :: ts →
      step s = exec (if write then r.writeOp v else r.readOp) ((s.withSchedule ts).select c)) ∧
  (∀ off, off < 0x100 → off % 4 = 0 → ¬(off ≤ 0x18 ∨ 0x40 ≤ off ∧ off < 0x80) → RegMap.default.regAt off = none)

/-- 45 R243: a 32-bit access at a multiple of 4 that the map does not name changes nothing and reads 0; any other width or
alignment has no step. The channel is the quotient of the address by CH_STRIDE and the offset its remainder, for every map: that is
the model's choice (log 15), which R101 determines only where every offset lies below a positive CH_STRIDE. -/
def Obligations.UnmappedRegisterAccess : Prop :=
  ∀ (s : State) (write : Bool) (address width : Nat) (v : Word) (ts : List Turn),
    s.schedule = .bus write address width v :: ts →
    (width ≠ 32 ∨ address % s.cfg.regMap.stride % 4 ≠ 0 → step s = .refused .badAccess) ∧
    (∀ c : Chan, width = 32 → address % s.cfg.regMap.stride % 4 = 0 →
      s.cfg.regMap.regAt (address % s.cfg.regMap.stride) = none →
      s.chans[address / s.cfg.regMap.stride]? = some c → c.host = none →
        step s = .next (((s.withSchedule ts).select (address / s.cfg.regMap.stride)).putChan
          { c with result := if write then .ok else .word 0 }))

/-! ### Power-on -/

/-- Power-on: every register field 0, no ring, clock `Internal`, working registers at their `init` values, hidden state and
traces empty, no page allocated, nothing dirty, and every byte of memory unspecified in both views (a free value). -/
def Obligations.PowerOnState : Prop :=
  (∀ c ∈ State.reset.chans,
    c.en = false ∧ c.slotCountM1 = 0 ∧ c.writeIndex = 0 ∧ c.rst = false ∧
    (∀ i : Fin 8, c.tableLow.get i = 0 ∧ c.tableHigh.get i = 0) ∧ c.blockSize = 0 ∧ c.totalSize = 0 ∧
    c.intEnable = false ∧ c.intStatus = false ∧
    c.readIndex = 0 ∧ c.resyncOffset = none ∧ c.stage = [] ∧ c.pending = 0 ∧ c.drainRunning = false ∧ c.drainLeft = 0 ∧
    c.ringState = .absent ∧ c.ring = none ∧ c.clockMode = .internal ∧
    c.fillPos = 0 ∧ c.inflight = [] ∧ c.trackDirty = false ∧ c.needsReset = false ∧
    c.sinkOut = [] ∧ c.sinkRejected = 0 ∧ c.log = []) ∧
  State.reset.shared.allocated = [] ∧ State.reset.shared.dirty = [] ∧
  (∀ (v : View) (a : Nat), byteAt State.reset.shared v a = Config.freshByte 0 v a)

/-- The invariants hold at power-on: of the state, of hosts without raw accesses, of what the tables hold, of the queue. -/
def Obligations.PowerOnInvariant : Prop :=
  State.reset.Inv ∧ ∀ c ∈ State.reset.chans,
    c.Disciplined ∧ c.Installed State.reset.shared ∧ c.NearQueue State.reset.cfg.margin

/-! ### Register writes -/

/-- 45 R220: an unchanged bit has no effect; an enable is refused in the four cases of the rule and else sets `EN`; a disable lands
the whole queue first, or faults where a queued byte's page belongs to no ring. -/
def Obligations.WrDmaEnableEffect : Prop :=
  (∀ v, tagOf (.wrDmaEnable v) = 0x00) ∧ RegMap.default.regAt 0x00 = some .dmaEnable ∧
  ∀ (s : State) (c : Chan) (v : Word), s.At c → c.host = none →
    (v.getLsbD 0 = c.en → ∃ res, exec (.wrDmaEnable v) s = .next (s.putChan { c with result := res })) ∧
    (v.getLsbD 0 = true → c.en = false →
      ((c.needsReset = true ∨ c.rst = true ∨ c.blockSize.toNat = 0 ∨ 2097152 < c.blockSize.toNat ∨
          c.totalSize.toNat ≠ (c.slotCountM1.toNat + 1) * c.blockSize.toNat) →
        ∃ r, exec (.wrDmaEnable v) s = .refused r) ∧
      (c.needsReset = false → c.rst = false → c.blockSize.toNat ≠ 0 → c.blockSize.toNat ≤ 2097152 →
          c.totalSize.toNat = (c.slotCountM1.toNat + 1) * c.blockSize.toNat →
        ∃ res, exec (.wrDmaEnable v) s = .next (s.putChan { c with en := true, result := res }))) ∧
    (v.getLsbD 0 = false → c.en = true →
      ((∀ e ∈ c.inflight, pageOf e.addr.toNat ∈ s.shared.allocated) →
        ∃ res, exec (.wrDmaEnable v) s =
          .next (s.put ⟨{ c with inflight := [], en := false, needsReset := true, result := res },
            landed c.inflight s.shared⟩)) ∧
      ((∃ e ∈ c.inflight, pageOf e.addr.toNat ∉ s.shared.allocated) →
        exec (.wrDmaEnable v) s = .fault .dmaToFreedPage))

/-- What the landing of a queue leaves: each address holds the youngest byte queued for it, every other byte of the device view,
the CPU view and all else stay. -/
def Obligations.LandingsInOrder : Prop :=
  ∀ (q : List InFlight) (sh : Shared),
    (landed q sh).memCpu = sh.memCpu ∧ (landed q sh).dirty = sh.dirty ∧ sh.SameBooks (landed q sh) ∧
    ∀ a, byteAt (landed q sh) .dev a =
      match q.reverse.find? (fun e => e.addr.toNat == a) with
      | some e => e.byte
      | none => byteAt sh .dev a

/-- 45 R222: the slot count and `RST` are written and the erratum's mark is cleared, unless the unit runs and `RST` would be set or
the count changed. `WRITE_INDEX` stays. -/
def Obligations.WrDmaBufferModeEffect : Prop :=
  (∀ v, tagOf (.wrDmaBufferMode v) = 0x01) ∧ RegMap.default.regAt 0x04 = some .dmaBufferMode ∧
  ∀ (s : State) (c : Chan) (v : Word), s.At c → c.host = none →
    ((c.en = true ∧ (v.getLsbD 6 = true ∨ v.extractLsb' 0 3 ≠ c.slotCountM1)) →
      ∃ r, exec (.wrDmaBufferMode v) s = .refused r) ∧
    (¬(c.en = true ∧ (v.getLsbD 6 = true ∨ v.extractLsb' 0 3 ≠ c.slotCountM1)) →
      ∃ res, exec (.wrDmaBufferMode v) s = .next (s.putChan
        { c with slotCountM1 := v.extractLsb' 0 3, rst := v.getLsbD 6, trackDirty := false, result := res }))

/-- 45 R224, R226, R228, R230: the table and size registers are stored while the unit is stopped (bits 11:0 of a low half are
ignored) and have no write while it runs. -/
def Obligations.FrozenRegisterWrites : Prop :=
  (∀ i v, tagOf (.wrDmaPageTableAddrLow i v) = 0x02 ∧ tagOf (.wrDmaPageTableAddrHigh i v) = 0x03 ∧
    tagOf (.wrDmaBlockSize v) = 0x04 ∧ tagOf (.wrDmaTotalSize v) = 0x05) ∧
  (∀ i : Fin 8, RegMap.default.regAt (0x40 + 8 * i.val) = some (.tableLow i) ∧
    RegMap.default.regAt (0x44 + 8 * i.val) = some (.tableHigh i)) ∧
  RegMap.default.regAt 0x08 = some .blockSize ∧ RegMap.default.regAt 0x0C = some .totalSize ∧
  ∀ (s : State) (c : Chan) (i : Fin 8) (v : Word), s.At c → c.host = none →
    (c.en = false →
      (∃ res, exec (.wrDmaPageTableAddrLow i v) s = .next (s.putChan
        { c with tableLow := c.tableLow.set i.val (v.extractLsb' 12 20) i.isLt, result := res })) ∧
      (∃ res, exec (.wrDmaPageTableAddrHigh i v) s = .next (s.putChan
        { c with tableHigh := c.tableHigh.set i.val v i.isLt, result := res })) ∧
      (∃ res, exec (.wrDmaBlockSize v) s = .next (s.putChan { c with blockSize := v, result := res })) ∧
      (∃ res, exec (.wrDmaTotalSize v) s = .next (s.putChan { c with totalSize := v, result := res }))) ∧
    (c.en = true →
      (∃ r, exec (.wrDmaPageTableAddrLow i v) s = .refused r) ∧
      (∃ r, exec (.wrDmaPageTableAddrHigh i v) s = .refused r) ∧
      (∃ r, exec (.wrDmaBlockSize v) s = .refused r) ∧
      (∃ r, exec (.wrDmaTotalSize v) s = .refused r))

/-- 45 R232, R234, R236: `INT_ENABLE` takes bit 0 and with it the line, a write of `INT_STATUS` is ignored, `INT_CLEAR` clears the status bit exactly
where bit 0 is 1. -/
def Obligations.InterruptRegisterWrites : Prop :=
  (∀ v, tagOf (.wrIntEnable v) = 0x06 ∧ tagOf (.wrIntStatus v) = 0x07 ∧ tagOf (.wrIntClear v) = 0x08) ∧
  RegMap.default.regAt 0x10 = some .intEnable ∧ RegMap.default.regAt 0x14 = some .intStatus ∧
  RegMap.default.regAt 0x18 = some .intClear ∧
  ∀ (s : State) (c : Chan) (v : Word), s.At c → c.host = none →
    (∃ res, exec (.wrIntEnable v) s = .next (s.putChan { c with intEnable := v.getLsbD 0, result := res })) ∧
    irqLine { c with intEnable := v.getLsbD 0 } = (c.intStatus && v.getLsbD 0) ∧
    (∃ res, exec (.wrIntStatus v) s = .next (s.putChan { c with result := res })) ∧
    (∃ res, exec (.wrIntClear v) s =
      .next (s.putChan { c with intStatus := if v.getLsbD 0 then false else c.intStatus, result := res }))

/-! ### Register reads -/

/-- 45 R221, R225, R227, R229, R231, R233, R235, R237: the words the plain reads return (the call's `result`), with no side
effect. -/
def Obligations.PlainRegisterReads : Prop :=
  tagOf .rdDmaEnable = 0x10 ∧ (∀ i, tagOf (.rdDmaPageTableAddrLow i) = 0x12 ∧ tagOf (.rdDmaPageTableAddrHigh i) = 0x13) ∧
  tagOf .rdDmaBlockSize = 0x14 ∧ tagOf .rdDmaTotalSize = 0x15 ∧ tagOf .rdIntEnable = 0x16 ∧ tagOf .rdIntStatus = 0x17 ∧
  tagOf .rdIntClear = 0x18 ∧ [0x00, 0x08, 0x0C, 0x10, 0x14, 0x18].map RegMap.default.regAt =
    [some .dmaEnable, some .blockSize, some .totalSize, some .intEnable, some .intStatus, some .intClear] ∧
  (∀ i : Fin 8, RegMap.default.regAt (0x40 + 8 * i.val) = some (.tableLow i) ∧
    RegMap.default.regAt (0x44 + 8 * i.val) = some (.tableHigh i)) ∧
  ∀ (s : State) (c : Chan) (i : Fin 8), s.At c → c.host = none →
    exec .rdDmaEnable s = .next (s.putChan { c with result := .word (if c.en then 1 else 0) }) ∧
    exec (.rdDmaPageTableAddrLow i) s =
      .next (s.putChan { c with result := .word (c.tableLow.get i ++ (0 : BitVec 12)) }) ∧
    exec (.rdDmaPageTableAddrHigh i) s = .next (s.putChan { c with result := .word (c.tableHigh.get i) }) ∧
    exec .rdDmaBlockSize s = .next (s.putChan { c with result := .word c.blockSize }) ∧
    exec .rdDmaTotalSize s = .next (s.putChan { c with result := .word c.totalSize }) ∧
    exec .rdIntEnable s = .next (s.putChan { c with result := .word (if c.intEnable then 1 else 0) }) ∧
    exec .rdIntStatus s = .next (s.putChan { c with result := .word (if c.intStatus then 1 else 0) }) ∧
    exec .rdIntClear s = .next (s.putChan { c with result := .word 0 })

/-- 45 R223: the word of `DMA_BUFFER_MODE`; without the erratum, or with the unit stopped, no side effect; on an affected revision
while the unit runs, `track_dirty` is set, and where it was set already the write index first becomes some value in
`0 .. SLOT_COUNT_M1`, any of them being possible. That any is possible is said through the model's list of fixed draws: the value
drawn is the head of `spoilIn` where that list is not empty (log 5). -/
def Obligations.BufferModeRead : Prop :=
  tagOf .rdDmaBufferMode = 0x11 ∧ RegMap.default.regAt 0x04 = some .dmaBufferMode ∧
  ∀ (s : State) (c : Chan), s.At c → c.host = none →
    let word := fun (w : SlotIx) =>
      (BitVec.ofBool c.rst).setWidth 32 <<< 6 ||| w.setWidth 32 <<< 3 ||| c.slotCountM1.setWidth 32
    (s.cfg.erratumRewrite = false ∨ c.en = false →
      exec .rdDmaBufferMode s = .next (s.putChan { c with result := .word (word c.writeIndex) })) ∧
    (s.cfg.erratumRewrite = true → c.en = true → c.trackDirty = false →
      exec .rdDmaBufferMode s =
        .next (s.putChan { c with trackDirty := true, result := .word (word c.writeIndex) })) ∧
    (s.cfg.erratumRewrite = true → c.en = true → c.trackDirty = true →
      (∃ (x : SlotIx) (waiting : List Nat) (draws : Nat), x.toNat ≤ c.slotCountM1.toNat ∧
        exec .rdDmaBufferMode s =
          .next (s.put ⟨{ c with writeIndex := x, spoilIn := waiting, result := .word (word x) },
            { s.shared with draws := draws }⟩)) ∧
      (∀ (x : SlotIx) (waiting : List Nat), x.toNat ≤ c.slotCountM1.toNat → c.spoilIn = x.toNat :: waiting →
        exec .rdDmaBufferMode s =
          .next (s.putChan { c with writeIndex := x, spoilIn := waiting, result := .word (word x) })))

/-! ### Host memory -/

/-- 20 R73: FLUSH copies the range from the CPU view to the device view and takes it out of `dirty`; nothing else changes. It is
refused for an empty range or where a byte's page belongs to no ring. -/
def Obligations.FlushPublishes : Prop :=
  (∀ addr n, tagOf (.flush addr n) = 0x20) ∧
  ∀ (s : State) (c : Chan) (addr : Addr) (n : Nat), s.At c → c.host = none → s.shared.Form →
    ((1 ≤ n ∧ ∀ k, k < n → pageOf (addr.toNat + k) ∈ s.shared.allocated) →
      ∃ res sh, exec (.flush addr n) s = .next (s.put ⟨{ c with result := res }, sh⟩) ∧ s.shared.SameBooks sh ∧
        (∀ a, a ∈ sh.dirty ↔ a ∈ s.shared.dirty ∧ ¬(addr.toNat ≤ a ∧ a < addr.toNat + n)) ∧
        (∀ v a, byteAt sh v a = if v = .dev ∧ addr.toNat ≤ a ∧ a < addr.toNat + n then byteAt s.shared .cpu a
          else byteAt s.shared v a)) ∧
    (¬(1 ≤ n ∧ ∀ k, k < n → pageOf (addr.toNat + k) ∈ s.shared.allocated) → ∃ r, exec (.flush addr n) s = .refused r)

/-- 20 R74: CPU_SYNC copies the range from the device view to the CPU view and takes it out of `dirty`; nothing else changes. It
is refused as FLUSH is. -/
def Obligations.CpuSyncRefreshes : Prop :=
  (∀ addr n, tagOf (.cpuSync addr n) = 0x21) ∧
  ∀ (s : State) (c : Chan) (addr : Addr) (n : Nat), s.At c → c.host = none → s.shared.Form →
    ((1 ≤ n ∧ ∀ k, k < n → pageOf (addr.toNat + k) ∈ s.shared.allocated) →
      ∃ res sh, exec (.cpuSync addr n) s = .next (s.put ⟨{ c with result := res }, sh⟩) ∧ s.shared.SameBooks sh ∧
        (∀ a, a ∈ sh.dirty ↔ a ∈ s.shared.dirty ∧ ¬(addr.toNat ≤ a ∧ a < addr.toNat + n)) ∧
        (∀ v a, byteAt sh v a = if v = .cpu ∧ addr.toNat ≤ a ∧ a < addr.toNat + n then byteAt s.shared .dev a
          else byteAt s.shared v a)) ∧
    (¬(1 ≤ n ∧ ∀ k, k < n → pageOf (addr.toNat + k) ∈ s.shared.allocated) →
      ∃ r, exec (.cpuSync addr n) s = .refused r)

/-- 20 R75: the environment may write back a dirty byte of an allocated page, and refill a byte of one that is not dirty; neither
copy touches anything else, and no other copy has a step. -/
def Obligations.UnrequestedCopies : Prop :=
  ∀ (s : State) (addr : Addr) (ts : List Turn), s.shared.Form →
    (s.schedule = .writeBack addr :: ts →
      (pageOf addr.toNat ∈ s.shared.allocated ∧ addr.toNat ∈ s.shared.dirty →
        ∃ sh, step s = .next ((s.withSchedule ts).withShared sh) ∧ s.shared.SameBooks sh ∧
          (∀ a, a ∈ sh.dirty ↔ a ∈ s.shared.dirty ∧ a ≠ addr.toNat) ∧
          (∀ v a, byteAt sh v a = if v = .dev ∧ a = addr.toNat then byteAt s.shared .cpu a else byteAt s.shared v a)) ∧
      (¬(pageOf addr.toNat ∈ s.shared.allocated ∧ addr.toNat ∈ s.shared.dirty) → ∃ r, step s = .refused r)) ∧
    (s.schedule = .refill addr :: ts →
      (pageOf addr.toNat ∈ s.shared.allocated ∧ addr.toNat ∉ s.shared.dirty →
        ∃ sh, step s = .next ((s.withSchedule ts).withShared sh) ∧ s.shared.SameBooks sh ∧ sh.dirty = s.shared.dirty ∧
          (∀ v a, byteAt sh v a = if v = .cpu ∧ a = addr.toNat then byteAt s.shared .dev a else byteAt s.shared v a)) ∧
      (¬(pageOf addr.toNat ∈ s.shared.allocated ∧ addr.toNat ∉ s.shared.dirty) → ∃ r, step s = .refused r))

/-- A raw CPU write changes the CPU view and `dirty` in its range alone, and has no step on a table page of a running unit; a raw
CPU read changes nothing and returns the CPU view's bytes; past 2^64 both fault (log 16). A write of no byte has its step anywhere
(log 23). -/
def Obligations.RawMemoryAccess : Prop :=
  ∀ (s : State) (k : Nat) (c : Chan) (addr : Addr) (ts : List Turn), s.chans[k]? = some c → c.host = none →
    (∀ bytes : List Byte, s.schedule = .cpuWrite k addr bytes :: ts →
      (2 ^ 64 < addr.toNat + bytes.length → step s = .fault .outsideAddressSpace) ∧
      (addr.toNat + bytes.length ≤ 2 ^ 64 → bytes ≠ [] →
        (∃ x ∈ s.chans, x.en = true ∧ ∃ r, x.ring = some r ∧ ∃ t ∈ r.table,
          t.toNat < addr.toNat + bytes.length ∧ addr.toNat < t.toNat + 4096) → step s = .refused .tableFrozen) ∧
      (addr.toNat + bytes.length ≤ 2 ^ 64 →
        (bytes = [] ∨ ∀ x ∈ s.chans, x.en = true → ∀ r, x.ring = some r → ∀ t ∈ r.table,
          addr.toNat + bytes.length ≤ t.toNat ∨ t.toNat + 4096 ≤ addr.toNat) →
        ∃ res sh, step s = .next (((s.withSchedule ts).select k).put ⟨{ c with result := res }, sh⟩) ∧
          s.shared.SameBooks sh ∧
          (∀ a, a ∈ sh.dirty ↔ a ∈ s.shared.dirty ∨ (addr.toNat ≤ a ∧ a < addr.toNat + bytes.length)) ∧
          (∀ v a, byteAt sh v a = if v = .cpu ∧ addr.toNat ≤ a ∧ a < addr.toNat + bytes.length then
            bytes.getD (a - addr.toNat) 0 else byteAt s.shared v a))) ∧
    (∀ n : Nat, s.schedule = .cpuRead k addr n :: ts →
      (2 ^ 64 < addr.toNat + n → step s = .fault .outsideAddressSpace) ∧
      (addr.toNat + n ≤ 2 ^ 64 → Memory.wf s.shared.memCpu →
        step s = .next (((s.withSchedule ts).select k).putChan
          { c with result := .bytes ((List.range n).map fun j => byteAt s.shared .cpu (addr.toNat + j)) })))

/-! ### Descriptor programming -/

/-- 40 R131 with R130: BUILD writes the 4096 bytes of the table page in the CPU view, entry by entry, unused entries repeating the
last page; it makes them dirty and changes nothing else. -/
def Obligations.BuildWritesTable : Prop :=
  ∀ (s : State) (c : Chan) (pages : List Addr) (table : Addr), s.At c → c.host = none →
    pages ≠ [] → pages.length ≤ 512 →
    (∀ p ∈ pages, p.toNat % 4096 = 0 ∧ p.toNat ∈ s.shared.allocated) →
    table.toNat % 4096 = 0 → table.toNat ∈ s.shared.allocated → table ∉ pages →
    (∀ x ∈ s.chans, x.en = true → ∀ r, x.ring = some r → ∀ t ∈ r.table,
      table.toNat + 4096 ≤ t.toNat ∨ t.toNat + 4096 ≤ table.toNat) →
    ∃ sh, exec (.build pages table) s = .next (s.put ⟨{ c with result := .ok }, sh⟩) ∧ s.shared.SameBooks sh ∧
      (∀ a, a ∈ sh.dirty ↔ a ∈ s.shared.dirty ∨ (table.toNat ≤ a ∧ a < table.toNat + 4096)) ∧
      (∀ v a, byteAt sh v a = if v = .cpu ∧ table.toNat ≤ a ∧ a < table.toNat + 4096 then
        tableByte pages (a - table.toNat) else byteAt s.shared v a)

/-- 40 R132, R133: more than 512 pages end with `TableOverflow` and nothing is written; a missing, misaligned or foreign page, a
foreign or misaligned table page, and a table among the pages are refused. -/
def Obligations.BuildErrors : Prop :=
  ∀ (s : State) (c : Chan) (pages : List Addr) (table : Addr), s.At c → c.host = none →
    ((pages ≠ [] ∧ (∀ p ∈ pages, p.toNat % 4096 = 0 ∧ p.toNat ∈ s.shared.allocated) ∧
        table.toNat % 4096 = 0 ∧ table.toNat ∈ s.shared.allocated ∧ table ∉ pages) →
      512 < pages.length → exec (.build pages table) s = .next (s.putChan { c with result := .error .tableOverflow })) ∧
    (¬(pages ≠ [] ∧ (∀ p ∈ pages, p.toNat % 4096 = 0 ∧ p.toNat ∈ s.shared.allocated) ∧
        table.toNat % 4096 = 0 ∧ table.toNat ∈ s.shared.allocated ∧ table ∉ pages) →
      ∃ r, exec (.build pages table) s = .refused r)

/-- 40 R135: INSTALL_TABLES publishes each table page of the ring and writes its address to the slot's register pair; registers of
slots at or above N, and all else, stay. It is refused where there is no ring and where the unit runs. -/
def Obligations.InstallTablesEffect : Prop :=
  ∀ (s : State) (c : Chan), s.At c → c.host = none →
    (∀ r : Ring, c.ring = some r → c.ringState ≠ .absent → r.Shape → (∀ t ∈ r.table, t.toNat ∈ s.shared.allocated) →
      s.shared.Form →
      (c.en = false →
        ∃ res low high sh,
          exec .installTables s =
            .next (s.put ⟨{ c with tableLow := low, tableHigh := high, result := res }, sh⟩) ∧
          (∀ (i : Fin 8) (t : Addr), r.table[i.val]? = some t →
            low.get i = t.extractLsb' 12 20 ∧ high.get i = t.extractLsb' 32 32) ∧
          (∀ i : Fin 8, r.nSlots ≤ i.val → low.get i = c.tableLow.get i ∧ high.get i = c.tableHigh.get i) ∧
          s.shared.SameBooks sh ∧
          (∀ a, a ∈ sh.dirty ↔ a ∈ s.shared.dirty ∧ ∀ t ∈ r.table, ¬(t.toNat ≤ a ∧ a < t.toNat + 4096)) ∧
          (∀ a, byteAt sh .cpu a = byteAt s.shared .cpu a) ∧
          (∀ t ∈ r.table, ∀ a, t.toNat ≤ a → a < t.toNat + 4096 → byteAt sh .dev a = byteAt s.shared .cpu a) ∧
          (∀ a, (∀ t ∈ r.table, ¬(t.toNat ≤ a ∧ a < t.toNat + 4096)) → byteAt sh .dev a = byteAt s.shared .dev a)) ∧
      (c.en = true → ∃ x, exec .installTables s = .refused x)) ∧
    (c.ringState = .absent → ∃ x, exec .installTables s = .refused x)

/-- Translating an offset of a slot whose installed table, as the device sees it, is the table of `pages`: the byte of the page
that holds the offset, or of the last page beyond the pages; entry 512 and above have no translation. -/
def Obligations.TranslateBuiltTable : Prop :=
  ∀ (l : Local) (i : Fin 8) (pages : List Addr) (b : Nat), Memory.wf l.shared.memDev → pages ≠ [] →
    (∀ p ∈ pages, p.toNat % 4096 = 0) →
    (∀ k, k < 4096 → byteAt l.shared .dev ((tableBase l.chan i).toNat + k) = tableByte pages k) →
    (b < 2097152 → ∃ a : Addr, translateOffset l i b = .next a ∧
      a.toNat = (pages.getD (min (b / 4096) (pages.length - 1)) 0).toNat + b % 4096) ∧
    (2097152 ≤ b → ∃ r, translateOffset l i b = .refused r)

/-! ### The ring buffer -/

/-- INIT with an allocator that answers with the pages `got`: the ring's record gives them their roles, every table is built,
published and installed, the slot count is written, the working registers start anew and the ring is Idle. No byte of the pages
given is dirty and `dirty` is as before elsewhere (20 R72). That the answers are the head of the model's list `allocIn` is log 5,
and that a raw answer that is aligned and free is given as it is, log 6. -/
def Obligations.InitMakesRing : Prop :=
  ∀ (s : State) (c : Chan) (n size : Nat) (got : List Addr) (rest : List (Option Addr)),
    s.At c → c.host = none → s.shared.Form → c.ringState = .absent → c.en = false →
    1 ≤ n → n ≤ 8 → 1 ≤ size → (size + 4095) / 4096 ≤ 512 →
    s.shared.allocIn = got.map some ++ rest → got.length = n * ((size + 4095) / 4096) + n + 1 → got.Nodup →
    (∀ p ∈ got, p.toNat % 4096 = 0 ∧ p.toNat ∉ s.shared.allocated) →
    ∃ (r : Ring) (low : Vector (BitVec 20) 8) (high : Vector Word 8) (sh : Shared),
      exec (.init n size) s = .next (s.put
        ⟨{ c with ring := some r, tableLow := low, tableHigh := high, slotCountM1 := BitVec.ofNat 3 (n - 1), rst := false,
                  trackDirty := false, readIndex := 0, resyncOffset := none, stage := [], pending := 0, ringState := .idle,
                  result := .ok }, sh⟩) ∧
      (r.nSlots = n ∧ r.slotSize = size ∧ r.pagesPerSlot = (size + 4095) / 4096 ∧ r.pages.length = n ∧
        r.table.length = n) ∧
      (∀ i, i < n → ∃ ps t, r.pages[i]? = some ps ∧ r.table[i]? = some t ∧ ps.length = r.pagesPerSlot ∧
        (∀ j, j < r.pagesPerSlot → ps[j]? = got[i * r.pagesPerSlot + j]?) ∧ got[n * r.pagesPerSlot + i]? = some t ∧
        (∀ k : Fin 8, k.val = i → low.get k = t.extractLsb' 12 20 ∧ high.get k = t.extractLsb' 32 32) ∧
        (∀ v a, t.toNat ≤ a → a < t.toNat + 4096 → byteAt sh v a = tableByte ps (a - t.toNat) ∧ a ∉ sh.dirty)) ∧
      got[n * r.pagesPerSlot + n]? = some r.spare ∧
      (∀ k : Fin 8, n ≤ k.val → low.get k = c.tableLow.get k ∧ high.get k = c.tableHigh.get k) ∧
      (∀ p, p ∈ sh.allocated ↔ p ∈ s.shared.allocated ∨ ∃ q ∈ got, p = q.toNat) ∧ sh.allocIn = rest ∧
      (∀ a, a ∈ sh.dirty ↔ a ∈ s.shared.dirty ∧ ∀ q ∈ got, pageOf a ≠ q.toNat) ∧
      (∀ v a, (∀ q ∈ got, pageOf a ≠ q.toNat) → byteAt sh v a = byteAt s.shared v a)

/-- INIT ends in one of three ways, whatever the allocator answers: with `Ok` and a ring, or with `AllocationFailure` or
`TableOverflow`, and then no register has been written and no page stays allocated; it is refused where a ring exists, and for
`n_slots` outside 1..8 or an empty slot. -/
def Obligations.InitEndings : Prop :=
  ∀ (s : State) (c : Chan) (n size : Nat), s.At c → c.host = none → s.shared.Form →
    (c.ringState = .absent → c.en = false → 1 ≤ n → n ≤ 8 → 1 ≤ size →
      ∃ c' sh, exec (.init n size) s = .next (s.put ⟨c', sh⟩) ∧
        ((c'.result = .ok ∧ c'.ringState = .idle ∧ ∃ r, c'.ring = some r ∧ r.nSlots = n ∧ r.slotSize = size) ∨
          (c' = { c with result := .error .allocationFailure } ∧ sh.allocated = s.shared.allocated) ∨
          (c' = { c with result := .error .tableOverflow } ∧ sh.allocated = s.shared.allocated ∧ 2097152 < size))) ∧
    (c.ringState ≠ .absent ∨ n < 1 ∨ 8 < n ∨ size < 1 → ∃ r, exec (.init n size) s = .refused r)

/-- 41 R142: TEARDOWN frees every page of the ring and leaves no ring, under exactly the preconditions of the rule; registers keep
their values and no byte of memory changes; the bytes of the pages freed leave `dirty` (20 R72), and nothing else of the shared
state changes (its last three fields are the model's, log 5 and log 7). -/
def Obligations.TeardownFreesPages : Prop :=
  tagOf .teardown = 0x43 ∧
  ∀ (s : State) (c : Chan), s.At c → c.host = none →
    ((c.ringState = .idle ∨ c.ringState = .armed) ∧ c.drainRunning = false ∧ c.pending = 0 ∧ c.en = false ∧
        c.intEnable = false → ∀ r : Ring, c.ring = some r →
      ∃ res sh, exec .teardown s = .next (s.put ⟨{ c with ring := none, ringState := .absent, result := res }, sh⟩) ∧
        (∀ p, p ∈ sh.allocated ↔ p ∈ s.shared.allocated ∧
          ∀ q ∈ r.pages.flatten ++ r.table ++ [r.spare], p ≠ q.toNat) ∧
        (∀ a, a ∈ sh.dirty ↔ a ∈ s.shared.dirty ∧
          ∀ q ∈ r.pages.flatten ++ r.table ++ [r.spare], ¬(q.toNat ≤ a ∧ a < q.toNat + 4096)) ∧
        (sh.pageAge = s.shared.pageAge ∧ sh.allocIn = s.shared.allocIn ∧ sh.draws = s.shared.draws) ∧
        (∀ v a, byteAt sh v a = byteAt s.shared v a)) ∧
    (¬((c.ringState = .idle ∨ c.ringState = .armed) ∧ c.drainRunning = false ∧ c.pending = 0 ∧ c.en = false ∧
        c.intEnable = false) → ∃ x, exec .teardown s = .refused x)

/-- The first step of RESET: the unit is disabled (its queue lands), the tables are published and installed, the slot count and the
reset request are written, and the HOST stands before its first poll (log 10). -/
def Obligations.ResetRequestEffect : Prop :=
  ∀ (s : State) (c : Chan) (r : Ring), s.At c → c.host = none → c.ring = some r → r.Shape →
    (c.ringState = .idle ∨ c.ringState = .armed) → c.drainRunning = false →
    (∀ t ∈ r.table, t.toNat ∈ s.shared.allocated) →
    (c.en = true → ∀ e ∈ c.inflight, pageOf e.addr.toNat ∈ s.shared.allocated) →
    ∃ low high,
      exec .reset s = .next (s.put
        ⟨{ c with en := false, inflight := if c.en then [] else c.inflight, needsReset := c.en || c.needsReset,
                  slotCountM1 := BitVec.ofNat 3 (r.nSlots - 1), rst := true, trackDirty := false, tableLow := low,
                  tableHigh := high, host := some (.reset 1) },
          published r.table (if c.en then landed c.inflight s.shared else s.shared)⟩) ∧
      (∀ (i : Fin 8) (t : Addr), r.table[i.val]? = some t →
        low.get i = t.extractLsb' 12 20 ∧ high.get i = t.extractLsb' 32 32) ∧
      (∀ i : Fin 8, r.nSlots ≤ i.val → low.get i = c.tableLow.get i ∧ high.get i = c.tableHigh.get i)

/-- One read of RESET's poll (41 R144): `RST` at 0 ends it with the ring Armed and the working registers anew; `RST` at 1 goes on
below the hundredth read, and ends it with `HardwareResetFailed` and the ring Idle at the hundredth. -/
def Obligations.ResetPollOutcomes : Prop :=
  ∀ (s : State) (c : Chan) (k : Nat), s.At c → c.host = some (.reset k) → c.en = false →
    (c.rst = false → exec .reset s = .next (s.putChan
      { c with readIndex := 0, resyncOffset := none, stage := [], pending := 0, ringState := .armed, host := none,
               result := .ok })) ∧
    (c.rst = true → k < 100 → exec .reset s = .next (s.putChan { c with host := some (.reset (k + 1)) })) ∧
    (c.rst = true → 100 ≤ k → exec .reset s = .next (s.putChan
      { c with ringState := .idle, host := none, result := .error .hardwareResetFailed }))

/-- RESET as a whole: with RST_DONE between the request and the poll it ends Armed with the values of 10 R47's second column; with
no RST_DONE it makes a hundred reads and ends with `HardwareResetFailed`, the ring Idle and the unit disabled. The division of
RESET into the steps performed here is the model's (log 10). -/
def Obligations.ResetRuns : Prop :=
  ∀ (s : State) (c : Chan) (r : Ring), s.At c → c.host = none → c.ring = some r → r.Shape →
    (c.ringState = .idle ∨ c.ringState = .armed) → c.drainRunning = false → c.en = false →
    (∀ t ∈ r.table, t.toNat ∈ s.shared.allocated) →
    ∃ low high,
      (∀ (i : Fin 8) (t : Addr), r.table[i.val]? = some t →
        low.get i = t.extractLsb' 12 20 ∧ high.get i = t.extractLsb' 32 32) ∧
      (∀ i : Fin 8, r.nSlots ≤ i.val → low.get i = c.tableLow.get i ∧ high.get i = c.tableHigh.get i) ∧
      runOps [.reset, .rstDone, .reset] s = .next (s.put
        ⟨{ c with slotCountM1 := BitVec.ofNat 3 (r.nSlots - 1), writeIndex := 0, rst := false, tableLow := low,
                  tableHigh := high, readIndex := 0, resyncOffset := none, stage := [], pending := 0,
                  ringState := .armed, fillPos := 0, inflight := [], trackDirty := false, needsReset := false,
                  result := .ok }, published r.table s.shared⟩) ∧
      runOps (.reset :: List.replicate 100 .reset) s = .next (s.put
        ⟨{ c with slotCountM1 := BitVec.ofNat 3 (r.nSlots - 1), rst := true, tableLow := low, tableHigh := high,
                  trackDirty := false, ringState := .idle, result := .error .hardwareResetFailed },
          published r.table s.shared⟩)

/-- 41 R145 with 45 R222, R223: CURRENT_WRITE_INDEX returns the write index modulo N; on an affected revision the re-write leaves
`RST` and `track_dirty` at 0. The write index stays, unless an unpaired read came before (then it is some value in
`0 .. SLOT_COUNT_M1`). It is refused where there is no ring. -/
def Obligations.CurrentWriteIndexEffect : Prop :=
  tagOf .currentWriteIndex = 0x45 ∧
  ∀ (s : State) (c : Chan), s.At c → c.host = none →
    (∀ r : Ring, c.ring = some r → c.ringState ≠ .absent →
      ∃ (x : SlotIx) (waiting : List Nat) (draws : Nat),
        (¬(s.cfg.erratumRewrite = true ∧ c.en = true ∧ c.trackDirty = true) →
          x = c.writeIndex ∧ waiting = c.spoilIn ∧ draws = s.shared.draws) ∧
        (s.cfg.erratumRewrite = true ∧ c.en = true ∧ c.trackDirty = true → x.toNat ≤ c.slotCountM1.toNat) ∧
        exec .currentWriteIndex s = .next (s.put
          ⟨{ c with writeIndex := x, spoilIn := waiting, rst := c.rst && !s.cfg.erratumRewrite,
                    trackDirty := c.trackDirty && !s.cfg.erratumRewrite, result := .index (x.toNat % r.nSlots) },
            { s.shared with draws := draws }⟩)) ∧
    (c.ringState = .absent → ∃ x, exec .currentWriteIndex s = .refused x)

/-- 41 R146: READ_SLOT syncs every page of the slot for the CPU and returns the slot's S bytes, which are those of the device view
at the sync; it is refused where there is no ring or no such slot. -/
def Obligations.ReadSlotEffect : Prop :=
  (∀ i, tagOf (.readSlot i) = 0x46) ∧
  ∀ (s : State) (c : Chan) (i : Nat), s.At c → c.host = none → s.shared.Form →
    (∀ (r : Ring) (ps : List Addr), c.ring = some r → c.ringState ≠ .absent → r.Shape → r.pages[i]? = some ps →
      (∀ p ∈ ps, p.toNat ∈ s.shared.allocated) →
      ∃ bs sh, exec (.readSlot i) s = .next (s.put ⟨{ c with result := .bytes bs }, sh⟩) ∧ bs.length = r.slotSize ∧
        (∀ k, k < r.slotSize → bs[k]? = some (byteAt s.shared .dev ((ps.getD (k / 4096) 0).toNat + k % 4096))) ∧
        s.shared.SameBooks sh ∧ (∀ a, byteAt sh .dev a = byteAt s.shared .dev a) ∧
        (∀ p ∈ ps, ∀ a, p.toNat ≤ a → a < p.toNat + 4096 →
          byteAt sh .cpu a = byteAt s.shared .dev a ∧ a ∉ sh.dirty) ∧
        (∀ a, (∀ p ∈ ps, ¬(p.toNat ≤ a ∧ a < p.toNat + 4096)) →
          byteAt sh .cpu a = byteAt s.shared .cpu a ∧ (a ∈ sh.dirty ↔ a ∈ s.shared.dirty))) ∧
    (c.ringState = .absent ∨ (∃ r, c.ring = some r ∧ r.nSlots ≤ i) → ∃ x, exec (.readSlot i) s = .refused x)

/-! ### The capture channel -/

/-- 42 R171 with 60 R266: START's validation, its first step. It changes nothing but the HOST's place (log 10), or ends with
`InvalidParams`. -/
def Obligations.StartValidation : Prop :=
  ∀ (s : State) (c : Chan) (r : Ring) (pitch lines : Nat), s.At c → c.host = none → c.ring = some r →
    (c.ringState = .idle ∨ c.ringState = .armed) →
    (1 ≤ pitch ∧ 1 ≤ lines ∧ pitch * lines = r.slotSize ∧ pitch * lines % 188 = 0 →
      exec (.start pitch lines) s = .next (s.putChan { c with host := some (.start pitch lines .reset) })) ∧
    (¬(1 ≤ pitch ∧ 1 ≤ lines ∧ pitch * lines = r.slotSize ∧ pitch * lines % 188 = 0) →
      exec (.start pitch lines) s = .next (s.putChan { c with result := .error .invalidParams }))

/-- START's later steps (42 R170; the HOST's place is the model's, log 10): the poll as in RESET, then the size registers, the
clock, the enable bit (refused as 45 R220 says), the interrupt source with the ring Streaming. -/
def Obligations.StartSteps : Prop :=
  ∀ (s : State) (c : Chan) (r : Ring) (pitch lines : Nat), s.At c → c.ring = some r → c.ringState ≠ .absent →
    (∀ k, c.host = some (.start pitch lines (.poll k)) → c.en = false →
      (c.rst = false → exec (.start pitch lines) s = .next (s.putChan
        { c with readIndex := 0, resyncOffset := none, stage := [], pending := 0, ringState := .armed,
                 host := some (.start pitch lines .sizes) })) ∧
      (c.rst = true → k < 100 →
        exec (.start pitch lines) s = .next (s.putChan { c with host := some (.start pitch lines (.poll (k + 1))) })) ∧
      (c.rst = true → 100 ≤ k → exec (.start pitch lines) s = .next (s.putChan
        { c with ringState := .idle, host := none, result := .error .hardwareResetFailed }))) ∧
    (c.host = some (.start pitch lines .sizes) → c.en = false →
      exec (.start pitch lines) s = .next (s.putChan
        { c with blockSize := BitVec.ofNat 32 r.slotSize, totalSize := BitVec.ofNat 32 (r.nSlots * r.slotSize),
                 host := some (.start pitch lines .clock) })) ∧
    (c.host = some (.start pitch lines .clock) →
      exec (.start pitch lines) s =
        .next (s.putChan { c with clockMode := .external, host := some (.start pitch lines .enable) })) ∧
    (c.host = some (.start pitch lines .enable) → c.en = false → c.needsReset = false → c.rst = false →
      c.blockSize.toNat ≠ 0 → c.blockSize.toNat ≤ 2097152 →
      c.totalSize.toNat = (c.slotCountM1.toNat + 1) * c.blockSize.toNat →
      exec (.start pitch lines) s =
        .next (s.putChan { c with en := true, host := some (.start pitch lines .irq) })) ∧
    (c.host = some (.start pitch lines .irq) →
      exec (.start pitch lines) s =
        .next (s.putChan { c with intEnable := true, ringState := .streaming, host := none, result := .ok }))

/-- The bring-up of 70 R303: from a quiet Idle or Armed ring with valid parameters, START with one RST_DONE after its reset request
reaches Streaming, with the unit enabled, the clock External, the interrupt source on and every cursor at its start. The division
of START into the steps performed here is the model's (log 10). -/
def Obligations.BringUp : Prop :=
  ∀ (s : State) (c : Chan) (r : Ring) (pitch lines : Nat), s.At c → c.host = none → c.ring = some r → r.Shape →
    (c.ringState = .idle ∨ c.ringState = .armed) → c.drainRunning = false → c.en = false →
    (∀ t ∈ r.table, t.toNat ∈ s.shared.allocated) →
    1 ≤ pitch → 1 ≤ lines → pitch * lines = r.slotSize → r.slotSize % 188 = 0 →
    ∃ low high,
      (∀ (i : Fin 8) (t : Addr), r.table[i.val]? = some t →
        low.get i = t.extractLsb' 12 20 ∧ high.get i = t.extractLsb' 32 32) ∧
      (∀ i : Fin 8, r.nSlots ≤ i.val → low.get i = c.tableLow.get i ∧ high.get i = c.tableHigh.get i) ∧
      runOps [.start pitch lines, .start pitch lines, .rstDone, .start pitch lines, .start pitch lines,
          .start pitch lines, .start pitch lines, .start pitch lines] s = .next (s.put
        ⟨{ c with en := true, slotCountM1 := BitVec.ofNat 3 (r.nSlots - 1), writeIndex := 0, rst := false,
                  tableLow := low, tableHigh := high, blockSize := BitVec.ofNat 32 r.slotSize,
                  totalSize := BitVec.ofNat 32 (r.nSlots * r.slotSize), intEnable := true, readIndex := 0,
                  resyncOffset := none, stage := [], pending := 0, ringState := .streaming, clockMode := .external,
                  fillPos := 0, inflight := [], trackDirty := false, needsReset := false, result := .ok },
          published r.table s.shared⟩)

/-- 42 R174: STOP outside Streaming ends with `Ok` and touches nothing. -/
def Obligations.StopOutsideStreaming : Prop :=
  ∀ (s : State) (c : Chan), s.At c → c.host = none → c.ringState ≠ .streaming →
    exec .stop s = .next (s.putChan { c with result := .ok })

/-- STOP's steps (42 R172, R173; the HOST's place is the model's, log 10): the interrupt source off; the join, which has no step
while a pass runs and else cancels a scheduled one; the unit off, its queue landed; the clock Internal and the ring Idle. -/
def Obligations.StopSteps : Prop :=
  ∀ (s : State) (c : Chan), s.At c →
    (c.host = none → c.ringState = .streaming →
      exec .stop s = .next (s.putChan { c with intEnable := false, host := some (.stop .join) })) ∧
    (c.host = some (.stop .join) →
      (c.drainRunning = true → ∃ r, exec .stop s = .refused r) ∧
      (c.drainRunning = false →
        exec .stop s = .next (s.putChan { c with pending := 0, host := some (.stop .disable) }))) ∧
    (c.host = some (.stop .disable) →
      (c.en = false → exec .stop s = .next (s.putChan { c with host := some (.stop .clock) })) ∧
      (c.en = true → (∀ e ∈ c.inflight, pageOf e.addr.toNat ∈ s.shared.allocated) →
        exec .stop s = .next (s.put ⟨{ c with en := false, inflight := [], needsReset := true,
                                              host := some (.stop .clock) }, landed c.inflight s.shared⟩))) ∧
    (c.host = some (.stop .clock) →
      exec .stop s = .next (s.putChan { c with clockMode := .internal, ringState := .idle, host := none, result := .ok }))

/-- The shut-down of 70 R304: from Streaming with no pass running, STOP reaches Idle, with the interrupt source off, nothing
scheduled, the queue landed, the unit off and in need of a reset, the clock Internal; the drain's cursors stay. The division of
STOP into the steps performed here is the model's (log 10). -/
def Obligations.ShutDown : Prop :=
  ∀ (s : State) (c : Chan), s.At c → c.host = none → c.ringState = .streaming → c.drainRunning = false → c.en = true →
    (∀ e ∈ c.inflight, pageOf e.addr.toNat ∈ s.shared.allocated) →
    runOps [.stop, .stop, .stop, .stop] s = .next (s.put
      ⟨{ c with intEnable := false, pending := 0, en := false, inflight := [], needsReset := true,
                clockMode := .internal, ringState := .idle, result := .ok }, landed c.inflight s.shared⟩)

/-! ### The synchronizer -/

/-- 43 R185, R187: what SCAN returns, with no effect but its result. -/
def Obligations.ScanResult : Prop :=
  (∀ slot known, tagOf (.scan slot known) = 0x49) ∧
  ∀ (s : State) (c : Chan) (slot : List Byte) (known : Option Nat), s.At c →
    ((∃ k, known = some k ∧ slot[k]? = some 0x47#8) →
      exec (.scan slot known) s = .next (s.putChan { c with result := .scanned .kept known })) ∧
    (¬(∃ k, known = some k ∧ slot[k]? = some 0x47#8) →
      (∀ i, search slot = some i →
        exec (.scan slot known) s = .next (s.putChan { c with result := .scanned .resynced (some i) })) ∧
      (search slot = none →
        exec (.scan slot known) s = .next (s.putChan { c with result := .scanned .desynchronized known })))

/-- 43 R186: the search finds the smallest offset in 0..187 at which three markers stand one packet apart, and nothing where there
is none. -/
def Obligations.SearchFindsFirst : Prop :=
  ∀ slot : List Byte,
    let hit := fun i => i + 376 < slot.length ∧ slot[i]? = some 0x47#8 ∧ slot[i + 188]? = some 0x47#8 ∧
      slot[i + 376]? = some 0x47#8
    (∀ i, search slot = some i ↔ i ≤ 187 ∧ hit i ∧ ∀ j, j < i → ¬hit j) ∧
    (search slot = none ↔ ∀ i, i ≤ 187 → ¬hit i)

/-- 43 R190(a): a buffer with markers from `k` on, one packet apart, and no earlier run of three is found at `k`, and aligning it
gives the whole packets from `k` on, every 188th byte of which is a marker. -/
def Obligations.ScanRoundTrip : Prop :=
  ∀ (slot : List Byte) (k : Nat), k ≤ 187 → k + 377 ≤ slot.length →
    (∀ m, k + 188 * m < slot.length → slot[k + 188 * m]? = some 0x47#8) →
    (∀ i, i < k → ¬(slot[i]? = some 0x47#8 ∧ slot[i + 188]? = some 0x47#8 ∧ slot[i + 376]? = some 0x47#8)) →
    scan slot none = (.resynced, some k) ∧
    (align slot k []).1 = (slot.drop k).take (188 * ((slot.length - k) / 188)) ∧
    ∀ m, 188 * m < (align slot k []).1.length → (align slot k []).1[188 * m]? = some 0x47#8

/-- 43 R188: what ALIGN returns, with no effect but its result: the straddling packet where the staged tail fits, the whole packets
from the offset on, and the tail that is left; the bytes out are whole packets and the tail is shorter than one. -/
def Obligations.AlignResult : Prop :=
  (∀ slot off stage, tagOf (.align slot off stage) = 0x4A) ∧
  ∀ (s : State) (c : Chan) (slot : List Byte) (off : Nat) (stage : List Byte), s.At c →
    ∃ out tail,
      exec (.align slot off stage) s = .next (s.putChan { c with result := .aligned out tail }) ∧
      out.length % 188 = 0 ∧ tail.length ≤ 187 ∧
      (slot.length ≤ off → out = [] ∧ tail = []) ∧
      (off < slot.length →
        tail = slot.drop (off + 188 * ((slot.length - off) / 188)) ∧
        (stage.length + off = 188 ∧ stage[0]? = some 0x47#8 →
          out ++ tail = stage ++ slot) ∧
        (¬(stage.length + off = 188 ∧ stage[0]? = some 0x47#8) →
          out ++ tail = slot.drop off))

/-- 43 R190(b): over any number of slots of an in-step stream, drained from a fresh start, no byte is lost or repeated from the
first marker on: what the sink has, with the staged tail, is the stream from its first marker. No slot is rejected or
desynchronized, and from the second slot on every buffer has exactly the slot's size. -/
def Obligations.InStepStreamKept : Prop :=
  ∀ (n k size : Nat) (first : List Byte) (slots : List (List Byte)) (c : Chan),
    k ≤ 187 → size % 188 = 0 → 564 ≤ size → (∀ b ∈ first :: slots, b.length = size) →
    c.resyncOffset = none → c.stage = [] →
    (∀ m, k + 188 * m < (first :: slots).flatten.length → (first :: slots).flatten[k + 188 * m]? = some 0x47#8) →
    (∀ i, i < k → ¬(first[i]? = some 0x47#8 ∧ first[i + 188]? = some 0x47#8 ∧ first[i + 376]? = some 0x47#8)) →
    let c' := (first :: slots).foldl (fun acc b => consumeSlot n b acc) c
    ∃ head bufs, c'.sinkOut = c.sinkOut ++ head :: bufs ∧ bufs.length = slots.length ∧ (∀ b ∈ bufs, b.length = size) ∧
      (head :: bufs).flatten ++ c'.stage = (first :: slots).flatten.drop k ∧
      c'.resyncOffset = some k ∧ c'.sinkRejected = c.sinkRejected ∧ c'.log = c.log

/-! ### The interrupt bridge -/

/-- 44 R206: the sink takes a non-empty buffer of whole packets that begins with a marker and counts any other as rejected; nothing
else happens. -/
def Obligations.SinkWriteEffect : Prop :=
  (∀ bytes, tagOf (.sinkWrite bytes) = 0x4B) ∧
  ∀ (s : State) (c : Chan) (bytes : List Byte), s.At c →
    (bytes.length % 188 = 0 ∧ 0 < bytes.length ∧ bytes[0]? = some 0x47#8 →
      ∃ res, exec (.sinkWrite bytes) s = .next (s.putChan { c with sinkOut := c.sinkOut ++ [bytes], result := res })) ∧
    (¬(bytes.length % 188 = 0 ∧ 0 < bytes.length ∧ bytes[0]? = some 0x47#8) →
      ∃ res, exec (.sinkWrite bytes) s =
        .next (s.putChan { c with sinkRejected := c.sinkRejected + 1, result := res }))

/-- 44 R200: taking the interrupt acknowledges it and counts with saturation at 2, nothing else; a pass is scheduled exactly where
`pending` is above 0. -/
def Obligations.InterruptTaken : Prop :=
  tagOf .irq = 0x83 ∧
  ∀ (s : State) (c : Chan), s.At c →
    (c.intStatus = true → c.intEnable = true → c.ringState ≠ .absent →
      exec .irq s = .next (s.putChan { c with intStatus := false, pending := min 2 (c.pending + 1) })) ∧
    (c.intStatus = false ∨ c.intEnable = false ∨ c.ringState = .absent → ∃ r, exec .irq s = .refused r)

/-- 44 R202, R203 with 41 R145: DRAIN_BEGIN reads the write index once and counts the slots that lie further behind it than
`MARGIN`; a distance of 0 is a spurious wake and is logged. -/
def Obligations.DrainBeginEffect : Prop :=
  tagOf .drainBegin = 0x84 ∧
  (∀ (s : State) (c : Chan), s.At c → c.pending = 0 ∨ c.drainRunning = true ∨ c.ringState = .absent →
    ∃ r, exec .drainBegin s = .refused r) ∧
  ∀ (s : State) (c : Chan) (r : Ring), s.At c → 0 < c.pending → c.drainRunning = false → c.ringState ≠ .absent →
    c.ring = some r → c.readIndex < r.nSlots →
    ∃ (x : SlotIx) (waiting : List Nat) (draws : Nat),
      (¬(s.cfg.erratumRewrite = true ∧ c.en = true ∧ c.trackDirty = true) →
        x = c.writeIndex ∧ waiting = c.spoilIn ∧ draws = s.shared.draws) ∧
      (s.cfg.erratumRewrite = true ∧ c.en = true ∧ c.trackDirty = true → x.toNat ≤ c.slotCountM1.toNat) ∧
      exec .drainBegin s = .next (s.put
        ⟨{ c with writeIndex := x, spoilIn := waiting, rst := c.rst && !s.cfg.erratumRewrite,
                  trackDirty := c.trackDirty && !s.cfg.erratumRewrite, drainRunning := true,
                  drainLeft := (x.toNat % r.nSlots + r.nSlots - c.readIndex) % r.nSlots - s.cfg.margin.slots,
                  log := if (x.toNat % r.nSlots + r.nSlots - c.readIndex) % r.nSlots = 0 then
                    c.log ++ [.spuriousInterrupt] else c.log },
          { s.shared with draws := draws }⟩)

/-- 44 R204: DRAIN_SLOT syncs and reads the slot at `read_index`, scans it, aligns and forwards it, and moves the cursor on; it
changes nothing else. The bytes are the slot's in the device view. -/
def Obligations.DrainSlotEffect : Prop :=
  tagOf .drainSlot = 0x85 ∧
  (∀ (s : State) (c : Chan), s.At c → c.drainRunning = false ∨ c.drainLeft = 0 → ∃ r, exec .drainSlot s = .refused r) ∧
  ∀ (s : State) (c : Chan) (r : Ring) (ps : List Addr), s.At c → c.drainRunning = true → 0 < c.drainLeft →
    c.ring = some r → c.ringState ≠ .absent → r.Shape → r.pages[c.readIndex]? = some ps →
    (∀ p ∈ ps, p.toNat ∈ s.shared.allocated) → s.shared.Form →
    ∃ (bs : List Byte) (stage : List Byte) (out : List (List Byte)) (rejected : Nat),
      bs.length = r.slotSize ∧
      (∀ k, k < r.slotSize → bs[k]? = some (byteAt s.shared .dev ((ps.getD (k / 4096) 0).toNat + k % 4096))) ∧
      exec .drainSlot s = .next (s.put
        ⟨{ c with resyncOffset := (scan bs c.resyncOffset).2,
                  log := if (scan bs c.resyncOffset).1 = .desynchronized then c.log ++ [.streamDesynchronized] else c.log,
                  stage := stage, sinkOut := c.sinkOut ++ out, sinkRejected := c.sinkRejected + rejected,
                  readIndex := (c.readIndex + 1) % r.nSlots, drainLeft := c.drainLeft - 1 }, synced ps s.shared⟩) ∧
      ((scan bs c.resyncOffset).2 = none → stage = [] ∧ out = [] ∧ rejected = 0) ∧
      (∀ off, (scan bs c.resyncOffset).2 = some off →
        stage = (align bs off c.stage).2 ∧
        (out, rejected) =
          if (align bs off c.stage).1 = [] then ([], 0)
          else if (align bs off c.stage).1[0]? = some 0x47#8 then ([(align bs off c.stage).1], 0) else ([], 1))

/-- 44 R205: the end of a pass takes one off `pending` and nothing else; with more pending a new pass may begin at once. R205
says that `pending` is at least 1 here; where it is 0, it stays 0, which is the model's choice (log 13). -/
def Obligations.DrainEndEffect : Prop :=
  tagOf .drainEnd = 0x86 ∧
  (∀ (s : State) (c : Chan), s.At c → c.drainRunning = true → c.drainLeft = 0 →
    exec .drainEnd s = .next (s.putChan { c with pending := c.pending - 1, drainRunning := false }) ∧
    (1 < c.pending → c.ringState ≠ .absent →
      drainBeginEnabled { c with pending := c.pending - 1, drainRunning := false } = true)) ∧
  ∀ (s : State) (c : Chan), s.At c → c.drainRunning = false ∨ 0 < c.drainLeft → ∃ r, exec .drainEnd s = .refused r

/-- What has no step: every HOST call but the one whose next step is due, while its HOST is inside RESET, START or STOP (log 10);
any operation on a channel that does not exist; and by the calls' own rules (93 section 3, X8 to X11) RESET and START outside Idle
and Armed, RESET while a pass runs, every call that needs a ring in Absent. -/
def Obligations.OperationsWithoutStep : Prop :=
  (∀ (s : State) (c : Chan) (w : HostWork) (i : Instr), s.At c → c.host = some w → hostOp i = true → i ≠ workInstr w →
    exec i s = .refused .hostBusy) ∧
  (∀ (s : State) (i : Instr), s.chans[s.cur]? = none → ∃ r, exec i s = .refused r) ∧
  (∀ (s : State) (c : Chan) (pitch lines i : Nat), s.At c → c.host = none →
    (c.ringState = .absent ∨ c.ringState = .streaming →
      (∃ r, exec .reset s = .refused r) ∧ (∃ r, exec (.start pitch lines) s = .refused r)) ∧
    (c.drainRunning = true → ∃ r, exec .reset s = .refused r) ∧
    (c.ringState = .absent → (∃ r, exec .installTables s = .refused r) ∧
      (∃ r, exec .currentWriteIndex s = .refused r) ∧ (∃ r, exec (.readSlot i) s = .refused r)))

/-- 44 R203, R207: with the write index the pass read, every slot the pass will touch lies more than `MARGIN` behind it, and no
further than `read_index` did: never the slot being filled, never one of the `MARGIN` slots before it. -/
def Obligations.DrainStaysBehindMargin : Prop :=
  ∀ (s t : State) (c c' : Chan) (r : Ring), s.At c → c.ring = some r → c.readIndex < r.nSlots →
    exec .drainBegin s = .next t → t.At c' →
    ∀ j, j < c'.drainLeft →
      let w := c'.writeIndex.toNat % r.nSlots
      let slot := (c.readIndex + j) % r.nSlots
      s.cfg.margin.slots + 1 ≤ (w + r.nSlots - slot) % r.nSlots ∧
        (w + r.nSlots - slot) % r.nSlots ≤ (w + r.nSlots - c.readIndex) % r.nSlots

/-- 10 R41 and 44 R203 agree: in Streaming with no pass running, the drainable slots are exactly those a pass that begins now will
touch. -/
def Obligations.DrainableSlotsDrained : Prop :=
  ∀ (margin : Margin) (c : Chan) (r : Ring) (i : Nat), c.ring = some r → c.ringState = .streaming →
    c.drainRunning = false → c.readIndex < r.nSlots → i < r.nSlots →
    (slotDrainable margin c i = true ↔
      ∃ j, j < drainCount margin (c.writeIndex.toNat % r.nSlots) c.readIndex r.nSlots ∧ i = (c.readIndex + j) % r.nSlots)

/-! ### The capture unit -/

/-- 45 R240: CAP_BYTE takes the port's byte, queues it for the translated address, and moves the position on: inside the slot, or,
where the byte is the slot's last and the landing condition of 20 R83 holds, to the next slot, which sets the status bit.
An offset beyond the table has no step. The port's byte is the head of the model's list `portIn` where that is not empty (log 5);
a queued slot number is taken modulo the slot count before the distance is formed (log 14). -/
def Obligations.CapByteEffect : Prop :=
  tagOf .capByte = 0x80 ∧
  (∀ (s : State) (c : Chan), s.At c → c.en = false ∨ c.rst = true → ∃ r, exec .capByte s = .refused r) ∧
  ∀ (s : State) (c : Chan), s.At c → c.en = true → c.rst = false →
    (c.fillPos < 2097152 →
      ∃ (addr : Addr) (b : Byte) (waiting : List Byte) (draws : Nat),
        translateOffset ⟨c, s.shared⟩ c.writeIndex.toFin c.fillPos = .next addr ∧
        (∀ b' rest, c.portIn = b' :: rest → b = b' ∧ waiting = rest ∧ draws = s.shared.draws) ∧
        (c.fillPos + 1 < c.blockSize.toNat →
          exec .capByte s = .next (s.put
            ⟨{ c with inflight := c.inflight ++ [⟨c.writeIndex, addr, b⟩], fillPos := c.fillPos + 1, portIn := waiting },
              { s.shared with draws := draws }⟩)) ∧
        (c.blockSize.toNat ≤ c.fillPos + 1 →
          (∀ e ∈ c.inflight, ((c.writeIndex.toNat + 1) % (c.slotCountM1.toNat + 1) + (c.slotCountM1.toNat + 1) -
              e.slot.toNat % (c.slotCountM1.toNat + 1)) % (c.slotCountM1.toNat + 1) ≤ s.cfg.margin.slots) →
          exec .capByte s = .next (s.put
            ⟨{ c with inflight := c.inflight ++ [⟨c.writeIndex, addr, b⟩], fillPos := 0, portIn := waiting,
                      writeIndex := BitVec.ofNat 3 ((c.writeIndex.toNat + 1) % (c.slotCountM1.toNat + 1)),
                      intStatus := true }, { s.shared with draws := draws }⟩))) ∧
    (c.blockSize.toNat ≤ c.fillPos + 1 →
      (∃ e ∈ c.inflight, s.cfg.margin.slots < ((c.writeIndex.toNat + 1) % (c.slotCountM1.toNat + 1) +
          (c.slotCountM1.toNat + 1) - e.slot.toNat % (c.slotCountM1.toNat + 1)) % (c.slotCountM1.toNat + 1)) →
      ∃ r, exec .capByte s = .refused r) ∧
    (2097152 ≤ c.fillPos → ∃ r, exec .capByte s = .refused r)

/-- 45 R241, 70 R316: CAP_LAND writes the oldest queued byte to the device view and takes it off the queue, or faults where its
page belongs to no ring; it changes no other byte and nothing else. -/
def Obligations.CapLandEffect : Prop :=
  tagOf .capLand = 0x81 ∧ (∀ (s : State) (c : Chan), s.At c → c.inflight = [] → ∃ r, exec .capLand s = .refused r) ∧
  ∀ (s : State) (c : Chan) (e : InFlight) (rest : List InFlight), s.At c → c.inflight = e :: rest →
    (pageOf e.addr.toNat ∈ s.shared.allocated →
      ∃ sh, exec .capLand s = .next (s.put ⟨{ c with inflight := rest }, sh⟩) ∧ s.shared.SameBooks sh ∧
        sh.dirty = s.shared.dirty ∧
        ∀ v a, byteAt sh v a = if v = .dev ∧ a = e.addr.toNat then e.byte else byteAt s.shared v a) ∧
    (pageOf e.addr.toNat ∉ s.shared.allocated → exec .capLand s = .fault .dmaToFreedPage)

/-- 45 R242, 70 R301: the hardware reset's effect, and nothing else. -/
def Obligations.RstDoneEffect : Prop :=
  tagOf .rstDone = 0x82 ∧ (∀ (s : State) (c : Chan), s.At c → c.rst = false → ∃ r, exec .rstDone s = .refused r) ∧
  ∀ (s : State) (c : Chan), s.At c → c.rst = true →
    exec .rstDone s = .next (s.putChan
      { c with writeIndex := 0, fillPos := 0, inflight := [], trackDirty := false, needsReset := false, rst := false })

/-! ### Every step -/

/-- Every step from a state in the invariant ends in the invariant: canonical memory, registers and cursors in range, rings of the
right shape, a capture position inside its slot, and exact exclusive ownership of pages. -/
def Obligations.StepKeepsInvariant : Prop :=
  ∀ s t : State, s.Inv → step s = .next t → t.Inv

/-- 20 R83, kept by every step of a revision without the erratum, and of an affected one where no read of `DMA_BUFFER_MODE` is
left unpaired (45 R223): every byte in flight belongs to the slot being filled or to one at most `MARGIN` behind it, so the slots
a drain may touch have landed. Hosts that use no raw write and no raw read of that register pair every read: `track_dirty` stays
false, which makes the next turn a paired one whatever it is. -/
def Obligations.PipelineStaysNear : Prop :=
  (∀ s t : State, s.Inv → s.ReadPaired → (∀ c ∈ s.chans, c.NearQueue s.cfg.margin) →
    step s = .next t → t.cfg = s.cfg ∧ ∀ c ∈ t.chans, c.NearQueue t.cfg.margin) ∧
  (∀ s t : State, (∀ c ∈ s.chans, c.Disciplined) → (∀ c ∈ s.chans, c.trackDirty = false) →
    compositeTurn (nextTurn s).1 = true → (∀ k, turnCall s (nextTurn s).1 ≠ some (k, .rdDmaBufferMode)) →
    step s = .next t → s.ReadPaired ∧ ∀ c ∈ t.chans, c.trackDirty = false)

/-- An operation leaves every other channel as it was, and the configuration, the selection, the schedule and the number of
channels too. -/
def Obligations.ChannelsIndependent : Prop :=
  ∀ (i : Instr) (s t : State), exec i s = .next t →
    (∀ k, k ≠ s.cur → t.chans[k]? = s.chans[k]?) ∧ t.chans.length = s.chans.length ∧ t.cfg = s.cfg ∧ t.cur = s.cur ∧
      t.schedule = s.schedule

/-- 44 R208: in Streaming only DRAIN_SLOT writes `read_index`, `resync_offset` and `stage`. -/
def Obligations.OnlyDrainMovesCursors : Prop :=
  ∀ (i : Instr) (s t : State) (c c' : Chan), s.At c → t.At c' → c.Disciplined → c.ringState = .streaming →
    exec i s = .next t → i ≠ .drainSlot →
    c'.readIndex = c.readIndex ∧ c'.resyncOffset = c.resyncOffset ∧ c'.stage = c.stage

/-- With hosts that make no raw access, every step keeps the discipline of 10 R46: the unit runs only in Streaming, or in Armed
inside START between its steps 5 and 6, and then on the external clock. -/
def Obligations.CompositeHostsDisciplined : Prop :=
  ∀ s t : State, compositeTurn (nextTurn s).1 = true → (∀ c ∈ s.chans, c.Disciplined) → step s = .next t →
    ∀ c ∈ t.chans, c.Disciplined

/-- With hosts that make no raw access, every step keeps the tables, the registers that name them and the queue as the rings
want them. -/
def Obligations.CompositeHostsKeepTables : Prop :=
  ∀ s t : State, compositeTurn (nextTurn s).1 = true → s.Inv → (∀ c ∈ s.chans, c.Disciplined ∧ c.Installed s.shared) →
    step s = .next t → ∀ c ∈ t.chans, c.Installed t.shared

/-- 70 R316, 60 R281: with hosts that make no raw access no step writes memory that no ring owns. -/
def Obligations.CompositeHostsNeverFault : Prop :=
  ∀ s : State, compositeTurn (nextTurn s).1 = true → s.Inv → (∀ c ∈ s.chans, c.Disciplined ∧ c.Installed s.shared) →
    s.StepSafe
end

