-- ==== Sys2Proof/Laws/State.lean ====
section
/-! SUPPORT. One lemma per field per update of the state, true by `rfl`, and what selecting and putting back a channel does. -/

namespace Sys2Proof.Machine

/-! ### A place: a channel and the shared state -/

@[simp] theorem Local.withChan_chan (l : Local) (c : Chan) : (l.withChan c).chan = c := rfl
@[simp] theorem Local.withChan_shared (l : Local) (c : Chan) : (l.withChan c).shared = l.shared := rfl
@[simp] theorem Local.withShared_chan (l : Local) (sh : Shared) : (l.withShared sh).chan = l.chan := rfl
@[simp] theorem Local.withShared_shared (l : Local) (sh : Shared) : (l.withShared sh).shared = sh := rfl

/-! ### The whole machine -/

@[simp] theorem State.put_cfg (s : State) (l : Local) : (s.put l).cfg = s.cfg := rfl
@[simp] theorem State.put_chans (s : State) (l : Local) : (s.put l).chans = s.chans.set s.cur l.chan := rfl
@[simp] theorem State.put_shared (s : State) (l : Local) : (s.put l).shared = l.shared := rfl
@[simp] theorem State.put_cur (s : State) (l : Local) : (s.put l).cur = s.cur := rfl
@[simp] theorem State.put_schedule (s : State) (l : Local) : (s.put l).schedule = s.schedule := rfl

@[simp] theorem State.select_cfg (s : State) (c : Nat) : (s.select c).cfg = s.cfg := rfl
@[simp] theorem State.select_chans (s : State) (c : Nat) : (s.select c).chans = s.chans := rfl
@[simp] theorem State.select_shared (s : State) (c : Nat) : (s.select c).shared = s.shared := rfl
@[simp] theorem State.select_cur (s : State) (c : Nat) : (s.select c).cur = c := rfl
@[simp] theorem State.select_schedule (s : State) (c : Nat) : (s.select c).schedule = s.schedule := rfl

@[simp] theorem State.withSchedule_cfg (s : State) (ts : List Turn) : (s.withSchedule ts).cfg = s.cfg := rfl
@[simp] theorem State.withSchedule_chans (s : State) (ts : List Turn) : (s.withSchedule ts).chans = s.chans := rfl
@[simp] theorem State.withSchedule_shared (s : State) (ts : List Turn) : (s.withSchedule ts).shared = s.shared := rfl
@[simp] theorem State.withSchedule_cur (s : State) (ts : List Turn) : (s.withSchedule ts).cur = s.cur := rfl
@[simp] theorem State.withSchedule_schedule (s : State) (ts : List Turn) : (s.withSchedule ts).schedule = ts := rfl

@[simp] theorem State.withShared_cfg (s : State) (sh : Shared) : (s.withShared sh).cfg = s.cfg := rfl
@[simp] theorem State.withShared_chans (s : State) (sh : Shared) : (s.withShared sh).chans = s.chans := rfl
@[simp] theorem State.withShared_shared (s : State) (sh : Shared) : (s.withShared sh).shared = sh := rfl
@[simp] theorem State.withShared_cur (s : State) (sh : Shared) : (s.withShared sh).cur = s.cur := rfl
@[simp] theorem State.withShared_schedule (s : State) (sh : Shared) : (s.withShared sh).schedule = s.schedule := rfl

/-! ### The two views -/

@[simp] theorem Shared.view_cpu (sh : Shared) : sh.view .cpu = sh.memCpu := rfl
@[simp] theorem Shared.view_dev (sh : Shared) : sh.view .dev = sh.memDev := rfl

/-! ### The channel after power-on -/

theorem resetChans_length (n c : Nat) : (resetChans n c).length = n := by
  induction n generalizing c with
  | zero => rfl
  | succ n ih => simp [resetChans, ih]

theorem mem_resetChans {n c : Nat} {x : Chan} (h : x ∈ resetChans n c) : ∃ k, x = Chan.reset k := by
  induction n generalizing c with
  | zero => simp [resetChans] at h
  | succ n ih =>
    simp only [resetChans, List.mem_cons] at h
    rcases h with h | h
    · exact ⟨c, h⟩
    · exact ih h

end Sys2Proof.Machine
end

