-- ==== Sys2Proof/Laws/Memory.lean ====
section
/-! SUPPORT. The laws of host memory: what is read after a write, what a write leaves alone, and that every memory operation keeps
the canonical form. -/

namespace Sys2Proof.Machine

/-! ### Byte order -/

@[simp] theorem leBytes_length (k v : Nat) : (leBytes k v).length = k := by
  induction k generalizing v with
  | zero => rfl
  | succ k ih => simp [leBytes, ih]

theorem leNat_leBytes (k v : Nat) : leNat (leBytes k v) = v % 256 ^ k := by
  induction k generalizing v with
  | zero => simp [leBytes, leNat, Nat.mod_one]
  | succ k ih =>
    have : v % (256 * 256 ^ k) = v % 256 + 256 * (v / 256 % 256 ^ k) := Nat.mod_mul
    simp [leBytes, leNat, ih, pow_succ', this]

/-! ### Ranges -/

@[simp] theorem within_iff (a n x : Nat) : within a n x = true ↔ a ≤ x ∧ x < a + n := by
  simp [within]

@[simp] theorem mem_removeRange (xs : List Nat) (a n x : Nat) :
    x ∈ removeRange xs a n ↔ x ∈ xs ∧ ¬(a ≤ x ∧ x < a + n) := by
  simp only [removeRange, List.mem_filter, Bool.not_eq_true', ← Bool.not_eq_true, within_iff]

@[simp] theorem mem_addRange (xs : List Nat) (a n x : Nat) :
    x ∈ addRange xs a n ↔ x ∈ xs ∨ (a ≤ x ∧ x < a + n) := by
  simp only [addRange, List.mem_append, List.mem_filter, decide_eq_true_eq, List.mem_range'_1]
  constructor
  · rintro (h | h | h)
    · exact .inl h.1
    · exact .inr h
    · exact .inl h.1
  · rintro (h | h)
    · by_cases h₁ : x < a
      · exact .inl ⟨h, h₁⟩
      · by_cases h₂ : a + n ≤ x
        · exact .inr (.inr ⟨h, h₂⟩)
        · exact .inr (.inl ⟨by omega, by omega⟩)
    · exact .inr (.inl h)

theorem removeRange_rising {xs : List Nat} (h : xs.Pairwise (· < ·)) (a n : Nat) :
    (removeRange xs a n).Pairwise (· < ·) := h.filter _

theorem addRange_rising {xs : List Nat} (h : xs.Pairwise (· < ·)) (a n : Nat) :
    (addRange xs a n).Pairwise (· < ·) := by
  simp only [addRange, List.pairwise_append, List.mem_append, List.mem_filter, decide_eq_true_eq, List.mem_range'_1]
  refine ⟨h.filter _, ⟨List.pairwise_lt_range', h.filter _, ?_⟩, ?_⟩
  · intro x hx y hy; omega
  · rintro x hx y (hy | hy) <;> omega

/-! ### Reading after a write -/

theorem lookup_nil (x : Nat) : lookup [] x = none := rfl

theorem lookup_cons (c : Host.Cell) (m : Memory) (x : Nat) :
    lookup (c :: m) x = if c.1 = x then some c.2 else lookup m x := by
  by_cases h : c.1 = x <;> simp [lookup, h]

theorem lookup_append (m₁ m₂ : Memory) (x : Nat) :
    lookup (m₁ ++ m₂) x = (lookup m₁ x).or (lookup m₂ x) := by
  induction m₁ with
  | nil => simp [lookup_nil]
  | cons c m ih =>
    rw [List.cons_append, lookup_cons, lookup_cons, ih]
    split <;> simp

theorem lookup_filter (m : Memory) (p : Nat → Bool) (x : Nat) :
    lookup (m.filter fun c => p c.1) x = if p x then lookup m x else none := by
  induction m with
  | nil => simp [lookup_nil]
  | cons c m ih =>
    by_cases hc : c.1 = x
    · by_cases hp : p x <;> simp [lookup_cons, hc, hp, ih]
    · by_cases hp : p c.1 <;> simp [lookup_cons, hc, hp, ih]

theorem lookup_eq_none_of_notMem {m : Memory} {x : Nat} (h : ∀ c ∈ m, c.1 ≠ x) : lookup m x = none := by
  induction m with
  | nil => rfl
  | cons c m ih =>
    rw [lookup_cons, if_neg (h c (by simp)), ih fun d hd => h d (by simp [hd])]

theorem lookup_numbered (a : Nat) (bs : List Byte) (x : Nat) :
    lookup (numbered a bs) x = if a ≤ x then bs[x - a]? else none := by
  induction bs generalizing a with
  | nil => simp [numbered, lookup_nil]
  | cons b bs ih =>
    rw [numbered, lookup_cons, ih]
    by_cases h : a = x
    · subst h; simp
    · by_cases h' : a ≤ x
      · have : x - a = (x - (a + 1)) + 1 := by omega
        rw [if_neg h, if_pos (by omega), if_pos h', this, List.getElem?_cons_succ]
      · rw [if_neg h, if_neg (by omega), if_neg h']

/-- A write is seen at its own addresses and nowhere else. -/
theorem lookup_writeBytes (m : Memory) (a : Nat) (bs : List Byte) (x : Nat) :
    lookup (writeBytes m a bs) x = if a ≤ x ∧ x < a + bs.length then bs[x - a]? else lookup m x := by
  rw [writeBytes, lookup_append, lookup_append, lookup_filter m (fun y => decide (y < a)),
    lookup_filter m (fun y => decide (a + bs.length ≤ y)), lookup_numbered]
  by_cases h₁ : x < a
  · have h₂ : ¬ a ≤ x := by omega
    have h₃ : ¬ a + bs.length ≤ x := by omega
    simp [h₁, h₂, h₃]
  · by_cases h₂ : x < a + bs.length
    · have h₃ : ¬ a + bs.length ≤ x := by omega
      have h₄ : a ≤ x := by omega
      simp [h₁, h₂, h₃, h₄]
    · have h₃ : a + bs.length ≤ x := by omega
      have h₄ : a ≤ x := by omega
      have h₅ : bs[x - a]? = none := List.getElem?_eq_none (by omega)
      simp [h₁, h₂, h₃, h₄, h₅]

theorem lookup_forgetBytes (m : Memory) (a n x : Nat) :
    lookup (forgetBytes m a n) x = if a ≤ x ∧ x < a + n then none else lookup m x := by
  rw [forgetBytes, lookup_filter m (fun y => !within a n y)]
  by_cases h : a ≤ x ∧ x < a + n
  · have : within a n x = true := (within_iff a n x).2 h
    simp [h, this]
  · have : within a n x = false := by
      cases hw : within a n x with
      | false => rfl
      | true => exact absurd ((within_iff a n x).1 hw) h
    simp [h, this]

/-! ### The canonical form -/

theorem mem_numbered {a : Nat} {bs : List Byte} {c : Host.Cell} (h : c ∈ numbered a bs) :
    a ≤ c.1 ∧ c.1 < a + bs.length := by
  induction bs generalizing a with
  | nil => simp [numbered] at h
  | cons b bs ih =>
    simp only [numbered, List.mem_cons] at h
    rcases h with rfl | h
    · simp
    · have := ih h; simp only [List.length_cons]; omega

theorem numbered_rising (a : Nat) (bs : List Byte) : (numbered a bs).Pairwise (fun x y => x.1 < y.1) := by
  induction bs generalizing a with
  | nil => simp [numbered]
  | cons b bs ih =>
    simp only [numbered, List.pairwise_cons]
    refine ⟨fun c hc => ?_, ih _⟩
    have := mem_numbered hc
    omega

/-- A write inside the address space keeps the canonical form. -/
theorem writeBytes_wf {m : Memory} (h : Memory.wf m) {a : Nat} {bs : List Byte} (hb : a + bs.length ≤ 2 ^ 64) :
    Memory.wf (writeBytes m a bs) := by
  refine ⟨?_, ?_⟩
  · simp only [writeBytes, List.pairwise_append, List.mem_append, List.mem_filter, decide_eq_true_eq]
    refine ⟨h.1.filter _, ⟨numbered_rising _ _, h.1.filter _, ?_⟩, ?_⟩
    · intro x hx y hy
      have := mem_numbered hx; omega
    · rintro x hx y (hy | hy)
      · have := mem_numbered hy; omega
      · omega
  · intro c hc
    simp only [writeBytes, List.mem_append, List.mem_filter, decide_eq_true_eq] at hc
    rcases hc with hc | hc | hc
    · exact h.2 c hc.1
    · have := mem_numbered hc; omega
    · exact h.2 c hc.1

theorem forgetBytes_wf {m : Memory} (h : Memory.wf m) (a n : Nat) : Memory.wf (forgetBytes m a n) :=
  ⟨h.1.filter _, fun c hc => h.2 c (List.mem_of_mem_filter hc)⟩

theorem nil_wf : Memory.wf [] := ⟨List.Pairwise.nil, by simp⟩

/-! ### Reading a range -/

@[simp] theorem spell_length (fresh : Nat → Byte) (m : Memory) (a n : Nat) : (spell fresh m a n).length = n := by
  induction n generalizing m a with
  | zero => cases m <;> simp [spell]
  | succ n ih =>
    cases m with
    | nil => simp [spell, ih]
    | cons c m => simp only [spell]; split <;> simp [ih]

@[simp] theorem readBytes_length (sh : Shared) (v : View) (a n : Nat) : (readBytes sh v a n).length = n := by
  simp [readBytes]

theorem spell_getElem? (fresh : Nat → Byte) {m : Memory} (hm : m.Pairwise (fun x y => x.1 < y.1)) {a : Nat}
    (ha : ∀ c ∈ m, a ≤ c.1) {n k : Nat} (hk : k < n) :
    (spell fresh m a n)[k]? = some ((lookup m (a + k)).getD (fresh (a + k))) := by
  induction n generalizing m a k with
  | zero => omega
  | succ n ih =>
    cases m with
    | nil =>
      cases k with
      | zero => simp [spell, lookup_nil]
      | succ k =>
        have := ih (m := []) List.Pairwise.nil (a := a + 1) (by simp) (k := k) (by omega)
        simp only [spell, List.getElem?_cons_succ, this, lookup_nil]
        rw [show a + 1 + k = a + (k + 1) by omega]
    | cons c m =>
      obtain ⟨x, b⟩ := c
      rw [List.pairwise_cons] at hm
      have hxa : a ≤ x := ha (x, b) (by simp)
      by_cases hx : x = a
      · subst hx
        cases k with
        | zero => simp [spell, lookup_cons]
        | succ k =>
          have := ih hm.2 (a := x + 1) (fun c hc => hm.1 c hc) (k := k) (by omega)
          simp only [spell, if_true, List.getElem?_cons_succ, this, lookup_cons]
          rw [if_neg (by omega), show x + 1 + k = x + (k + 1) by omega]
      · cases k with
        | zero =>
          have : lookup m a = none := lookup_eq_none_of_notMem fun c hc => by
            have := hm.1 c hc; simp only at this; omega
          simp [spell, hx, lookup_cons, this]
        | succ k =>
          have := ih (m := (x, b) :: m) (List.pairwise_cons.2 hm) (a := a + 1)
            (by
              intro c hc
              rcases List.mem_cons.1 hc with rfl | hc
              · simp only; omega
              · have := hm.1 c hc; simp only at this; omega)
            (k := k) (by omega)
          simp only [spell, hx, if_false, List.getElem?_cons_succ, this]
          rw [show a + 1 + k = a + (k + 1) by omega]

/-- What a range read gives, byte by byte. -/
theorem readBytes_getElem? {sh : Shared} {v : View} (hm : Memory.wf (sh.view v)) {a n k : Nat} (hk : k < n) :
    (readBytes sh v a n)[k]? = some (byteAt sh v (a + k)) := by
  rw [readBytes, spell_getElem? _ (hm.1.filter _) _ hk, byteAt, lookup_filter _ (fun x => within a n x),
    if_pos ((within_iff a n (a + k)).2 ⟨by omega, by omega⟩)]
  intro c hc
  simp only [List.mem_filter, within_iff] at hc
  exact hc.2.1

/-- The plain reading of a range read. -/
theorem readBytes_eq {sh : Shared} {v : View} (hm : Memory.wf (sh.view v)) (a n : Nat) :
    readBytes sh v a n = (List.range n).map fun k => byteAt sh v (a + k) := by
  apply List.ext_getElem?
  intro k
  by_cases hk : k < n
  · rw [readBytes_getElem? hm hk]; simp [hk]
  · rw [List.getElem?_eq_none (by simp; omega), List.getElem?_eq_none (by simp; omega)]

/-! ### One byte after each operation on the shared state -/

theorem byteAt_def (sh : Shared) (v : View) (x : Nat) :
    byteAt sh v x = (lookup (sh.view v) x).getD (freshByteAt sh v x) := rfl

@[simp] theorem freshByteAt_congr {sh sh' : Shared} (h : sh'.pageAge = sh.pageAge) (v : View) (x : Nat) :
    freshByteAt sh' v x = freshByteAt sh v x := by simp [freshByteAt, ageOf, h]

/-- A CPU write is seen in the CPU view at its own addresses, and nowhere else in either view (20 R72). -/
theorem byteAt_writeCpu (sh : Shared) (a : Nat) (bs : List Byte) (v : View) (x : Nat) :
    byteAt (writeCpu sh a bs) v x =
      if v = .cpu ∧ a ≤ x ∧ x < a + bs.length then (bs[x - a]?).getD 0 else byteAt sh v x := by
  cases v with
  | cpu =>
    simp only [byteAt, writeCpu, Shared.view, lookup_writeBytes, true_and]
    by_cases h : a ≤ x ∧ x < a + bs.length
    · have hl : x - a < bs.length := by omega
      simp only [h, and_self, if_true, List.getElem?_eq_getElem hl, Option.getD_some]
    · simp only [h, if_false]; rfl
  | dev => simp [byteAt, writeCpu, Shared.view, freshByteAt, ageOf]

/-- A device write is seen in the device view at its own addresses, and nowhere else in either view (20 R72). -/
theorem byteAt_writeDev (sh : Shared) (a : Nat) (bs : List Byte) (v : View) (x : Nat) :
    byteAt (writeDev sh a bs) v x =
      if v = .dev ∧ a ≤ x ∧ x < a + bs.length then (bs[x - a]?).getD 0 else byteAt sh v x := by
  cases v with
  | dev =>
    simp only [byteAt, writeDev, Shared.view, lookup_writeBytes, true_and]
    by_cases h : a ≤ x ∧ x < a + bs.length
    · have hl : x - a < bs.length := by omega
      simp only [h, and_self, if_true, List.getElem?_eq_getElem hl, Option.getD_some]
    · simp only [h, if_false]; rfl
  | cpu => simp [byteAt, writeDev, Shared.view, freshByteAt, ageOf]

/-- After a publish the device view of the range is the CPU view, and nothing else has changed in either view (20 R73). -/
theorem byteAt_publish {sh : Shared} (hc : Memory.wf sh.memCpu) (a n : Nat) (v : View) (x : Nat) :
    byteAt (publish sh a n) v x = if v = .dev ∧ a ≤ x ∧ x < a + n then byteAt sh .cpu x else byteAt sh v x := by
  cases v with
  | dev =>
    have hv : (publish sh a n).view .dev = writeBytes sh.memDev a (readBytes sh .cpu a n) := rfl
    have hf : freshByteAt (publish sh a n) .dev x = freshByteAt sh .dev x := rfl
    rw [byteAt_def, hv, hf, lookup_writeBytes, readBytes_length]
    by_cases h : a ≤ x ∧ x < a + n
    · have hr := readBytes_getElem? (sh := sh) (v := .cpu) hc (a := a) (n := n) (k := x - a) (by omega)
      rw [show a + (x - a) = x by omega] at hr
      simp [h, hr]
    · simp only [h, if_false, and_false]; rfl
  | cpu => rfl

/-- After a sync the CPU view of the range is the device view, and nothing else has changed in either view (20 R74). -/
theorem byteAt_syncCpu {sh : Shared} (hd : Memory.wf sh.memDev) (a n : Nat) (v : View) (x : Nat) :
    byteAt (syncCpu sh a n) v x = if v = .cpu ∧ a ≤ x ∧ x < a + n then byteAt sh .dev x else byteAt sh v x := by
  cases v with
  | cpu =>
    have hv : (syncCpu sh a n).view .cpu = writeBytes sh.memCpu a (readBytes sh .dev a n) := rfl
    have hf : freshByteAt (syncCpu sh a n) .cpu x = freshByteAt sh .cpu x := rfl
    rw [byteAt_def, hv, hf, lookup_writeBytes, readBytes_length]
    by_cases h : a ≤ x ∧ x < a + n
    · have hr := readBytes_getElem? (sh := sh) (v := .dev) hd (a := a) (n := n) (k := x - a) (by omega)
      rw [show a + (x - a) = x by omega] at hr
      simp [h, hr]
    · simp only [h, if_false, and_false]; rfl
  | dev => rfl

end Sys2Proof.Machine
end

