-- ==== Sys2Proof/Laws/Ops.lean ====
section
/-! SUPPORT. What each shared operation can do, said once: the sequencing of operations, the channel an operation runs on, and
that every operation over the shared state keeps its canonical form. -/

namespace Sys2Proof.Machine

open Host (Outcome)

/-! ### Sequencing -/

@[simp] theorem andThen_next {α β : Type} (a : α) (f : α → Out β) : andThen (.next a) f = f a := rfl
@[simp] theorem andThen_fault {α β : Type} (r : Fault) (f : α → Out β) : andThen (.fault r) f = .fault r := rfl
@[simp] theorem andThen_refused {α β : Type} (r : Refusal) (f : α → Out β) : andThen (.refused r) f = .refused r := rfl

theorem andThen_eq_next {α β : Type} {x : Out α} {f : α → Out β} {b : β} :
    andThen x f = .next b ↔ ∃ a, x = .next a ∧ f a = .next b := by
  cases x <;> simp [andThen]

theorem andThen_eq_fault {α β : Type} {x : Out α} {f : α → Out β} {e : Fault} :
    andThen x f = .fault e ↔ x = .fault e ∨ ∃ a, x = .next a ∧ f a = .fault e := by
  cases x <;> simp [andThen]

theorem next_inj {α : Type} {a b : α} : (Outcome.next a : Out α) = .next b ↔ b = a :=
  ⟨fun h => (Outcome.next.inj h).symm, fun h => h ▸ rfl⟩

/-! ### The channel of an operation -/

theorem onChannel_at {s : State} {c : Chan} (h : s.At c) (f : Local → Out Local) :
    onChannel s f = andThen (f ⟨c, s.shared⟩) fun l => .next (s.put l) := by
  simp only [onChannel, State.At] at *
  rw [h]

theorem onChannel_eq_next {s t : State} {f : Local → Out Local} :
    onChannel s f = .next t ↔ ∃ c l, s.At c ∧ f ⟨c, s.shared⟩ = .next l ∧ t = s.put l := by
  unfold onChannel State.At
  split
  · rename_i h; simp [h]
  · rename_i c h
    simp only [h, andThen_eq_next, Option.some.injEq, Outcome.next.injEq]
    constructor
    · rintro ⟨l, hl, rfl⟩; exact ⟨c, l, rfl, hl, rfl⟩
    · rintro ⟨_, l, rfl, hl, rfl⟩; exact ⟨l, hl, rfl⟩

theorem onChannel_eq_fault {s : State} {f : Local → Out Local} {e : Fault} :
    onChannel s f = .fault e ↔ ∃ c, s.At c ∧ f ⟨c, s.shared⟩ = .fault e := by
  unfold onChannel State.At
  split
  · rename_i h; simp [h]
  · rename_i c h
    simp [h, andThen_eq_fault]

/-- After an operation its channel is what the operation left. -/
theorem put_at {s : State} {c : Chan} (h : s.At c) (l : Local) : (s.put l).At l.chan := by
  unfold State.At at *
  obtain ⟨hlt, -⟩ := List.getElem?_eq_some_iff.1 h
  simp [hlt]

/-- An operation leaves every other channel as it was (60 R278). -/
theorem put_other (s : State) (l : Local) {k : Nat} (hk : k ≠ s.cur) : (s.put l).chans[k]? = s.chans[k]? := by
  simp [List.getElem?_set_ne (Ne.symm hk)]

theorem at_mem {s : State} {c : Chan} (h : s.At c) : c ∈ s.chans := List.mem_of_getElem? h

/-- Two updates of one place are the second. -/
@[simp] theorem put_put (s : State) (l l' : Local) : (s.put l).put l' = s.put l' := by
  simp [State.put]

theorem hostCall_free {f : Local → Out Local} {l : Local} (h : l.chan.host = none) : hostCall f l = f l := by
  simp [hostCall, h]

theorem hostCall_eq_next {f : Local → Out Local} {l l' : Local} :
    hostCall f l = .next l' ↔ l.chan.host = none ∧ f l = .next l' := by
  simp only [hostCall, Option.isNone_iff_eq_none]
  split <;> simp_all

theorem hostCall_eq_fault {f : Local → Out Local} {l : Local} {e : Fault} :
    hostCall f l = .fault e ↔ l.chan.host = none ∧ f l = .fault e := by
  simp only [hostCall, Option.isNone_iff_eq_none]
  split <;> simp_all

@[simp] theorem finish_chan (r : Result) (l : Local) : (finish r l).chan = { l.chan with result := r } := rfl
@[simp] theorem finish_shared (r : Result) (l : Local) : (finish r l).shared = l.shared := rfl

/-! ### Pages -/

theorem pageOf_le (a : Nat) : pageOf a ≤ a := by unfold pageOf; omega
theorem lt_pageOf_add (a : Nat) : a < pageOf a + Config.pageSize := by
  have := Nat.mod_lt a (show 0 < 4096 by omega)
  unfold pageOf Config.pageSize at *; omega
@[simp] theorem pageOf_aligned (a : Nat) : pageOf a % Config.pageSize = 0 := by
  unfold pageOf; have := Nat.div_add_mod a Config.pageSize
  have h : a - a % Config.pageSize = Config.pageSize * (a / Config.pageSize) := by omega
  rw [h]; simp

theorem pageOf_eq (a : Nat) : pageOf a = a / Config.pageSize * Config.pageSize := by
  unfold pageOf Config.pageSize; omega

/-- The page that a byte of an aligned page lies in. -/
theorem pageOf_within {p k : Nat} (hp : p % Config.pageSize = 0) (hk : k < Config.pageSize) : pageOf (p + k) = p := by
  unfold pageOf Config.pageSize at *; omega

theorem pagesAllocated_iff (allocated : List Nat) (p n : Nat) :
    pagesAllocated allocated p n = true ↔ ∀ q, p ≤ q → q < p + n → q * Config.pageSize ∈ allocated := by
  induction n generalizing p with
  | zero => simp only [pagesAllocated, true_iff]; intro q h₁ h₂; omega
  | succ n ih =>
    simp only [pagesAllocated, Bool.and_eq_true, List.contains_iff_mem, ih]
    constructor
    · rintro ⟨h₁, h₂⟩ q hq₁ hq₂
      rcases Nat.eq_or_lt_of_le hq₁ with rfl | hlt
      · exact h₁
      · exact h₂ q hlt (by omega)
    · intro h
      exact ⟨h p (le_refl _) (by omega), fun q h₁ h₂ => h q (by omega) (by omega)⟩

/-- The range test of FLUSH and CPU_SYNC says what 20 R73 and R74 say: at least one byte, each byte in an allocated page. -/
theorem rangeAllocated_iff (sh : Shared) (a n : Nat) :
    rangeAllocated sh a n = true ↔ 1 ≤ n ∧ ∀ k, k < n → pageOf (a + k) ∈ sh.allocated := by
  simp only [rangeAllocated, Bool.and_eq_true, decide_eq_true_eq, pagesAllocated_iff]
  refine and_congr_right fun hn => ⟨fun h k hk => ?_, fun h q hq₁ hq₂ => ?_⟩
  · rw [pageOf_eq]
    apply h
    · exact Nat.div_le_div_right (by omega)
    · have : (a + k) / Config.pageSize ≤ (a + n - 1) / Config.pageSize := Nat.div_le_div_right (by omega)
      omega
  · by_cases hqa : q * Config.pageSize ≤ a
    · have h0 := h 0 (by omega)
      rw [pageOf_eq] at h0
      have : a / Config.pageSize = q := by unfold Config.pageSize at *; omega
      simpa [this] using h0
    · have h0 := h (q * Config.pageSize - a) (by unfold Config.pageSize at *; omega)
      rw [pageOf_eq] at h0
      have : (a + (q * Config.pageSize - a)) / Config.pageSize = q := by unfold Config.pageSize at *; omega
      simpa [this] using h0

/-! ### The shared state keeps its form -/

theorem Shared.Form.page_bound {sh : Shared} (h : sh.Form) {p : Nat} (hp : p ∈ sh.allocated) :
    p + Config.pageSize ≤ 2 ^ 64 := by
  have := h.allocatedPages p hp
  unfold Config.pageSize at *; omega

theorem Shared.Form.byte_bound {sh : Shared} (h : sh.Form) {a : Nat} (hp : pageOf a ∈ sh.allocated) : a < 2 ^ 64 := by
  have h₁ := h.page_bound hp
  have h₂ := lt_pageOf_add a
  omega

theorem Shared.Form.range_bound {sh : Shared} (h : sh.Form) {a n : Nat} (hr : rangeAllocated sh a n = true) :
    a + n ≤ 2 ^ 64 := by
  obtain ⟨h₁, h₂⟩ := (rangeAllocated_iff sh a n).1 hr
  have := h.byte_bound (h₂ (n - 1) (by omega))
  omega

theorem Shared.Form.view {sh : Shared} (h : sh.Form) (v : View) : Memory.wf (sh.view v) := by
  cases v
  · exact h.cpu
  · exact h.dev

theorem addRange_inside {xs : List Nat} (h : ∀ x ∈ xs, x < 2 ^ 64) {a n : Nat} (hb : a + n ≤ 2 ^ 64) :
    ∀ x ∈ addRange xs a n, x < 2 ^ 64 := by
  intro x hx
  rcases (mem_addRange xs a n x).1 hx with hx | hx
  · exact h x hx
  · omega

theorem removeRange_inside {xs : List Nat} (h : ∀ x ∈ xs, x < 2 ^ 64) (a n : Nat) :
    ∀ x ∈ removeRange xs a n, x < 2 ^ 64 := fun x hx => h x ((mem_removeRange xs a n x).1 hx).1

theorem writeCpu_form {sh : Shared} (h : sh.Form) {a : Nat} {bs : List Byte} (hb : a + bs.length ≤ 2 ^ 64) :
    (writeCpu sh a bs).Form :=
  ⟨writeBytes_wf h.cpu hb, h.dev, addRange_rising h.dirtyRising _ _, addRange_inside h.dirtyInside hb,
    h.allocatedRising, h.allocatedPages⟩

theorem writeDev_form {sh : Shared} (h : sh.Form) {a : Nat} {bs : List Byte} (hb : a + bs.length ≤ 2 ^ 64) :
    (writeDev sh a bs).Form :=
  ⟨h.cpu, writeBytes_wf h.dev hb, h.dirtyRising, h.dirtyInside, h.allocatedRising, h.allocatedPages⟩

theorem publish_form {sh : Shared} (h : sh.Form) {a n : Nat} (hb : a + n ≤ 2 ^ 64) : (publish sh a n).Form :=
  ⟨h.cpu, writeBytes_wf h.dev (by simpa using hb), removeRange_rising h.dirtyRising _ _,
    removeRange_inside h.dirtyInside _ _, h.allocatedRising, h.allocatedPages⟩

theorem syncCpu_form {sh : Shared} (h : sh.Form) {a n : Nat} (hb : a + n ≤ 2 ^ 64) : (syncCpu sh a n).Form :=
  ⟨writeBytes_wf h.cpu (by simpa using hb), h.dev, removeRange_rising h.dirtyRising _ _,
    removeRange_inside h.dirtyInside _ _, h.allocatedRising, h.allocatedPages⟩

/-- A refill keeps the form. -/
theorem refill_form {sh : Shared} (h : sh.Form) {a : Nat} {bs : List Byte} (hb : a + bs.length ≤ 2 ^ 64) :
    ({ sh with memCpu := writeBytes sh.memCpu a bs } : Shared).Form :=
  ⟨writeBytes_wf h.cpu hb, h.dev, h.dirtyRising, h.dirtyInside, h.allocatedRising, h.allocatedPages⟩

/-- A draw keeps the form. -/
theorem draws_form {sh : Shared} (h : sh.Form) (n : Nat) : ({ sh with draws := n } : Shared).Form :=
  ⟨h.cpu, h.dev, h.dirtyRising, h.dirtyInside, h.allocatedRising, h.allocatedPages⟩

theorem freePage_form {sh : Shared} (h : sh.Form) (p : Nat) : (freePage sh p).Form :=
  ⟨h.cpu, h.dev, removeRange_rising h.dirtyRising _ _, removeRange_inside h.dirtyInside _ _, h.allocatedRising.filter _,
    fun q hq => h.allocatedPages q (List.mem_of_mem_filter hq)⟩

@[simp] theorem mem_freePage (sh : Shared) (p q : Nat) : q ∈ (freePage sh p).allocated ↔ q ∈ sh.allocated ∧ q ≠ p := by
  simp [freePage]

theorem freePages_form {sh : Shared} (h : sh.Form) (ps : List Addr) : (freePages sh ps).Form := by
  induction ps generalizing sh with
  | nil => exact h
  | cons p ps ih => exact ih (freePage_form h p.toNat)

theorem mem_freePages (sh : Shared) (ps : List Addr) (q : Nat) :
    q ∈ (freePages sh ps).allocated ↔ q ∈ sh.allocated ∧ q ∉ ps.map BitVec.toNat := by
  induction ps generalizing sh with
  | nil => simp [freePages]
  | cons p ps ih =>
    have : freePages sh (p :: ps) = freePages (freePage sh p.toNat) ps := rfl
    rw [this, ih, mem_freePage]
    simp only [List.map_cons, List.mem_cons, not_or]
    tauto

/-- What freeing pages leaves of everything but `allocated`: their bytes leave `dirty`, and nothing else changes. -/
theorem freePages_rest (sh : Shared) (ps : List Addr) :
    (∀ a, a ∈ (freePages sh ps).dirty ↔
      a ∈ sh.dirty ∧ ∀ p ∈ ps, ¬(p.toNat ≤ a ∧ a < p.toNat + Config.pageSize)) ∧
    (freePages sh ps).memCpu = sh.memCpu ∧ (freePages sh ps).memDev = sh.memDev ∧
    (freePages sh ps).pageAge = sh.pageAge ∧ (freePages sh ps).allocIn = sh.allocIn ∧ (freePages sh ps).draws = sh.draws := by
  induction ps generalizing sh with
  | nil => simp [freePages]
  | cons p ps ih =>
    have e : freePages sh (p :: ps) = freePages (freePage sh p.toNat) ps := rfl
    rw [e]
    refine ⟨fun a => ?_, (ih _).2⟩
    rw [(ih _).1, freePage, mem_removeRange, and_assoc, List.forall_mem_cons]

theorem freshPage_form {sh : Shared} (h : sh.Form) {p : Nat} (hp : p % Config.pageSize = 0) (hb : p < 2 ^ 64) :
    (freshPage sh p).Form := by
  refine ⟨forgetBytes_wf h.cpu _ _, forgetBytes_wf h.dev _ _, removeRange_rising h.dirtyRising _ _,
    removeRange_inside h.dirtyInside _ _, addRange_rising h.allocatedRising _ _, ?_⟩
  intro q hq
  rcases (mem_addRange sh.allocated p 1 q).1 hq with hq | hq
  · exact h.allocatedPages q hq
  · have : q = p := by omega
    exact this ▸ ⟨hp, hb⟩

@[simp] theorem mem_freshPage (sh : Shared) (p q : Nat) :
    q ∈ (freshPage sh p).allocated ↔ q ∈ sh.allocated ∨ q = p := by
  simp only [freshPage, addOne, mem_addRange]
  exact or_congr_right ⟨fun h => by omega, fun h => by omega⟩

/-! ### The allocator -/

theorem maskLow_bit (j : Fin 32) : (0xFFFFF000#32).getLsbD j.val = decide (12 ≤ j.val) := by revert j; decide

/-- The word of a table register is the word written with bits 11:0 cleared. -/
theorem tableLowWord_field (lo : Word) : tableLowWord (tableLowField lo) = lo &&& 0xFFFFF000#32 := by
  unfold tableLowWord tableLowField
  apply BitVec.eq_of_getLsbD_eq
  intro i hi
  rw [BitVec.getLsbD_append, BitVec.getLsbD_and, BitVec.getLsbD_extractLsb', maskLow_bit ⟨i, hi⟩]
  by_cases h : i < 12
  · simp [h]
  · simp [h, show 12 + (i - 12) = i by omega, show i - 12 < 20 by omega, show 12 ≤ i by omega]

/-- A page address is page-aligned. -/
theorem pageAddress_aligned (hi lo : Word) : (pageAddress hi lo).toNat % Config.pageSize = 0 := by
  unfold pageAddress tableLowWord
  have h : (hi ++ (tableLowField lo ++ 0#12)).toNat = (hi.toNat * 2 ^ 20 + (tableLowField lo).toNat) * 4096 := by
    rw [BitVec.toNat_append, BitVec.toNat_append]
    simp only [BitVec.toNat_ofNat, Nat.shiftLeft_eq]
    have := (tableLowField lo).isLt
    rw [← Nat.shiftLeft_eq, ← Nat.shiftLeft_eq, Nat.zero_mod, Nat.or_zero,
      ← Nat.shiftLeft_add_eq_or_of_lt (by rw [Nat.shiftLeft_eq]; omega)]
    simp only [Nat.shiftLeft_eq]; omega
  rw [h]; simp [Config.pageSize]

/-- What `alloc_page` can do. -/
theorem allocPage_cases (sh : Shared) :
    (∃ sh', allocPage sh = (none, sh') ∧ sh'.allocated = sh.allocated ∧ (sh.Form → sh'.Form)) ∨
    (∃ sh' p, allocPage sh = (some p, sh') ∧ p.toNat % Config.pageSize = 0 ∧ p.toNat ∉ sh.allocated ∧
      (∀ q, q ∈ sh'.allocated ↔ q ∈ sh.allocated ∨ q = p.toNat) ∧ (sh.Form → sh'.Form)) := by
  have hd : (drawAnswer sh).2.allocated = sh.allocated ∧ (sh.Form → (drawAnswer sh).2.Form) := by
    unfold drawAnswer
    split
    · exact ⟨rfl, fun h => ⟨h.cpu, h.dev, h.dirtyRising, h.dirtyInside, h.allocatedRising, h.allocatedPages⟩⟩
    · exact ⟨rfl, fun h => draws_form h _⟩
  unfold allocPage
  split
  · rename_i sh' hs; rw [hs] at hd; exact .inl ⟨sh', rfl, hd⟩
  · rename_i a sh' hs
    rw [hs] at hd
    simp only [List.contains_iff_mem]
    split
    · exact .inl ⟨sh', rfl, hd⟩
    · rename_i hn
      refine .inr ⟨_, _, rfl, pageAddress_aligned _ _, hd.1 ▸ hn, fun q => ?_, fun h => ?_⟩
      · rw [mem_freshPage, hd.1]
      · exact freshPage_form (hd.2 h) (pageAddress_aligned _ _) (BitVec.isLt _)

/-- What the allocation of several pages can do: the pages given are new, distinct and aligned, and `allocated` has grown by
exactly them, whether or not all were given. -/
theorem allocPages_spec {k : Nat} {got₀ got : List Addr} {sh sh' : Shared} {ok : Bool}
    (h : allocPages k got₀ sh = (ok, got, sh')) :
    ∃ new, got = got₀ ++ new ∧ (ok = true → new.length = k) ∧ (ok = false → new.length < k) ∧
      (new.map BitVec.toNat).Nodup ∧
      (∀ p ∈ new, p.toNat % Config.pageSize = 0 ∧ p.toNat ∉ sh.allocated) ∧
      (∀ q, q ∈ sh'.allocated ↔ q ∈ sh.allocated ∨ q ∈ new.map BitVec.toNat) ∧ (sh.Form → sh'.Form) := by
  induction k generalizing got₀ sh with
  | zero =>
    simp only [allocPages, Prod.mk.injEq] at h
    obtain ⟨rfl, rfl, rfl⟩ := h
    exact ⟨[], by simp⟩
  | succ k ih =>
    unfold allocPages at h
    rcases allocPage_cases sh with ⟨sh₁, h₁, ha, hf⟩ | ⟨sh₁, p, h₁, hp, hn, ha, hf⟩
    · rw [h₁] at h
      simp only [Prod.mk.injEq] at h
      obtain ⟨rfl, rfl, rfl⟩ := h
      exact ⟨[], by simp [ha]; exact hf⟩
    · rw [h₁] at h
      obtain ⟨new, rfl, h₂, h₃, h₄, h₅, h₆, h₇⟩ := ih h
      refine ⟨p :: new, by simp, fun e => by simp [h₂ e], fun e => by simpa using h₃ e, ?_, ?_, ?_, fun e => h₇ (hf e)⟩
      · rw [List.map_cons, List.nodup_cons]
        refine ⟨fun hm => ?_, h₄⟩
        obtain ⟨x, hx, hxe⟩ := List.mem_map.1 hm
        exact (h₅ x hx).2 ((ha _).2 (.inr hxe))
      · intro x hx
        rcases List.mem_cons.1 hx with rfl | hx
        · exact ⟨hp, hn⟩
        · exact ⟨(h₅ x hx).1, fun hm => (h₅ x hx).2 ((ha _).2 (.inl hm))⟩
      · intro q
        rw [h₆, ha]
        simp only [List.map_cons, List.mem_cons]
        tauto

end Sys2Proof.Machine
end

