-- ==== Sys2Proof/Laws/Access.lean ====
section
/-! SUPPORT. What the register accesses, the landings, the visibility operations and the installation of tables can do: for each
one lemma that says everything, and the conditions under which it answers a next state. -/

namespace Sys2Proof.Machine

open Host (Outcome)

/-! ### Landing -/

theorem landBytes_eq_next {q : List InFlight} {sh sh' : Shared} :
    landBytes q sh = .next sh' ↔ (∀ e ∈ q, pageOf e.addr.toNat ∈ sh.allocated) ∧ sh' = landed q sh := by
  induction q generalizing sh with
  | nil => simp [landBytes, landed, eq_comm]
  | cons e q ih =>
    simp only [landBytes, andThen_eq_next, landByte, List.contains_iff_mem, List.mem_cons, forall_eq_or_imp]
    constructor
    · rintro ⟨a, ha, hq⟩
      split at ha
      · rename_i hm
        obtain rfl := Outcome.next.inj ha
        obtain ⟨h₁, rfl⟩ := ih.1 hq
        exact ⟨⟨hm, h₁⟩, rfl⟩
      · cases ha
    · rintro ⟨⟨hm, h₁⟩, rfl⟩
      exact ⟨writeDev sh e.addr.toNat [e.byte], by rw [if_pos hm], ih.2 ⟨h₁, rfl⟩⟩

theorem landBytes_fault {q : List InFlight} {sh : Shared} (h : ∃ e ∈ q, pageOf e.addr.toNat ∉ sh.allocated) :
    landBytes q sh = .fault .dmaToFreedPage := by
  induction q generalizing sh with
  | nil => simp at h
  | cons e q ih =>
    simp only [landBytes, landByte, List.contains_iff_mem]
    split
    · rename_i hm
      obtain ⟨x, hx, hn⟩ := h
      rcases List.mem_cons.1 hx with rfl | hx
      · exact absurd hm hn
      · exact ih ⟨x, hx, hn⟩
    · rfl

@[simp] theorem landed_allocated (q : List InFlight) (sh : Shared) : (landed q sh).allocated = sh.allocated := by
  induction q generalizing sh with
  | nil => rfl
  | cons e q ih => exact ih _

@[simp] theorem landed_memCpu (q : List InFlight) (sh : Shared) : (landed q sh).memCpu = sh.memCpu := by
  induction q generalizing sh with
  | nil => rfl
  | cons e q ih => exact ih _

@[simp] theorem landed_dirty (q : List InFlight) (sh : Shared) : (landed q sh).dirty = sh.dirty := by
  induction q generalizing sh with
  | nil => rfl
  | cons e q ih => exact ih _

theorem landed_form {q : List InFlight} {sh : Shared} (h : sh.Form) : (landed q sh).Form := by
  induction q generalizing sh with
  | nil => exact h
  | cons e q ih =>
    refine ih (writeDev_form h ?_)
    have := e.addr.isLt
    simp only [List.length_singleton]; omega

/-! ### Writes of registers -/

theorem enableRefusal_eq_none {c : Chan} :
    enableRefusal c = none ↔ c.needsReset = false ∧ c.rst = false ∧ c.blockSize.toNat ≠ 0 ∧
      c.blockSize.toNat ≤ Config.tableCapacity ∧ c.totalSize.toNat = modeSlots c * c.blockSize.toNat := by
  unfold enableRefusal
  split
  · simp_all
  · split
    · simp_all
    · split
      · rename_i h; simp only [reduceCtorEq, false_iff]; rintro ⟨-, -, h₁, h₂, -⟩; rcases h with h | h
        · exact h₁ h
        · omega
      · rename_i h; simp only [not_or, Nat.not_lt] at h
        split
        · simp_all
        · simp_all

/-- What a write of `DMA_ENABLE` can do (45 R220). -/
theorem writeEnable_cases {v : Word} {l l' : Local} (h : writeEnable v l = .next l') :
    (bit0 v = l.chan.en ∧ l' = l) ∨
    (bit0 v = true ∧ l.chan.en = false ∧ enableRefusal l.chan = none ∧ l' = l.withChan { l.chan with en := true }) ∨
    (bit0 v = false ∧ l.chan.en = true ∧ (∀ e ∈ l.chan.inflight, pageOf e.addr.toNat ∈ l.shared.allocated) ∧
      l' = ⟨{ l.chan with inflight := [], en := false, needsReset := true }, landed l.chan.inflight l.shared⟩) := by
  unfold writeEnable at h
  split at h
  · rename_i hc
    simp only [Bool.and_eq_true, Bool.not_eq_true'] at hc
    unfold enableUnit at h
    split at h
    · cases h
    · rename_i hr
      exact .inr (.inl ⟨hc.1, hc.2, hr, (Outcome.next.inj h).symm⟩)
  · split at h
    · rename_i hc
      simp only [Bool.and_eq_true, Bool.not_eq_true'] at hc
      unfold disableUnit at h
      obtain ⟨sh, h₁, h₂⟩ := andThen_eq_next.1 h
      obtain ⟨h₃, rfl⟩ := landBytes_eq_next.1 h₁
      exact .inr (.inr ⟨hc.1, hc.2, h₃, (Outcome.next.inj h₂).symm⟩)
    · rename_i h₁ h₂
      refine .inl ⟨?_, (Outcome.next.inj h).symm⟩
      cases hb : bit0 v <;> cases he : l.chan.en <;> simp_all

@[simp] theorem writeEnable_zero_off {l : Local} (h : l.chan.en = false) : writeEnable 0 l = .next l := by
  simp [writeEnable, h, bit0]

theorem writeBufferMode_eq_next {v : Word} {l l' : Local} :
    writeBufferMode v l = .next l' ↔
      (l.chan.en = true → rstField v = false ∧ slotCountField v = l.chan.slotCountM1) ∧
      l' = l.withChan { l.chan with slotCountM1 := slotCountField v, rst := rstField v, trackDirty := false } := by
  unfold writeBufferMode
  split
  · rename_i h
    simp only [Bool.and_eq_true, Bool.or_eq_true, decide_eq_true_eq] at h
    simp only [reduceCtorEq, false_iff, not_and]
    intro h'
    obtain ⟨h₁, h₂⟩ := h' h.1
    rcases h.2 with h₃ | h₃
    · simp [h₁] at h₃
    · exact absurd h₂ h₃
  · rename_i h
    simp only [Bool.and_eq_true, Bool.or_eq_true, decide_eq_true_eq, not_and, not_or] at h
    simp only [Outcome.next.injEq, eq_comm (a := l')]
    refine ⟨fun e => ⟨fun he => ?_, e⟩, fun e => e.2⟩
    obtain ⟨h₁, h₂⟩ := h he
    exact ⟨by simpa using h₁, by simpa using h₂⟩

theorem whileStopped_eq_next {l l' : Local} {c : Chan} :
    whileStopped l c = .next l' ↔ l.chan.en = false ∧ l' = l.withChan c := by
  unfold whileStopped
  split
  · rename_i h; simp [h]
  · rename_i h; rw [next_inj]; simp [h]

/-! ### Visibility -/

theorem flushRange_eq_next {a n : Nat} {l l' : Local} :
    flushRange a n l = .next l' ↔ rangeAllocated l.shared a n = true ∧ l' = l.withShared (publish l.shared a n) := by
  unfold flushRange
  split
  · rename_i h; rw [next_inj]; simp [h]
  · rename_i h; simp [h]

theorem syncRange_eq_next {a n : Nat} {l l' : Local} :
    syncRange a n l = .next l' ↔ rangeAllocated l.shared a n = true ∧ l' = l.withShared (syncCpu l.shared a n) := by
  unfold syncRange
  split
  · rename_i h; rw [next_inj]; simp [h]
  · rename_i h; simp [h]

@[simp] theorem publish_allocated (sh : Shared) (a n : Nat) : (publish sh a n).allocated = sh.allocated := rfl
@[simp] theorem syncCpu_allocated (sh : Shared) (a n : Nat) : (syncCpu sh a n).allocated = sh.allocated := rfl

@[simp] theorem rangeAllocated_publish (sh : Shared) (a n b m : Nat) :
    rangeAllocated (publish sh a n) b m = rangeAllocated sh b m := rfl
@[simp] theorem rangeAllocated_syncCpu (sh : Shared) (a n b m : Nat) :
    rangeAllocated (syncCpu sh a n) b m = rangeAllocated sh b m := rfl

@[simp] theorem published_allocated (ps : List Addr) (sh : Shared) : (published ps sh).allocated = sh.allocated := by
  induction ps generalizing sh with
  | nil => rfl
  | cons p ps ih => exact ih _

@[simp] theorem synced_allocated (ps : List Addr) (sh : Shared) : (synced ps sh).allocated = sh.allocated := by
  induction ps generalizing sh with
  | nil => rfl
  | cons p ps ih => exact ih _

theorem published_form {ps : List Addr} {sh : Shared} (h : sh.Form)
    (hp : ∀ p ∈ ps, rangeAllocated sh p.toNat Config.pageSize = true) : (published ps sh).Form := by
  induction ps generalizing sh with
  | nil => exact h
  | cons p ps ih =>
    exact ih (publish_form h (h.range_bound (hp p (by simp)))) fun q hq => hp q (by simp [hq])

theorem synced_form {ps : List Addr} {sh : Shared} (h : sh.Form)
    (hp : ∀ p ∈ ps, rangeAllocated sh p.toNat Config.pageSize = true) : (synced ps sh).Form := by
  induction ps generalizing sh with
  | nil => exact h
  | cons p ps ih =>
    exact ih (syncCpu_form h (h.range_bound (hp p (by simp)))) fun q hq => hp q (by simp [hq])

/-- A whole page that is allocated may be flushed and synced. -/
theorem rangeAllocated_page {sh : Shared} {p : Nat} (ha : p % Config.pageSize = 0) (hm : p ∈ sh.allocated) :
    rangeAllocated sh p Config.pageSize = true :=
  (rangeAllocated_iff _ _ _).2 ⟨by simp, fun k hk => by rwa [pageOf_within ha hk]⟩

theorem syncPages_eq_next {ps : List Addr} {l l' : Local} :
    syncPages ps l = .next l' ↔
      (∀ p ∈ ps, rangeAllocated l.shared p.toNat Config.pageSize = true) ∧ l' = l.withShared (synced ps l.shared) := by
  induction ps generalizing l with
  | nil => rw [syncPages, next_inj]; simp [synced, Local.withShared]
  | cons p ps ih =>
    simp only [syncPages, andThen_eq_next, syncRange_eq_next, ih, List.mem_cons, forall_eq_or_imp]
    constructor
    · rintro ⟨a, ⟨h₁, rfl⟩, h₂, rfl⟩
      exact ⟨⟨h₁, h₂⟩, rfl⟩
    · rintro ⟨⟨h₁, h₂⟩, rfl⟩
      exact ⟨_, ⟨h₁, rfl⟩, h₂, rfl⟩

/-! ### Installing tables (40 R135) -/

/-- The `j`-th table register's halves after the tables `ts` have been installed from register `i` on. -/
def installedLow (i : Nat) (ts : List Addr) (old : Vector (BitVec 20) 8) : Vector (BitVec 20) 8 :=
  Vector.ofFn fun j => if h : i ≤ j.val ∧ j.val < i + ts.length then tableLowField (lowHalf (ts[j.val - i]'(by omega)))
    else old.get j

/-- The high halves. -/
def installedHigh (i : Nat) (ts : List Addr) (old : Vector Word 8) : Vector Word 8 :=
  Vector.ofFn fun j => if h : i ≤ j.val ∧ j.val < i + ts.length then highHalf (ts[j.val - i]'(by omega)) else old.get j

/-- A channel whose table registers hold the tables of a ring. -/
def installedChan (i : Nat) (ts : List Addr) (c : Chan) : Chan :=
  { c with tableLow := installedLow i ts c.tableLow, tableHigh := installedHigh i ts c.tableHigh }

theorem installedLow_nil (i : Nat) (old : Vector (BitVec 20) 8) : installedLow i [] old = old := by
  apply Vector.ext
  intro j hj
  simp only [installedLow, List.length_nil, Nat.add_zero, Vector.getElem_ofFn]
  rw [dif_neg (by omega)]; rfl

theorem installedHigh_nil (i : Nat) (old : Vector Word 8) : installedHigh i [] old = old := by
  apply Vector.ext
  intro j hj
  simp only [installedHigh, List.length_nil, Nat.add_zero, Vector.getElem_ofFn]
  rw [dif_neg (by omega)]; rfl

theorem installedLow_cons (i : Nat) (h : i < 8) (t : Addr) (ts : List Addr) (old : Vector (BitVec 20) 8) :
    installedLow (i + 1) ts (old.set i (tableLowField (lowHalf t)) h) = installedLow i (t :: ts) old := by
  apply Vector.ext
  intro j hj
  simp only [installedLow, Vector.getElem_ofFn, List.length_cons, Vector.get_eq_getElem, Vector.getElem_set]
  by_cases h₁ : i = j
  · subst h₁
    rw [dif_neg (by omega), dif_pos (by omega), if_pos rfl]
    simp
  · by_cases h₂ : i + 1 ≤ j ∧ j < i + 1 + ts.length
    · rw [dif_pos h₂, dif_pos (by omega)]
      have : j - i = (j - (i + 1)) + 1 := by omega
      simp only [this, List.getElem_cons_succ]
    · rw [dif_neg h₂, dif_neg (by omega), if_neg h₁]

theorem installedHigh_cons (i : Nat) (h : i < 8) (t : Addr) (ts : List Addr) (old : Vector Word 8) :
    installedHigh (i + 1) ts (old.set i (highHalf t) h) = installedHigh i (t :: ts) old := by
  apply Vector.ext
  intro j hj
  simp only [installedHigh, Vector.getElem_ofFn, List.length_cons, Vector.get_eq_getElem, Vector.getElem_set]
  by_cases h₁ : i = j
  · subst h₁
    rw [dif_neg (by omega), dif_pos (by omega), if_pos rfl]
    simp
  · by_cases h₂ : i + 1 ≤ j ∧ j < i + 1 + ts.length
    · rw [dif_pos h₂, dif_pos (by omega)]
      have : j - i = (j - (i + 1)) + 1 := by omega
      simp only [this, List.getElem_cons_succ]
    · rw [dif_neg h₂, dif_neg (by omega), if_neg h₁]

/-- What the installation of a list of tables from register `i` on can do. -/
theorem installFrom_eq_next {i : Nat} {ts : List Addr} {l l' : Local} (hi : i ≤ 8) :
    installFrom i ts l = .next l' ↔
      (ts ≠ [] → l.chan.en = false) ∧ i + ts.length ≤ 8 ∧
      (∀ t ∈ ts, rangeAllocated l.shared t.toNat Config.pageSize = true) ∧
      l' = ⟨installedChan i ts l.chan, published ts l.shared⟩ := by
  induction ts generalizing i l with
  | nil =>
    simp only [installFrom, installedChan, installedLow_nil, installedHigh_nil, published, List.foldl_nil]
    rw [next_inj]
    refine ⟨fun h => ⟨by simp, by simpa using hi, by simp, h⟩, fun h => h.2.2.2⟩
  | cons t ts ih =>
    unfold installFrom
    by_cases h : i < 8
    · simp only [h, dite_true, andThen_eq_next]
      simp only [installTable, andThen_eq_next, flushRange_eq_next, writeTableLow, writeTableHigh,
        whileStopped_eq_next, List.mem_cons, forall_eq_or_imp, List.length_cons]
      constructor
      · rintro ⟨l₃, ⟨l₁, ⟨h₁, rfl⟩, l₂, ⟨h₂, rfl⟩, h₃, rfl⟩, h₄⟩
        obtain ⟨-, h₅, h₆, rfl⟩ := (ih (by omega)).1 h₄
        refine ⟨fun _ => h₂, by omega, ⟨h₁, h₆⟩, ?_⟩
        simp only [Local.withChan, Local.withShared, installedChan, installedLow_cons, installedHigh_cons, published,
          List.foldl_cons]
      · rintro ⟨h₂, h₅, ⟨h₁, h₆⟩, rfl⟩
        have h₂ := h₂ (by simp)
        refine ⟨_, ⟨_, ⟨h₁, rfl⟩, _, ⟨h₂, rfl⟩, h₂, rfl⟩, (ih (by omega)).2 ⟨fun _ => h₂, by omega, h₆, ?_⟩⟩
        simp only [Local.withChan, Local.withShared, installedChan, installedLow_cons, installedHigh_cons, published,
          List.foldl_cons]
    · simp only [h, dite_false, reduceCtorEq, List.length_cons, false_iff]
      rintro ⟨-, h', -⟩
      omega

theorem installTables_eq_next {r : Ring} {l l' : Local} :
    installTables r l = .next l' ↔
      (r.table ≠ [] → l.chan.en = false) ∧ r.table.length ≤ 8 ∧
      (∀ t ∈ r.table, rangeAllocated l.shared t.toNat Config.pageSize = true) ∧
      l' = ⟨installedChan 0 r.table l.chan, published r.table l.shared⟩ := by
  simpa [installTables] using installFrom_eq_next (i := 0) (ts := r.table) (l := l) (l' := l') (by omega)

/-! ### The ring of a channel -/

theorem withRing_eq_next {α : Type} {c : Chan} {f : Ring → Out α} {a : α} :
    withRing c f = .next a ↔ ∃ r, c.ring = some r ∧ c.ringState ≠ .absent ∧ f r = .next a := by
  unfold withRing
  split
  · simp_all
  · rename_i r hr
    simp only [hr, Option.some.injEq, exists_eq_left', ringExists, decide_eq_true_eq]
    split <;> simp_all

theorem withRing_at {α : Type} {c : Chan} {r : Ring} (h : c.ring = some r) (h' : c.ringState ≠ .absent)
    (f : Ring → Out α) : withRing c f = f r := by
  simp [withRing, h, ringExists, h']

/-! ### Building tables (40 R130 to R133) -/

theorem entryBytes_length (p : Addr) : (entryBytes p).length = 8 := by simp [entryBytes, wordBytes]

theorem flatMap_entryBytes_length (ps : List Addr) : (ps.flatMap entryBytes).length = 8 * ps.length := by
  induction ps with
  | nil => rfl
  | cons p ps ih => simp [List.flatMap_cons, ih, entryBytes_length]; omega

theorem tableBytes_length {ps : List Addr} (h : ps.length ≤ 512) : (tableBytes ps).length = Config.pageSize := by
  simp only [tableBytes, flatMap_entryBytes_length, tableEntries, List.length_append, List.length_replicate]
  simp only [Config.entriesPerTable, Config.pageSize]; omega

theorem buildTable_eq_next {ps : List Addr} {t : Addr} {sh sh' : Shared} {r : Result} :
    buildTable ps t sh = .next (r, sh') ↔ buildAllowed sh ps t = true ∧
      ((512 < ps.length ∧ r = .error .tableOverflow ∧ sh' = sh) ∨
        (ps.length ≤ 512 ∧ r = .ok ∧ sh' = writeCpu sh t.toNat (tableBytes ps))) := by
  unfold buildTable
  cases hb : buildAllowed sh ps t
  · simp
  · simp only [Bool.not_true, Bool.false_eq_true, if_false, true_and, Config.tableCapacity, Config.pageSize]
    split
    · rename_i h
      simp only [Outcome.next.injEq, Prod.mk.injEq]
      constructor
      · rintro ⟨rfl, rfl⟩; exact .inl ⟨by omega, rfl, rfl⟩
      · rintro (⟨-, rfl, rfl⟩ | ⟨h', -⟩)
        · exact ⟨rfl, rfl⟩
        · omega
    · rename_i h
      simp only [Outcome.next.injEq, Prod.mk.injEq]
      constructor
      · rintro ⟨rfl, rfl⟩; exact .inr ⟨by omega, rfl, rfl⟩
      · rintro (⟨h', -⟩ | ⟨-, rfl, rfl⟩)
        · omega
        · exact ⟨rfl, rfl⟩

theorem buildAllowed_table {sh : Shared} {ps : List Addr} {t : Addr} (h : buildAllowed sh ps t = true) :
    t.toNat % Config.pageSize = 0 ∧ t.toNat ∈ sh.allocated := by
  simp only [buildAllowed, usablePage, pageAligned, Bool.and_eq_true, beq_iff_eq, List.contains_iff_mem] at h
  exact h.1.2

theorem buildTable_form {ps : List Addr} {t : Addr} {sh sh' : Shared} {r : Result} (h : sh.Form)
    (hb : buildTable ps t sh = .next (r, sh')) : sh'.Form ∧ sh'.allocated = sh.allocated := by
  obtain ⟨ha, (⟨-, -, rfl⟩ | ⟨h₁, -, rfl⟩)⟩ := buildTable_eq_next.1 hb
  · exact ⟨h, rfl⟩
  · refine ⟨writeCpu_form h ?_, rfl⟩
    rw [tableBytes_length h₁]
    exact h.page_bound (buildAllowed_table ha).2

/-- What building every table of a ring can do: all are built, or one overflows; `allocated` stays as it was. -/
theorem buildAll_cases {ps : List (List Addr × Addr)} {sh sh' : Shared} {r : Result}
    (h : buildAll ps sh = .next (r, sh')) :
    (sh.Form → sh'.Form) ∧ sh'.allocated = sh.allocated ∧
    ((r = .ok ∧ ∀ x ∈ ps, x.1 ≠ [] ∧ x.1.length ≤ 512 ∧
        (∀ p ∈ x.1, p.toNat % Config.pageSize = 0 ∧ p.toNat ∈ sh.allocated) ∧ x.2.toNat % Config.pageSize = 0 ∧
        x.2.toNat ∈ sh.allocated) ∨
      (r = .error .tableOverflow ∧ ∃ x ∈ ps, 512 < x.1.length)) := by
  induction ps generalizing sh with
  | nil =>
    simp only [buildAll, Outcome.next.injEq, Prod.mk.injEq] at h
    obtain ⟨rfl, rfl⟩ := h
    exact ⟨id, rfl, .inl ⟨rfl, by simp⟩⟩
  | cons x ps ih =>
    obtain ⟨pages, table⟩ := x
    unfold buildAll at h
    obtain ⟨⟨r₁, sh₁⟩, h₁, h₂⟩ := andThen_eq_next.1 h
    obtain ⟨ha, (⟨hl, rfl, rfl⟩ | ⟨hl, rfl, rfl⟩)⟩ := buildTable_eq_next.1 h₁
    · simp only [Outcome.next.injEq, Prod.mk.injEq] at h₂
      obtain ⟨rfl, rfl⟩ := h₂
      exact ⟨id, rfl, .inr ⟨rfl, (pages, table), by simp, hl⟩⟩
    · simp only at h₂
      obtain ⟨hf, hal, hr⟩ := ih h₂
      have hfb := buildTable_eq_next.2 ⟨ha, .inr ⟨hl, rfl, rfl⟩⟩
      refine ⟨fun e => hf (buildTable_form e hfb).1, hal, ?_⟩
      rcases hr with ⟨rfl, hr⟩ | ⟨rfl, y, hy, hy'⟩
      · refine .inl ⟨rfl, ?_⟩
        intro y hy
        rcases List.mem_cons.1 hy with rfl | hy
        · simp only [buildAllowed, usablePage, pageAligned, Bool.and_eq_true, beq_iff_eq, List.contains_iff_mem,
            List.all_eq_true, Bool.not_eq_true', List.isEmpty_eq_false_iff] at ha
          exact ⟨ha.1.1.1, hl, ha.1.1.2, ha.1.2.1, ha.1.2.2⟩
        · exact hr y hy
      · exact .inr ⟨rfl, y, by simp [hy], hy'⟩

end Sys2Proof.Machine
end

