-- ==== Sys2Proof/Laws/Ring.lean ====
section
/-! SUPPORT. What INIT, RESET and the cursor's read can do: the record INIT makes, the installation of its tables, the reset
request and the reads of the poll. -/

namespace Sys2Proof.Machine

open Host (Outcome)

/-! ### Register words -/

theorem slotCountField_ofNat (k : Nat) : slotCountField (BitVec.ofNat 32 k) = BitVec.ofNat 3 k := by
  apply BitVec.eq_of_toNat_eq
  simp only [slotCountField, BitVec.extractLsb'_toNat, BitVec.toNat_ofNat, Nat.shiftRight_zero]
  omega

theorem rstField_ofNat_small {k : Nat} (h : k < 64) : rstField (BitVec.ofNat 32 k) = false := by
  have : ∀ j : Fin 64, rstField (BitVec.ofNat 32 j.val) = false := by decide
  exact this ⟨k, h⟩

/-- The word that requests a reset of a ring of `k + 1` slots (30 R104). -/
theorem resetWord_fields {k : Nat} (h : k < 8) :
    slotCountField (0x40#32 ||| BitVec.ofNat 32 k) = BitVec.ofNat 3 k ∧ rstField (0x40#32 ||| BitVec.ofNat 32 k) = true := by
  have : ∀ j : Fin 8, slotCountField (0x40#32 ||| BitVec.ofNat 32 j.val) = BitVec.ofNat 3 j.val ∧
      rstField (0x40#32 ||| BitVec.ofNat 32 j.val) = true := by decide
  exact this ⟨k, h⟩

theorem bufferModeWord_fields : ∀ (rst : Bool) (w n : SlotIx),
    rstField (bufferModeWord rst w n) = rst ∧ writeIndexField (bufferModeWord rst w n) = w ∧
      slotCountField (bufferModeWord rst w n) = n ∧ slotCountField (bufferModeWord rst w n &&& 7#32) = n ∧
      rstField (bufferModeWord rst w n &&& 7#32) = false := by decide

@[simp] theorem rstField_bufferModeWord (rst : Bool) (w n : SlotIx) : rstField (bufferModeWord rst w n) = rst :=
  (bufferModeWord_fields rst w n).1
@[simp] theorem writeIndexField_bufferModeWord (rst : Bool) (w n : SlotIx) :
    writeIndexField (bufferModeWord rst w n) = w := (bufferModeWord_fields rst w n).2.1
@[simp] theorem slotCountField_bufferModeWord (rst : Bool) (w n : SlotIx) :
    slotCountField (bufferModeWord rst w n) = n := (bufferModeWord_fields rst w n).2.2.1
@[simp] theorem slotCountField_rewrite (rst : Bool) (w n : SlotIx) :
    slotCountField (bufferModeWord rst w n &&& 7#32) = n := (bufferModeWord_fields rst w n).2.2.2.1
@[simp] theorem rstField_rewrite (rst : Bool) (w n : SlotIx) :
    rstField (bufferModeWord rst w n &&& 7#32) = false := (bufferModeWord_fields rst w n).2.2.2.2

/-! ### The record INIT makes -/

theorem flatten_slotPages (got : List Addr) (p n : Nat) (h : n * p ≤ got.length) :
    ((List.range n).map (slotPages got p)).flatten = got.take (n * p) := by
  induction n with
  | zero => simp
  | succ n ih =>
    rw [List.range_succ, List.map_append, List.flatten_append, ih (by rw [Nat.succ_mul] at h; omega)]
    simp only [List.map_cons, List.map_nil, List.flatten_cons, List.flatten_nil, List.append_nil, slotPages]
    rw [Nat.succ_mul, List.take_add]

/-- The pages of the record are the pages got, in their order. -/
theorem ringPages_ringOf {n s : Nat} {got : List Addr} (h : got.length = initPages n s) :
    ringPages (ringOf n s got) = got := by
  unfold initPages at h
  unfold ringPages ringOf
  simp only
  rw [flatten_slotPages _ _ _ (by omega)]
  have h₁ : [got.getD (n * pagesFor s + n) 0] = (got.drop (n * pagesFor s)).drop n := by
    rw [List.drop_drop, List.drop_eq_getElem_cons (by omega), List.drop_eq_nil_of_le (by omega)]
    simp [List.getD, List.getElem?_eq_getElem (show n * pagesFor s + n < got.length by omega)]
  rw [h₁, List.take_append_drop, List.take_append_drop]

theorem shape_ringOf {n s : Nat} {got : List Addr} (hn : 1 ≤ n ∧ n ≤ Config.maxSlots) (hs : 1 ≤ s)
    (h : got.length = initPages n s) (ha : ∀ p ∈ got, p.toNat % Config.pageSize = 0) (hp : pagesFor s ≤ 512) :
    (ringOf n s got).Shape := by
  have hl := h
  unfold initPages at hl
  refine ⟨hn, ⟨hs, ?_⟩, rfl, by simp [ringOf], ?_, ?_, ?_⟩
  · unfold pagesFor Config.pageSize at hp; show s ≤ 2097152; omega
  · intro ps hps
    simp only [ringOf, List.mem_map, List.mem_range] at hps
    obtain ⟨i, hi, rfl⟩ := hps
    simp only [slotPages, List.length_take, List.length_drop, ringOf]
    have : i * pagesFor s + pagesFor s ≤ n * pagesFor s := by
      rw [← Nat.succ_mul]; exact Nat.mul_le_mul_right _ hi
    omega
  · simp only [ringOf, List.length_take, List.length_drop]; omega
  · rw [ringPages_ringOf h]; intro p hp; simp [pageAligned, ha p hp]

/-- A ring's table is not empty. -/
theorem Ring.Shape.table_ne_nil {r : Ring} (h : r.Shape) : r.table ≠ [] := by
  intro e
  have h₁ := h.tableCount
  have h₂ := h.slots.1
  rw [e, List.length_nil] at h₁
  omega

/-! ### INIT's last steps -/

/-- A channel whose INIT has ended with `Ok`. -/
def initializedChan (r : Ring) (c : Chan) : Chan :=
  { installedChan 0 r.table c with
    ring := some r, slotCountM1 := BitVec.ofNat 3 (r.nSlots - 1), rst := false, trackDirty := false, readIndex := 0,
    resyncOffset := none, stage := [], pending := 0, ringState := .idle, result := .ok }

theorem initInstall_eq_next {r : Ring} {l l' : Local} (ht : r.table ≠ []) (hn : r.nSlots ≤ 8) :
    initInstall r l = .next l' ↔ l.chan.en = false ∧ r.table.length ≤ 8 ∧
      (∀ t ∈ r.table, rangeAllocated l.shared t.toNat Config.pageSize = true) ∧
      l' = ⟨initializedChan r l.chan, published r.table l.shared⟩ := by
  have hs : slotCountField (BitVec.ofNat 32 (r.nSlots - 1)) = BitVec.ofNat 3 (r.nSlots - 1) := slotCountField_ofNat _
  have hr : rstField (BitVec.ofNat 32 (r.nSlots - 1)) = false := rstField_ofNat_small (by omega)
  unfold initInstall
  simp only [andThen_eq_next, installTables_eq_next, writeBufferMode_eq_next, next_inj, hs, hr]
  constructor
  · rintro ⟨l₁, ⟨h₁, h₂, h₃, rfl⟩, l₂, ⟨-, rfl⟩, rfl⟩
    exact ⟨h₁ ht, h₂, h₃, rfl⟩
  · rintro ⟨h₁, h₂, h₃, rfl⟩
    refine ⟨_, ⟨fun _ => h₁, h₂, h₃, rfl⟩, _, ⟨?_, rfl⟩, ?_⟩
    · simp [installedChan, Local.withChan, h₁]
    · rfl

/-! ### RESET -/

/-- A channel whose RESET has made its request (41 R143, up to the poll). -/
def requestedChan (r : Ring) (c : Chan) : Chan :=
  { installedChan 0 r.table c with
    en := false, inflight := if c.en then [] else c.inflight, needsReset := c.en || c.needsReset,
    slotCountM1 := BitVec.ofNat 3 (r.nSlots - 1), rst := true, trackDirty := false }

theorem resetRequest_eq_next {l l' : Local} {r : Ring} (hr : l.chan.ring = some r) (hn : 1 ≤ r.nSlots ∧ r.nSlots ≤ 8) :
    resetRequest l = .next l' ↔ idleOrArmed l.chan = true ∧ l.chan.drainRunning = false ∧
      (l.chan.en = true → ∀ e ∈ l.chan.inflight, pageOf e.addr.toNat ∈ l.shared.allocated) ∧ r.table.length ≤ 8 ∧
      (∀ t ∈ r.table, rangeAllocated l.shared t.toNat Config.pageSize = true) ∧
      l' = ⟨requestedChan r l.chan,
        published r.table (if l.chan.en then landed l.chan.inflight l.shared else l.shared)⟩ := by
  obtain ⟨hs₁, hs₂⟩ := resetWord_fields (k := r.nSlots - 1) (by omega)
  have hz : slotCountField 0 = 0 ∧ rstField 0 = false ∧ bit0 0 = false := by decide
  unfold resetRequest
  cases hi : idleOrArmed l.chan
  · simp
  cases hd : l.chan.drainRunning
  · have hst : l.chan.ringState ≠ .absent := by
      intro h; simp [idleOrArmed, h] at hi
    simp only [Bool.not_false, Bool.and_self, if_true, withRing_at hr hst, true_and]
    cases he : l.chan.en
    · simp only [writeEnable_zero_off he, andThen_next, andThen_eq_next, installTables_eq_next, writeBufferMode_eq_next,
        hs₁, hs₂, hz]
      constructor
      · rintro ⟨l₂, ⟨-, rfl⟩, l₃, ⟨h₁, h₂, h₃, rfl⟩, -, rfl⟩
        refine ⟨by simp, h₂, h₃, ?_⟩
        simp only [Local.withChan, requestedChan, he, installedChan]; rfl
      · rintro ⟨-, h₂, h₃, rfl⟩
        refine ⟨_, ⟨by simp [he], rfl⟩, _, ⟨fun _ => he, h₂, h₃, rfl⟩, fun h => ?_, ?_⟩
        · exact absurd (he.symm.trans h) (by simp)
        · simp only [Local.withChan, requestedChan, he, installedChan]; rfl
    · have hw : ∀ l₁, writeEnable 0 l = .next l₁ ↔ (∀ e ∈ l.chan.inflight, pageOf e.addr.toNat ∈ l.shared.allocated) ∧
          l₁ = ⟨{ l.chan with inflight := [], en := false, needsReset := true }, landed l.chan.inflight l.shared⟩ := by
        intro l₁
        simp only [writeEnable, hz, he, Bool.false_and, Bool.false_eq_true, if_false, Bool.not_false, Bool.true_and,
          if_true, disableUnit, andThen_eq_next, landBytes_eq_next, next_inj]
        constructor
        · rintro ⟨sh, ⟨h, rfl⟩, rfl⟩; exact ⟨h, rfl⟩
        · rintro ⟨h, rfl⟩; exact ⟨_, ⟨h, rfl⟩, rfl⟩
      simp only [andThen_eq_next, hw, installTables_eq_next, writeBufferMode_eq_next, hs₁, hs₂, hz]
      constructor
      · rintro ⟨l₁, ⟨h₀, rfl⟩, l₂, ⟨-, rfl⟩, l₃, ⟨h₁, h₂, h₃, rfl⟩, -, rfl⟩
        refine ⟨fun _ => h₀, h₂, fun t ht => ?_, ?_⟩
        · have := h₃ t ht
          simpa [rangeAllocated] using this
        · simp only [Local.withChan, requestedChan, he, installedChan]; rfl
      · rintro ⟨h₀, h₂, h₃, rfl⟩
        refine ⟨_, ⟨h₀ trivial, rfl⟩, _, ⟨by simp, rfl⟩, _, ⟨fun _ => rfl, h₂, fun t ht => ?_, rfl⟩,
          fun h => absurd h (by simp [installedChan, Local.withChan]), ?_⟩
        · have := h₃ t ht
          simpa [rangeAllocated] using this
        · simp only [Local.withChan, requestedChan, he, installedChan]; rfl
  · simp

/-! ### The read of `DMA_BUFFER_MODE` (45 R223) -/

/-- The read without its side effect. -/
theorem readBufferMode_plain {cfg : HwConfig} {l : Local} (h : l.chan.en = false ∨ cfg.erratumRewrite = false) :
    readBufferMode cfg l = (bufferModeWord l.chan.rst l.chan.writeIndex l.chan.slotCountM1, l) := by
  unfold readBufferMode
  rcases h with h | h <;> simp [h]

/-- The read that a write separates from the one before: only `track_dirty` is set. -/
theorem readBufferMode_tracked {cfg : HwConfig} {l : Local} (h₁ : l.chan.en = true) (h₂ : cfg.erratumRewrite = true)
    (h₃ : l.chan.trackDirty = false) :
    readBufferMode cfg l = (bufferModeWord l.chan.rst l.chan.writeIndex l.chan.slotCountM1,
      l.withChan { l.chan with trackDirty := true }) := by
  unfold readBufferMode
  simp [h₁, h₂, h₃]

theorem spoiled_le (c : Chan) (x : Nat) : (BitVec.ofNat 3 (x % modeSlots c)).toNat ≤ c.slotCountM1.toNat := by
  have h₁ : x % modeSlots c < modeSlots c := Nat.mod_lt _ (by simp [modeSlots])
  have h₂ := c.slotCountM1.isLt
  simp only [modeSlots] at *
  rw [BitVec.toNat_ofNat, Nat.mod_eq_of_lt (by omega)]; omega

/-- All the read can do: it returns the register's word with some write index, which is the one there was unless an unpaired read
of a running unit came before on an affected revision, and then lies in `0 .. SLOT_COUNT_M1`. -/
theorem readBufferMode_cases (cfg : HwConfig) (l : Local) :
    ∃ x sp n,
      (¬(cfg.erratumRewrite = true ∧ l.chan.en = true ∧ l.chan.trackDirty = true) →
        x = l.chan.writeIndex ∧ sp = l.chan.spoilIn ∧ n = l.shared.draws) ∧
      (cfg.erratumRewrite = true ∧ l.chan.en = true ∧ l.chan.trackDirty = true → x.toNat ≤ l.chan.slotCountM1.toNat) ∧
      readBufferMode cfg l = (bufferModeWord l.chan.rst x l.chan.slotCountM1,
        ⟨{ l.chan with
            writeIndex := x, spoilIn := sp, trackDirty := l.chan.trackDirty || (l.chan.en && cfg.erratumRewrite) },
          { l.shared with draws := n }⟩) := by
  by_cases h₁ : l.chan.en = false ∨ cfg.erratumRewrite = false
  · refine ⟨l.chan.writeIndex, l.chan.spoilIn, l.shared.draws, fun _ => ⟨rfl, rfl, rfl⟩, fun h => ?_, ?_⟩
    · rcases h₁ with h₁ | h₁ <;> simp [h₁] at h
    rw [readBufferMode_plain h₁]
    have hd : (l.chan.trackDirty || (l.chan.en && cfg.erratumRewrite)) = l.chan.trackDirty := by
      rcases h₁ with h | h <;> simp [h]
    rw [hd]
  · simp only [not_or, Bool.not_eq_false] at h₁
    by_cases h₂ : l.chan.trackDirty = false
    · refine ⟨l.chan.writeIndex, l.chan.spoilIn, l.shared.draws, fun _ => ⟨rfl, rfl, rfl⟩, fun h => ?_, ?_⟩
      · rw [h₂] at h; simp at h
      rw [readBufferMode_tracked h₁.1 h₁.2 h₂]
      simp [h₁, h₂, Local.withChan]
    · simp only [Bool.not_eq_false] at h₂
      unfold readBufferMode drawSpoiledIndex
      cases hs : l.chan.spoilIn with
      | nil =>
        refine ⟨BitVec.ofNat 3 (Config.spoiledIndex l.chan.id l.shared.draws % modeSlots l.chan), [],
          l.shared.draws + 1, fun h => absurd ⟨h₁.2, h₁.1, h₂⟩ h, fun _ => spoiled_le _ _, ?_⟩
        simp [h₁, h₂, Local.withChan, Local.withShared, hs.symm]
      | cons x rest =>
        refine ⟨BitVec.ofNat 3 (x % modeSlots l.chan), rest, l.shared.draws,
          fun h => absurd ⟨h₁.2, h₁.1, h₂⟩ h, fun _ => spoiled_le _ _, ?_⟩
        simp [h₁, h₂, Local.withChan]

theorem readBufferMode_word (cfg : HwConfig) (l : Local) :
    (readBufferMode cfg l).1 = bufferModeWord (readBufferMode cfg l).2.chan.rst (readBufferMode cfg l).2.chan.writeIndex
      (readBufferMode cfg l).2.chan.slotCountM1 := rfl

/-- A poll of a disabled unit tells `RST` and changes nothing. -/
theorem pollRead_off (cfg : HwConfig) (k : Nat) {l : Local} (h : l.chan.en = false) :
    pollRead cfg k l =
      ((if l.chan.rst then (if k < Config.resetPollMax then .again else .timedOut) else .confirmed), l) := by
  simp [pollRead, readBufferMode_plain (.inl h)]

end Sys2Proof.Machine
end

