-- ==== Sys2Proof/Laws/Calls.lean ====
section
/-! SUPPORT. What a call on a channel, the cursor's read, the read of a slot and the drain of a slot can do. -/

namespace Sys2Proof.Machine

open Host (Outcome)

/-! ### Calls -/

/-- A HOST call of a channel whose HOST is free. -/
theorem call_at {s : State} {c : Chan} (ha : s.At c) (hh : c.host = none) (f : Local → Out Local) :
    onChannel s (hostCall f) = andThen (f ⟨c, s.shared⟩) fun l => .next (s.put l) := by
  rw [onChannel_at ha, hostCall_free (by exact hh)]

theorem guardedWrite_at {s : State} {c : Chan} (ha : s.At c) (hh : c.host = none) (f : Local → Out Local) :
    guardedWrite s f = andThen (f ⟨c, s.shared⟩) fun l => .next (s.put (finish .ok l)) := by
  unfold guardedWrite
  rw [call_at ha hh]
  cases f ⟨c, s.shared⟩ <;> rfl

theorem plainWrite_at {s : State} {c : Chan} (ha : s.At c) (hh : c.host = none) (f : Local → Local) :
    plainWrite s f = .next (s.put (finish .ok (f ⟨c, s.shared⟩))) := by
  unfold plainWrite
  rw [call_at ha hh]; rfl

theorem plainRead_at {s : State} {c : Chan} (ha : s.At c) (hh : c.host = none) (f : Chan → Word) :
    plainRead s f = .next (s.putChan { c with result := .word (f c) }) := by
  unfold plainRead
  rw [call_at ha hh]; rfl

theorem whenEnabled_eq_next {enabled : Chan → Bool} {f : Local → Out Local} {l l' : Local} :
    whenEnabled enabled f l = .next l' ↔ enabled l.chan = true ∧ f l = .next l' := by
  unfold whenEnabled
  split
  · simp_all
  · simp_all

/-- Every operation runs on the selected channel alone (30 R113, 60 R278). -/
theorem exec_onChannel (i : Instr) (s : State) : ∃ f, exec i s = onChannel s f := by
  cases i <;>
    first
    | exact ⟨_, rfl⟩
    | simp only [exec, execScan, execAlign, execSinkWrite]; exact ⟨_, rfl⟩

/-! ### CURRENT_WRITE_INDEX (41 R145) -/

/-- All CURRENT_WRITE_INDEX can do where there is a ring: it returns some write index modulo N, the register's own unless an unpaired
read came before, and on an affected revision its re-write leaves `RST` and `track_dirty` at 0. -/
theorem currentWriteIndex_cases (cfg : HwConfig) {l : Local} {r : Ring} (hr : l.chan.ring = some r)
    (hs : l.chan.ringState ≠ .absent) :
    ∃ x sp n,
      (¬(cfg.erratumRewrite = true ∧ l.chan.en = true ∧ l.chan.trackDirty = true) →
        x = l.chan.writeIndex ∧ sp = l.chan.spoilIn ∧ n = l.shared.draws) ∧
      (cfg.erratumRewrite = true ∧ l.chan.en = true ∧ l.chan.trackDirty = true → x.toNat ≤ l.chan.slotCountM1.toNat) ∧
      currentWriteIndex cfg l = .next (x.toNat % r.nSlots,
        ⟨{ l.chan with
            writeIndex := x, spoilIn := sp, rst := l.chan.rst && !cfg.erratumRewrite,
            trackDirty := l.chan.trackDirty && !cfg.erratumRewrite },
          { l.shared with draws := n }⟩) := by
  obtain ⟨x, sp, n, h₁, h₂, h₃⟩ := readBufferMode_cases cfg l
  refine ⟨x, sp, n, h₁, h₂, ?_⟩
  unfold currentWriteIndex
  rw [withRing_at hr hs, h₃]
  simp only [writeIndexField_bufferModeWord]
  cases he : cfg.erratumRewrite
  · simp
  · rw [if_pos rfl]
    rw [(writeBufferMode_eq_next (l' := ⟨{ l.chan with
            writeIndex := x, spoilIn := sp, rst := false, trackDirty := false }, { l.shared with draws := n }⟩)).2]
    · simp
    · simp only [slotCountField_rewrite, rstField_rewrite]
      exact ⟨fun _ => ⟨trivial, trivial⟩, rfl⟩

/-! ### READ_SLOT (41 R146) -/

theorem readSlot_eq_next {i : Nat} {l l' : Local} {bs : List Byte} :
    readSlot i l = .next (bs, l') ↔ ∃ r ps, l.chan.ring = some r ∧ l.chan.ringState ≠ .absent ∧ i < r.nSlots ∧
      r.pages[i]? = some ps ∧ (∀ p ∈ ps, rangeAllocated l.shared p.toNat Config.pageSize = true) ∧
      l' = l.withShared (synced ps l.shared) ∧ bs = (readPages (synced ps l.shared) ps).take r.slotSize := by
  unfold readSlot
  rw [withRing_eq_next]
  refine exists_congr fun r => ?_
  by_cases hi : i < r.nSlots
  · rw [if_pos hi]
    cases hp : r.pages[i]? with
    | none => simp
    | some ps =>
      simp only [andThen_eq_next, syncPages_eq_next, Outcome.next.injEq, Prod.mk.injEq, Option.some.injEq]
      constructor
      · rintro ⟨h₁, h₂, a, ⟨h₃, rfl⟩, rfl, rfl⟩
        exact ⟨ps, h₁, h₂, hi, rfl, h₃, rfl, rfl⟩
      · rintro ⟨_, h₁, h₂, -, rfl, h₃, rfl, rfl⟩
        exact ⟨h₁, h₂, _, ⟨h₃, rfl⟩, rfl, rfl⟩
  · simp [hi]

/-! ### The synchronizer and the drain of a slot (43, 44 R204) -/

/-- An offset a scan answers is one it knew or one it found in the first window. -/
theorem scan_offset (slot : List Byte) (known : Option Nat) (h : ∀ k, known = some k → k ≤ offsetMax) :
    ∀ k, (scan slot known).2 = some k → k ≤ offsetMax := by
  intro k
  unfold scan
  split
  · exact h k
  · split
    · rename_i i hi
      intro e; obtain rfl := Option.some.inj e
      have := List.mem_of_find?_eq_some hi
      simp only [List.mem_range, Config.packetSize] at this
      simp only [offsetMax]; omega
    · exact h k

theorem align_stage_length (slot : List Byte) (off : Nat) (st : List Byte) :
    (align slot off st).2.length ≤ offsetMax := by
  unfold align
  split
  · simp
  · simp only [List.length_drop, Config.packetSize, offsetMax]
    have := Nat.div_add_mod (slot.length - off) 188
    have := Nat.mod_lt (slot.length - off) (show 0 < 188 by omega)
    omega

/-- What SCAN's status says of its offset where it found nothing. -/
theorem scan_desynchronized {slot : List Byte} {known : Option Nat} (h : (scan slot known).1 = .desynchronized) :
    (scan slot known).2 = known := by
  unfold scan at *
  split
  · rfl
  · split
    · simp_all
    · rfl

/-- The bytes ALIGN gives out are whole packets. -/
theorem align_out_length (slot : List Byte) (off : Nat) (st : List Byte) :
    (align slot off st).1.length % Config.packetSize = 0 := by
  unfold align
  split
  · simp
  · have hh : (if stageFits off st = true then st ++ slot.take off else []).length % 188 = 0 := by
      split
      · rename_i h
        simp only [stageFits, Bool.and_eq_true, decide_eq_true_eq, Config.packetSize] at h
        rw [List.length_append, List.length_take, Nat.min_eq_left (by omega), h.1.2]
      · rfl
    simp only [List.length_append, List.length_take, List.length_drop, Config.packetSize]
    rw [Nat.min_eq_left (by omega)]
    omega

/-- The scan's effect: the offset it answers, and a logged event where it found none. -/
theorem noteScan_eq {status : ScanStatus} {off : Option Nat} {c : Chan}
    (h : status = .desynchronized → off = c.resyncOffset) :
    noteScan status off c = { c with
      resyncOffset := off, log := if status = .desynchronized then c.log ++ [.streamDesynchronized] else c.log } := by
  unfold noteScan logEvent
  split
  · rename_i hs; rw [h hs]
  · rfl

/-- What forwarding does: the new stage, and what the sink took or rejected. -/
theorem forwardSlot_eq (bs : List Byte) (off : Option Nat) (c : Chan) :
    ∃ stage out rejected,
      forwardSlot bs off c = { c with
        stage := stage, sinkOut := c.sinkOut ++ out, sinkRejected := c.sinkRejected + rejected } ∧
      (off = none → stage = [] ∧ out = [] ∧ rejected = 0) ∧
      ∀ o, off = some o → stage = (align bs o c.stage).2 ∧
        (out, rejected) =
          if (align bs o c.stage).1 = [] then ([], 0)
          else if (align bs o c.stage).1[0]? = some Config.marker then ([(align bs o c.stage).1], 0) else ([], 1) := by
  unfold forwardSlot sinkWrite
  cases off with
  | none => exact ⟨[], [], 0, by simp, fun _ => ⟨rfl, rfl, rfl⟩, by simp⟩
  | some o =>
    have hl := align_out_length bs o c.stage
    simp only [reduceCtorEq, false_implies, Option.some.injEq, forall_eq', true_and]
    generalize align bs o c.stage = al at *
    obtain ⟨out, st⟩ := al
    simp only at hl ⊢
    by_cases h₁ : out = []
    · exact ⟨st, [], 0, by simp [h₁], rfl, by simp [h₁]⟩
    · have h₂ : packetAligned out = true ↔ out[0]? = some Config.marker := by
        simp [packetAligned, hl, List.length_pos_iff.2 h₁, markerAt]
      by_cases h₃ : out[0]? = some Config.marker
      · exact ⟨st, [out], 0, by simp [h₁, h₂.2 h₃], rfl, by simp [h₁, h₃]⟩
      · refine ⟨st, [], 1, ?_, rfl, by simp [h₁, h₃]⟩
        rw [if_neg (by simpa using h₁), if_neg (fun e => h₃ (h₂.1 e))]; simp

/-- What draining a slot's bytes writes: the sink's traces, the log, the stage, the offset, the cursor. -/
theorem consumeSlot_frame (n : Nat) (bs : List Byte) (c : Chan) :
    ∃ so sr lg st ro,
      ((∀ k, c.resyncOffset = some k → k ≤ offsetMax) → ∀ k, ro = some k → k ≤ offsetMax) ∧ st.length ≤ offsetMax ∧
      consumeSlot n bs c = { c with
        sinkOut := so, sinkRejected := sr, log := lg, stage := st, resyncOffset := ro,
        readIndex := nextIndex c.readIndex n, drainLeft := c.drainLeft - 1 } := by
  have hs := fun h => scan_offset bs c.resyncOffset h
  have ha := fun o st => align_stage_length bs o st
  unfold consumeSlot noteScan forwardSlot advanceRead logEvent sinkWrite
  generalize scan bs c.resyncOffset = sc at *
  obtain ⟨status, off⟩ := sc
  simp only at *
  by_cases h : status = .desynchronized <;> cases off <;> simp only [h, if_true, if_false]
  · exact ⟨_, _, _, _, _, fun h k hk => h k hk, by simp, rfl⟩
  · repeat' split
    all_goals exact ⟨_, _, _, _, _, fun h k hk => h k hk, ha _ _, rfl⟩
  · exact ⟨_, _, _, _, _, hs, by simp, rfl⟩
  · repeat' split
    all_goals exact ⟨_, _, _, _, _, hs, ha _ _, rfl⟩

/-- Drawing the port's byte changes the queue of waiting bytes or the draw counter, nothing else. -/
theorem drawPortByte_cases (l : Local) : ∃ (b : Byte) (waiting : List Byte) (draws : Nat),
    drawPortByte l = (b, ⟨{ l.chan with portIn := waiting }, { l.shared with draws := draws }⟩) ∧
    ∀ b' rest, l.chan.portIn = b' :: rest → b = b' ∧ waiting = rest ∧ draws = l.shared.draws := by
  unfold drawPortByte
  cases hp : l.chan.portIn with
  | nil => exact ⟨Config.portByte l.chan.id l.shared.draws, l.chan.portIn, l.shared.draws + 1,
      by simp [Local.withShared], by simp⟩
  | cons b' rest => exact ⟨b', rest, l.shared.draws, by simp [Local.withChan], by simp⟩

end Sys2Proof.Machine
end

