-- ==== Sys2Proof/Laws/PerInstr.lean ====
section
/-! SUPPORT. The family `Tag`, one lemma per operation: its byte form begins with its tag of 30_encoding.md R112, the tag fits the
eight bits the rule gives it, and the decoder knows the tag whatever bytes follow. -/

namespace Sys2Proof

/-- An operand reader never answers that the tag is unknown. -/
def KnownTag (p : List Byte → Parsed Instr) : Prop := ∀ bs, p bs ≠ .error .unknownTag

theorem thenTake_known {α β : Type} {p : Parsed α} {f : α → List Byte → Parsed β} (h : p ≠ .error .unknownTag)
    (h' : ∀ a bs, f a bs ≠ .error .unknownTag) : thenTake p f ≠ .error .unknownTag := by
  unfold thenTake
  split
  · exact h' _ _
  · intro e
    exact h (by rw [Except.error.inj e])

theorem takeByte_known (bs : List Byte) : takeByte bs ≠ .error .unknownTag := by
  unfold takeByte; split <;> simp

theorem takeLe_known (k : Nat) (bs : List Byte) : takeLe k bs ≠ .error .unknownTag := by
  unfold takeLe; split <;> simp

theorem takeWord_known (bs : List Byte) : takeWord bs ≠ .error .unknownTag :=
  thenTake_known (takeLe_known _ _) fun _ _ => by simp

theorem takeAddr_known (bs : List Byte) : takeAddr bs ≠ .error .unknownTag :=
  thenTake_known (takeLe_known _ _) fun _ _ => by simp

theorem takeTableNumber_known (bs : List Byte) : takeTableNumber bs ≠ .error .unknownTag :=
  thenTake_known (takeByte_known _) fun _ _ => by split <;> simp

theorem takeOffset_known (bs : List Byte) : takeOffset bs ≠ .error .unknownTag :=
  thenTake_known (takeByte_known _) fun _ _ => by split <;> simp

theorem takeKnown_known (bs : List Byte) : takeKnown bs ≠ .error .unknownTag :=
  thenTake_known (takeByte_known _) fun _ _ => by repeat' split <;> simp

theorem takeNat_known (bs : List Byte) : takeNat bs ≠ .error .unknownTag := by
  induction bs with
  | nil => simp [takeNat]
  | cons b rest ih =>
    unfold takeNat
    split
    · simp
    · exact thenTake_known ih fun _ _ => by simp

theorem takeBytes_known (bs : List Byte) : takeBytes bs ≠ .error .unknownTag :=
  thenTake_known (takeNat_known _) fun _ _ => by split <;> simp

theorem takeStage_known (bs : List Byte) : takeStage bs ≠ .error .unknownTag :=
  thenTake_known (takeBytes_known _) fun _ _ => by split <;> simp

theorem takeAddrs_known (k : Nat) (bs : List Byte) : takeAddrs k bs ≠ .error .unknownTag := by
  induction k generalizing bs with
  | zero => simp [takeAddrs]
  | succ k ih => exact thenTake_known (takeAddr_known _) fun _ _ => thenTake_known (ih _) fun _ _ => by simp

theorem takeAddrList_known (bs : List Byte) : takeAddrList bs ≠ .error .unknownTag :=
  thenTake_known (takeNat_known _) fun k rest => by
    split
    · exact takeAddrs_known _ _
    · simp

theorem withWord_known (f : Word → Instr) : KnownTag (withWord f) := fun _ =>
  thenTake_known (takeWord_known _) fun _ _ => by simp

theorem withTableWord_known (f : Fin 8 → Word → Instr) : KnownTag (withTableWord f) := fun _ =>
  thenTake_known (takeTableNumber_known _) fun _ _ => thenTake_known (takeWord_known _) fun _ _ => by simp

theorem withTable_known (f : Fin 8 → Instr) : KnownTag (withTable f) := fun _ =>
  thenTake_known (takeTableNumber_known _) fun _ _ => by simp

theorem withRange_known (f : Addr → Nat → Instr) : KnownTag (withRange f) := fun _ =>
  thenTake_known (takeAddr_known _) fun _ _ => thenTake_known (takeNat_known _) fun _ _ => by simp

theorem withTwoNats_known (f : Nat → Nat → Instr) : KnownTag (withTwoNats f) := fun _ =>
  thenTake_known (takeNat_known _) fun _ _ => thenTake_known (takeNat_known _) fun _ _ => by simp

theorem withNone_known (i : Instr) : KnownTag (withNone i) := fun _ => by simp [withNone]

theorem takeBuild_known : KnownTag takeBuild := fun _ =>
  thenTake_known (takeAddrList_known _) fun _ _ => thenTake_known (takeAddr_known _) fun _ _ => by simp

theorem takeReadSlot_known : KnownTag takeReadSlot := fun _ => thenTake_known (takeNat_known _) fun _ _ => by simp

theorem takeScan_known : KnownTag takeScan := fun _ =>
  thenTake_known (takeBytes_known _) fun _ _ => thenTake_known (takeKnown_known _) fun _ _ => by simp

theorem takeAlign_known : KnownTag takeAlign := fun _ =>
  thenTake_known (takeBytes_known _) fun _ _ => thenTake_known (takeOffset_known _) fun _ _ =>
  thenTake_known (takeStage_known _) fun _ _ => by simp

theorem takeSinkWrite_known : KnownTag takeSinkWrite := fun _ => thenTake_known (takeBytes_known _) fun _ _ => by simp

namespace Laws.Tag

/-- The byte form begins with the tag, the tag has eight bits, and the decoder knows it. -/
def Statement (i : Instr) : Prop :=
  (encode i).head? = some (BitVec.ofNat 8 (tagOf i)) ∧ tagOf i < 256 ∧ KnownTag (decodeOperands (tagOf i))

theorem wrDmaEnable (v : Word) : Statement (.wrDmaEnable v) := ⟨rfl, by simp [tagOf], withWord_known _⟩

theorem wrDmaBufferMode (v : Word) : Statement (.wrDmaBufferMode v) := ⟨rfl, by simp [tagOf], withWord_known _⟩

theorem wrDmaPageTableAddrLow (i : Fin 8) (v : Word) : Statement (.wrDmaPageTableAddrLow i v) := ⟨rfl, by simp [tagOf], withTableWord_known _⟩

theorem wrDmaPageTableAddrHigh (i : Fin 8) (v : Word) : Statement (.wrDmaPageTableAddrHigh i v) := ⟨rfl, by simp [tagOf], withTableWord_known _⟩

theorem wrDmaBlockSize (v : Word) : Statement (.wrDmaBlockSize v) := ⟨rfl, by simp [tagOf], withWord_known _⟩

theorem wrDmaTotalSize (v : Word) : Statement (.wrDmaTotalSize v) := ⟨rfl, by simp [tagOf], withWord_known _⟩

theorem wrIntEnable (v : Word) : Statement (.wrIntEnable v) := ⟨rfl, by simp [tagOf], withWord_known _⟩

theorem wrIntStatus (v : Word) : Statement (.wrIntStatus v) := ⟨rfl, by simp [tagOf], withWord_known _⟩

theorem wrIntClear (v : Word) : Statement (.wrIntClear v) := ⟨rfl, by simp [tagOf], withWord_known _⟩

theorem rdDmaEnable : Statement .rdDmaEnable := ⟨rfl, by simp [tagOf], withNone_known _⟩

theorem rdDmaBufferMode : Statement .rdDmaBufferMode := ⟨rfl, by simp [tagOf], withNone_known _⟩

theorem rdDmaPageTableAddrLow (i : Fin 8) : Statement (.rdDmaPageTableAddrLow i) := ⟨rfl, by simp [tagOf], withTable_known _⟩

theorem rdDmaPageTableAddrHigh (i : Fin 8) : Statement (.rdDmaPageTableAddrHigh i) := ⟨rfl, by simp [tagOf], withTable_known _⟩

theorem rdDmaBlockSize : Statement .rdDmaBlockSize := ⟨rfl, by simp [tagOf], withNone_known _⟩

theorem rdDmaTotalSize : Statement .rdDmaTotalSize := ⟨rfl, by simp [tagOf], withNone_known _⟩

theorem rdIntEnable : Statement .rdIntEnable := ⟨rfl, by simp [tagOf], withNone_known _⟩

theorem rdIntStatus : Statement .rdIntStatus := ⟨rfl, by simp [tagOf], withNone_known _⟩

theorem rdIntClear : Statement .rdIntClear := ⟨rfl, by simp [tagOf], withNone_known _⟩

theorem flush (addr : Addr) (n : Nat) : Statement (.flush addr n) := ⟨rfl, by simp [tagOf], withRange_known _⟩

theorem cpuSync (addr : Addr) (n : Nat) : Statement (.cpuSync addr n) := ⟨rfl, by simp [tagOf], withRange_known _⟩

theorem build (pages : List Addr) (table : Addr) : Statement (.build pages table) := ⟨rfl, by simp [tagOf], takeBuild_known⟩

theorem installTables : Statement .installTables := ⟨rfl, by simp [tagOf], withNone_known _⟩

theorem init (nSlots : Nat) (slotSize : Nat) : Statement (.init nSlots slotSize) := ⟨rfl, by simp [tagOf], withTwoNats_known _⟩

theorem teardown : Statement .teardown := ⟨rfl, by simp [tagOf], withNone_known _⟩

theorem reset : Statement .reset := ⟨rfl, by simp [tagOf], withNone_known _⟩

theorem currentWriteIndex : Statement .currentWriteIndex := ⟨rfl, by simp [tagOf], withNone_known _⟩

theorem readSlot (i : Nat) : Statement (.readSlot i) := ⟨rfl, by simp [tagOf], takeReadSlot_known⟩

theorem start (pitch : Nat) (lines : Nat) : Statement (.start pitch lines) := ⟨rfl, by simp [tagOf], withTwoNats_known _⟩

theorem stop : Statement .stop := ⟨rfl, by simp [tagOf], withNone_known _⟩

theorem scan (slot : List Byte) (known : Option Nat) : Statement (.scan slot known) := ⟨rfl, by simp [tagOf], takeScan_known⟩

theorem align (slot : List Byte) (off : Nat) (stage : List Byte) : Statement (.align slot off stage) := ⟨rfl, by simp [tagOf], takeAlign_known⟩

theorem sinkWrite (bytes : List Byte) : Statement (.sinkWrite bytes) := ⟨rfl, by simp [tagOf], takeSinkWrite_known⟩

theorem capByte : Statement .capByte := ⟨rfl, by simp [tagOf], withNone_known _⟩

theorem capLand : Statement .capLand := ⟨rfl, by simp [tagOf], withNone_known _⟩

theorem rstDone : Statement .rstDone := ⟨rfl, by simp [tagOf], withNone_known _⟩

theorem irq : Statement .irq := ⟨rfl, by simp [tagOf], withNone_known _⟩

theorem drainBegin : Statement .drainBegin := ⟨rfl, by simp [tagOf], withNone_known _⟩

theorem drainSlot : Statement .drainSlot := ⟨rfl, by simp [tagOf], withNone_known _⟩

theorem drainEnd : Statement .drainEnd := ⟨rfl, by simp [tagOf], withNone_known _⟩

end Laws.Tag

end Sys2Proof
end

