-- ==== Sys2Proof/Laws/Tables.lean ====
section
/-! SUPPORT. What the tables of a ring hold: the bytes of a built table, the memory after tables are built, published and synced,
the registers after they are installed, and the memory after pages have been allocated. -/

namespace Sys2Proof.Machine

open Host (Outcome)

/-! ### The bytes of a table (30 R108, R109; 40 R131) -/

theorem leBytes_getElem? {k v i : Nat} (h : i < k) : (leBytes k v)[i]? = some (BitVec.ofNat 8 (v / 256 ^ i)) := by
  induction k generalizing v i with
  | zero => omega
  | succ k ih =>
    cases i with
    | zero => simp [leBytes]
    | succ i =>
      simp only [leBytes, List.getElem?_cons_succ]
      rw [ih (by omega), Nat.div_div_eq_div_mul, pow_succ, Nat.mul_comm]

theorem lowHalf_toNat (p : Addr) : (lowHalf p).toNat = p.toNat % 2 ^ 32 := by simp [lowHalf]

theorem highHalf_toNat (p : Addr) : (highHalf p).toNat = p.toNat / 2 ^ 32 := by
  have := p.isLt
  simp only [highHalf, BitVec.extractLsb'_toNat, Nat.shiftRight_eq_div_pow]; omega

theorem entryBytes_getElem? (p : Addr) {i : Nat} (h : i < 8) :
    (entryBytes p)[i]? = some (BitVec.ofNat 8 (p.toNat / 256 ^ i)) := by
  unfold entryBytes wordBytes
  by_cases h₄ : i < 4
  · rw [List.getElem?_append_left (by simpa using h₄), leBytes_getElem? h₄, lowHalf_toNat]
    congr 1
    apply BitVec.eq_of_toNat_eq
    simp only [BitVec.toNat_ofNat]
    interval_cases i <;> omega
  · rw [List.getElem?_append_right (by simp; omega)]
    simp only [leBytes_length]
    rw [leBytes_getElem? (by omega), highHalf_toNat, Nat.div_div_eq_div_mul]
    congr 3
    rw [show (2 : Nat) ^ 32 = 256 ^ 4 by norm_num, ← pow_add]
    congr 1; omega

theorem flatMap_entryBytes_getElem? (ps : List Addr) {k : Nat} (h : k < 8 * ps.length) :
    (ps.flatMap entryBytes)[k]? = some (BitVec.ofNat 8 ((ps.getD (k / 8) 0).toNat / 256 ^ (k % 8))) := by
  induction ps generalizing k with
  | nil => simp at h
  | cons p ps ih =>
    rw [List.flatMap_cons]
    by_cases h₈ : k < 8
    · rw [List.getElem?_append_left (by rw [entryBytes_length]; exact h₈), entryBytes_getElem? _ h₈]
      rw [Nat.div_eq_of_lt h₈, Nat.mod_eq_of_lt h₈]; rfl
    · rw [List.getElem?_append_right (by rw [entryBytes_length]; omega), entryBytes_length]
      rw [ih (by simp only [List.length_cons] at h; omega)]
      rw [show k / 8 = (k - 8) / 8 + 1 by omega, show k % 8 = (k - 8) % 8 by omega]; rfl

/-- The bytes BUILD writes are those of `tableByte`. -/
theorem tableBytes_getElem? {ps : List Addr} (hne : ps ≠ []) (hl : ps.length ≤ 512) {k : Nat} (h : k < 4096) :
    (tableBytes ps)[k]? = some (tableByte ps k) := by
  have hlen : (tableEntries ps).length = 512 := by
    simp only [tableEntries, List.length_append, List.length_replicate, Config.entriesPerTable]; omega
  have hpos : 0 < ps.length := List.length_pos_iff.2 hne
  unfold tableBytes tableByte
  rw [flatMap_entryBytes_getElem? _ (by rw [hlen]; omega)]
  congr 4
  unfold tableEntries
  by_cases hk : k / 8 < ps.length
  · rw [Nat.min_eq_left (by omega), List.getD_append _ _ _ _ hk]
  · rw [Nat.min_eq_right (by omega), List.getD_append_right _ _ _ _ (by omega), List.getD_eq_getElem?_getD,
      List.getElem?_replicate, if_pos (by unfold Config.entriesPerTable; omega), List.getD_eq_getElem?_getD,
      ← List.getLast?_eq_getElem?, List.getLastD_eq_getLast?]; rfl

theorem buildAllowed_iff (sh : Shared) (pages : List Addr) (table : Addr) :
    buildAllowed sh pages table = true ↔
      pages ≠ [] ∧ (∀ p ∈ pages, p.toNat % 4096 = 0 ∧ p.toNat ∈ sh.allocated) ∧
        table.toNat % 4096 = 0 ∧ table.toNat ∈ sh.allocated ∧ table ∉ pages := by
  simp [buildAllowed, usablePage, pageAligned, Config.pageSize, and_assoc]

theorem touchesFrozenTable_iff (chans : List Chan) (a n : Nat) :
    touchesFrozenTable chans a n = true ↔
      0 < n ∧ ∃ x ∈ chans, x.en = true ∧ ∃ r, x.ring = some r ∧ ∃ t ∈ r.table, t.toNat < a + n ∧ a < t.toNat + 4096 := by
  unfold touchesFrozenTable
  simp only [List.any_eq_true, Bool.and_eq_true, decide_eq_true_eq]
  refine and_congr_right fun _ => exists_congr fun x => and_congr_right fun _ => and_congr_right fun _ => ?_
  cases x.ring <;> simp [Config.pageSize]

theorem idleOrArmed_iff (c : Chan) : idleOrArmed c = true ↔ c.ringState = .idle ∨ c.ringState = .armed := by
  simp [idleOrArmed]

/-! ### Publishing and syncing pages -/

/-- The memory after pages have been published, in the order of a list. -/
theorem published_spec {ps : List Addr} (hp : ∀ p ∈ ps, p.toNat + 4096 ≤ 2 ^ 64) {sh : Shared} (hf : sh.Form) :
    sh.SameBooks (published ps sh) ∧
    (∀ a, a ∈ (published ps sh).dirty ↔ a ∈ sh.dirty ∧ ∀ t ∈ ps, ¬(t.toNat ≤ a ∧ a < t.toNat + 4096)) ∧
    (∀ a, byteAt (published ps sh) .cpu a = byteAt sh .cpu a) ∧
    (∀ t ∈ ps, ∀ a, t.toNat ≤ a → a < t.toNat + 4096 → byteAt (published ps sh) .dev a = byteAt sh .cpu a) ∧
    (∀ a, (∀ t ∈ ps, ¬(t.toNat ≤ a ∧ a < t.toNat + 4096)) → byteAt (published ps sh) .dev a = byteAt sh .dev a) := by
  induction ps generalizing sh with
  | nil => exact ⟨⟨rfl, rfl, rfl, rfl⟩, by simp [published], fun _ => rfl, by simp, fun _ _ => rfl⟩
  | cons p ps ih =>
    have e : published (p :: ps) sh = published ps (publish sh p.toNat Config.pageSize) := rfl
    obtain ⟨h₁, h₂, h₃, h₄, h₅⟩ := ih (fun q hq => hp q (by simp [hq]))
      (publish_form hf (a := p.toNat) (n := Config.pageSize) (hp p (by simp)))
    have hb := fun v a => byteAt_publish hf.cpu p.toNat 4096 v a
    rw [e]
    refine ⟨h₁, fun a => ?_, fun a => ?_, fun t ht a ha hb' => ?_, fun a ha => ?_⟩
    · rw [h₂]
      simp only [publish, mem_removeRange, List.mem_cons, forall_eq_or_imp, Config.pageSize]
      tauto
    · rw [h₃]; exact (hb _ _).trans (by simp)
    · by_cases hin : ∃ t' ∈ ps, t'.toNat ≤ a ∧ a < t'.toNat + 4096
      · obtain ⟨t', ht', h₆, h₇⟩ := hin
        rw [h₄ t' ht' a h₆ h₇]; exact (hb _ _).trans (by simp)
      · have hn : ∀ t ∈ ps, ¬(t.toNat ≤ a ∧ a < t.toNat + 4096) := fun t ht hh => hin ⟨t, ht, hh⟩
        rw [h₅ a hn]
        rcases List.mem_cons.1 ht with rfl | ht
        · exact (hb _ _).trans (by rw [if_pos ⟨rfl, ha, hb'⟩])
        · exact absurd ⟨ha, hb'⟩ (hn t ht)
    · rw [h₅ a fun t ht => ha t (by simp [ht])]
      exact (hb _ _).trans (by rw [if_neg]; intro h; exact ha p (by simp) h.2)

/-- The memory after pages have been synced for the CPU, in the order of a list. -/
theorem synced_spec {ps : List Addr} (hp : ∀ p ∈ ps, p.toNat + 4096 ≤ 2 ^ 64) {sh : Shared} (hf : sh.Form) :
    sh.SameBooks (synced ps sh) ∧
    (∀ a, a ∈ (synced ps sh).dirty ↔ a ∈ sh.dirty ∧ ∀ t ∈ ps, ¬(t.toNat ≤ a ∧ a < t.toNat + 4096)) ∧
    (∀ a, byteAt (synced ps sh) .dev a = byteAt sh .dev a) ∧
    (∀ t ∈ ps, ∀ a, t.toNat ≤ a → a < t.toNat + 4096 → byteAt (synced ps sh) .cpu a = byteAt sh .dev a) ∧
    (∀ a, (∀ t ∈ ps, ¬(t.toNat ≤ a ∧ a < t.toNat + 4096)) → byteAt (synced ps sh) .cpu a = byteAt sh .cpu a) := by
  induction ps generalizing sh with
  | nil => exact ⟨⟨rfl, rfl, rfl, rfl⟩, by simp [synced], fun _ => rfl, by simp, fun _ _ => rfl⟩
  | cons p ps ih =>
    have e : synced (p :: ps) sh = synced ps (syncCpu sh p.toNat Config.pageSize) := rfl
    obtain ⟨h₁, h₂, h₃, h₄, h₅⟩ := ih (fun q hq => hp q (by simp [hq]))
      (syncCpu_form hf (a := p.toNat) (n := Config.pageSize) (hp p (by simp)))
    have hb := fun v a => byteAt_syncCpu hf.dev p.toNat 4096 v a
    rw [e]
    refine ⟨h₁, fun a => ?_, fun a => ?_, fun t ht a ha hb' => ?_, fun a ha => ?_⟩
    · rw [h₂]
      simp only [syncCpu, mem_removeRange, List.mem_cons, forall_eq_or_imp, Config.pageSize]
      tauto
    · rw [h₃]; exact (hb _ _).trans (by simp)
    · by_cases hin : ∃ t' ∈ ps, t'.toNat ≤ a ∧ a < t'.toNat + 4096
      · obtain ⟨t', ht', h₆, h₇⟩ := hin
        rw [h₄ t' ht' a h₆ h₇]; exact (hb _ _).trans (by simp)
      · have hn : ∀ t ∈ ps, ¬(t.toNat ≤ a ∧ a < t.toNat + 4096) := fun t ht hh => hin ⟨t, ht, hh⟩
        rw [h₅ a hn]
        rcases List.mem_cons.1 ht with rfl | ht
        · exact (hb _ _).trans (by rw [if_pos ⟨rfl, ha, hb'⟩])
        · exact absurd ⟨ha, hb'⟩ (hn t ht)
    · rw [h₅ a fun t ht => ha t (by simp [ht])]
      exact (hb _ _).trans (by rw [if_neg]; intro h; exact ha p (by simp) h.2)

/-! ### Installed registers -/

/-- The table registers after the tables of a ring have been installed (40 R135). -/
theorem installedChan_spec (ts : List Addr) (c : Chan) :
    (∀ (i : Fin 8) (t : Addr), ts[i.val]? = some t →
      (installedChan 0 ts c).tableLow.get i = t.extractLsb' 12 20 ∧
        (installedChan 0 ts c).tableHigh.get i = t.extractLsb' 32 32) ∧
    (∀ i : Fin 8, ts.length ≤ i.val →
      (installedChan 0 ts c).tableLow.get i = c.tableLow.get i ∧
        (installedChan 0 ts c).tableHigh.get i = c.tableHigh.get i) := by
  refine ⟨fun i t ht => ?_, fun i hi => ?_⟩
  · obtain ⟨h₁, h₂⟩ := List.getElem?_eq_some_iff.1 ht
    simp only [installedChan, installedLow, installedHigh, Vector.get_eq_getElem, Vector.getElem_ofFn, Nat.zero_le,
      true_and, Nat.zero_add, h₁, dite_true, Nat.sub_zero, h₂]
    refine ⟨?_, rfl⟩
    unfold tableLowField lowHalf
    apply BitVec.eq_of_getLsbD_eq
    intro k hk
    simp [hk]
  · have h₁ : ¬i.val < ts.length := by omega
    simp only [installedChan, installedLow, installedHigh, Vector.get_eq_getElem, Vector.getElem_ofFn, Nat.zero_le,
      true_and, Nat.zero_add, h₁, dite_false]

theorem pageAddress_toNat (hi lo : Word) :
    (pageAddress hi lo).toNat = hi.toNat * 2 ^ 32 + lo.toNat / 4096 * 4096 := by
  unfold pageAddress tableLowWord
  rw [BitVec.toNat_append, BitVec.toNat_append]
  have hl := lo.isLt
  have h₁ : (tableLowField lo).toNat = lo.toNat / 4096 := by
    simp only [tableLowField, BitVec.extractLsb'_toNat, Nat.shiftRight_eq_div_pow]
    omega
  rw [h₁]
  simp only [BitVec.toNat_ofNat, Nat.zero_mod, Nat.or_zero]
  rw [← Nat.shiftLeft_add_eq_or_of_lt (by rw [Nat.shiftLeft_eq]; omega)]
  simp only [Nat.shiftLeft_eq]

/-- The two halves of a page address put together again are the page address. -/
theorem pageAddress_halves {p : Addr} (h : p.toNat % 4096 = 0) : pageAddress (highHalf p) (lowHalf p) = p := by
  apply BitVec.eq_of_toNat_eq
  rw [pageAddress_toNat, lowHalf_toNat, highHalf_toNat]
  have := p.isLt; omega

/-- The table a register pair names after it has been installed. -/
theorem tableBase_installed {ts : List Addr} {c : Chan} {i : Fin 8} {t : Addr} (ht : ts[i.val]? = some t)
    (ha : t.toNat % 4096 = 0) : tableBase (installedChan 0 ts c) i = t := by
  obtain ⟨h₁, h₂⟩ := List.getElem?_eq_some_iff.1 ht
  have e : tableBase (installedChan 0 ts c) i = pageAddress (highHalf t) (lowHalf t) := by
    simp only [tableBase, pageAddress, installedChan, installedLow, installedHigh, Vector.get_eq_getElem,
      Vector.getElem_ofFn, Nat.zero_le, true_and, Nat.zero_add, h₁, dite_true, Nat.sub_zero, h₂]
  rw [e, pageAddress_halves ha]

/-! ### Building every table of a ring -/

/-- The shared state after the tables of a list of pages and table pages have been written. -/
def builtAll (ps : List (List Addr × Addr)) (sh : Shared) : Shared :=
  ps.foldl (fun acc x => writeCpu acc x.2.toNat (tableBytes x.1)) sh

theorem buildAll_ok {ps : List (List Addr × Addr)} {sh : Shared}
    (h : ∀ x ∈ ps, buildAllowed sh x.1 x.2 = true ∧ x.1.length ≤ 512) : buildAll ps sh = .next (.ok, builtAll ps sh) := by
  induction ps generalizing sh with
  | nil => rfl
  | cons x ps ih =>
    obtain ⟨pages, table⟩ := x
    have hx := h (pages, table) (by simp)
    unfold buildAll
    rw [buildTable_eq_next.2 ⟨hx.1, .inr ⟨hx.2, rfl, rfl⟩⟩]
    simp only [andThen_next]
    rw [ih (sh := writeCpu sh table.toNat (tableBytes pages)) fun y hy => ⟨?_, (h y (by simp [hy])).2⟩]
    · rfl
    · have := (h y (by simp [hy])).1
      rw [buildAllowed_iff] at this ⊢
      exact this

theorem buildAll_overflow {x : List Addr × Addr} {ps : List (List Addr × Addr)} {sh : Shared}
    (h : buildAllowed sh x.1 x.2 = true) (hl : 512 < x.1.length) :
    buildAll (x :: ps) sh = .next (.error .tableOverflow, sh) := by
  obtain ⟨pages, table⟩ := x
  unfold buildAll
  rw [buildTable_eq_next.2 ⟨h, .inl ⟨hl, rfl, rfl⟩⟩]; rfl

/-- The memory after every table has been written, the table pages being distinct pages. -/
theorem builtAll_spec {ps : List (List Addr × Addr)}
    (hp : ∀ x ∈ ps, x.1 ≠ [] ∧ x.1.length ≤ 512 ∧ x.2.toNat % 4096 = 0) (hn : (ps.map Prod.snd).Nodup) (sh : Shared) :
    sh.SameBooks (builtAll ps sh) ∧ (builtAll ps sh).memDev = sh.memDev ∧
    (∀ x ∈ ps, ∀ k, k < 4096 → byteAt (builtAll ps sh) .cpu (x.2.toNat + k) = tableByte x.1 k) ∧
    (∀ v a, (∀ x ∈ ps, pageOf a ≠ x.2.toNat) → byteAt (builtAll ps sh) v a = byteAt sh v a) := by
  induction ps generalizing sh with
  | nil => exact ⟨⟨rfl, rfl, rfl, rfl⟩, rfl, by simp, fun _ _ _ => rfl⟩
  | cons x ps ih =>
    obtain ⟨hx₁, hx₂, hx₃⟩ := hp x (by simp)
    rw [List.map_cons, List.nodup_cons] at hn
    have e : builtAll (x :: ps) sh = builtAll ps (writeCpu sh x.2.toNat (tableBytes x.1)) := rfl
    obtain ⟨h₁, h₂, h₃, h₄⟩ := ih (fun y hy => hp y (by simp [hy])) hn.2 (writeCpu sh x.2.toNat (tableBytes x.1))
    rw [e]
    refine ⟨h₁, h₂, fun y hy k hk => ?_, fun v a ha => ?_⟩
    · rcases List.mem_cons.1 hy with rfl | hy
      · rw [h₄, byteAt_writeCpu, if_pos ⟨rfl, by omega, by rw [tableBytes_length hx₂]; unfold Config.pageSize; omega⟩]
        · rw [Nat.add_sub_cancel_left, tableBytes_getElem? hx₁ hx₂ hk]; rfl
        · intro z hz he
          rw [pageOf_within hx₃ hk] at he
          exact hn.1 (List.mem_map.2 ⟨z, hz, (BitVec.eq_of_toNat_eq he).symm⟩)
      · exact h₃ y hy k hk
    · rw [h₄ v a fun y hy => ha y (by simp [hy]), byteAt_writeCpu, if_neg]
      rintro ⟨-, h₅, h₆⟩
      rw [tableBytes_length hx₂] at h₆
      refine ha x (by simp) ?_
      have := pageOf_within hx₃ (k := a - x.2.toNat) (by omega)
      rwa [Nat.add_sub_cancel' h₅] at this

/-! ### Memory and the allocator -/

theorem find?_filter_key {l : List (Nat × Nat)} {p : Nat → Bool} {q : Nat} (h : p q = true) :
    (l.filter fun e => p e.1).find? (fun e => e.1 == q) = l.find? (fun e => e.1 == q) := by
  induction l with
  | nil => rfl
  | cons e l ih =>
    by_cases hq : e.1 = q
    · subst hq; simp [h]
    · by_cases hp : p e.1 = true
      · simp [hp, hq, ih]
      · simp [hp, hq, ih]

theorem find?_filter_other {l : List (Nat × Nat)} {p : Nat → Bool} {q : Nat} (h : p q = false) :
    (l.filter fun e => p e.1).find? (fun e => e.1 == q) = none := by
  rw [List.find?_eq_none]
  intro e he
  have := (List.mem_filter.1 he).2
  simp only [beq_iff_eq]
  rintro rfl
  rw [h] at this; cases this

/-- Allocating a page changes the age of that page alone. -/
theorem ageOf_freshPage (sh : Shared) {p q : Nat} (h : q ≠ p) : ageOf (freshPage sh p) q = ageOf sh q := by
  unfold ageOf freshPage
  simp only [List.find?_append]
  rcases Nat.lt_or_gt_of_ne h with hlt | hlt
  · rw [find?_filter_key (p := fun x => decide (x < p)) (by simpa using hlt)]
    cases hf : sh.pageAge.find? (fun e => e.1 == q) with
    | some e => rfl
    | none =>
      rw [List.find?_cons, show (p == q) = false by simpa using Ne.symm h]
      simp only
      rw [find?_filter_other (p := fun x => decide (p < x)) (by simp; omega)]; rfl
  · rw [find?_filter_other (p := fun x => decide (x < p)) (by simp; omega)]
    rw [List.find?_cons, show (p == q) = false by simpa using Ne.symm h]
    simp only
    rw [find?_filter_key (p := fun x => decide (p < x)) (by simpa using hlt)]; rfl

/-- Allocating a page changes no byte outside it. -/
theorem byteAt_freshPage (sh : Shared) {p : Nat} (hp : p % 4096 = 0) (v : View) {a : Nat} (h : pageOf a ≠ p) :
    byteAt (freshPage sh p) v a = byteAt sh v a := by
  have hn : ¬(p ≤ a ∧ a < p + 4096) := by
    rintro ⟨h₁, h₂⟩
    have := pageOf_within hp (k := a - p) (by unfold Config.pageSize; omega)
    rw [Nat.add_sub_cancel' h₁] at this
    exact h this
  have hv : (freshPage sh p).view v = forgetBytes (sh.view v) p Config.pageSize := by cases v <;> rfl
  rw [byteAt_def, byteAt_def, hv, lookup_forgetBytes, if_neg hn]
  simp only [freshByteAt, ageOf_freshPage sh h]

theorem byteAt_drawAnswer (sh : Shared) (v : View) (a : Nat) : byteAt (drawAnswer sh).2 v a = byteAt sh v a := by
  unfold drawAnswer
  split <;> cases v <;> rfl

/-- The bytes of an aligned page. -/
theorem pageOf_eq_iff {p : Nat} (hp : p % 4096 = 0) (a : Nat) : pageOf a = p ↔ p ≤ a ∧ a < p + 4096 := by
  unfold pageOf Config.pageSize; omega

/-- What `alloc_page` leaves of `dirty`: the bytes of the page it gives leave it. -/
theorem allocPage_dirty {sh sh' : Shared} {x : Option Addr} (h : allocPage sh = (x, sh')) (a : Nat) :
    a ∈ sh'.dirty ↔ a ∈ sh.dirty ∧ ∀ p, x = some p → pageOf a ≠ p.toNat := by
  have hd : (drawAnswer sh).2.dirty = sh.dirty := by unfold drawAnswer; split <;> rfl
  unfold allocPage at h
  split at h
  · rename_i sh₁ hs
    replace hd : sh₁.dirty = sh.dirty := by rw [hs] at hd; exact hd
    obtain ⟨rfl, rfl⟩ := Prod.mk.inj h
    simp [hd]
  · rename_i b sh₁ hs
    replace hd : sh₁.dirty = sh.dirty := by rw [hs] at hd; exact hd
    simp only at h
    split at h
    · obtain ⟨rfl, rfl⟩ := Prod.mk.inj h
      simp [hd]
    · obtain ⟨rfl, rfl⟩ := Prod.mk.inj h
      simp only [freshPage, mem_removeRange, hd, Option.some.injEq, forall_eq']
      rw [ne_eq, pageOf_eq_iff (pageAddress_aligned _ _), Config.pageSize]

/-- What the allocation of several pages leaves of `dirty`: the bytes of the pages given leave it. -/
theorem allocPages_dirty {k : Nat} {got₀ new : List Addr} {sh sh' : Shared} {ok : Bool}
    (h : allocPages k got₀ sh = (ok, got₀ ++ new, sh')) (a : Nat) :
    a ∈ sh'.dirty ↔ a ∈ sh.dirty ∧ ∀ q ∈ new, pageOf a ≠ q.toNat := by
  induction k generalizing got₀ new sh with
  | zero =>
    simp only [allocPages, Prod.mk.injEq] at h
    obtain rfl := List.append_cancel_left ((List.append_nil _).trans h.2.1)
    simp [h.2.2]
  | succ k ih =>
    unfold allocPages at h
    cases hx : allocPage sh with
    | mk x sh₁ =>
      have hd := allocPage_dirty hx
      rw [hx] at h
      cases x with
      | none =>
        simp only [Prod.mk.injEq] at h
        obtain rfl := List.append_cancel_left ((List.append_nil _).trans h.2.1)
        rw [← h.2.2, hd]; simp
      | some p =>
        simp only at h
        obtain ⟨more, hm, -⟩ := allocPages_spec h
        rw [List.append_assoc, List.singleton_append] at hm
        obtain rfl := List.append_cancel_left hm
        rw [ih (got₀ := got₀ ++ [p]) (new := more) (by rw [h]; simp), hd]
        simp [and_assoc]

/-- What building every table leaves of `dirty` outside the table pages. -/
theorem builtAll_dirty {ps : List (List Addr × Addr)} (hp : ∀ x ∈ ps, x.1.length ≤ 512) (sh : Shared) (a : Nat) :
    a ∈ (builtAll ps sh).dirty ↔ a ∈ sh.dirty ∨ ∃ x ∈ ps, x.2.toNat ≤ a ∧ a < x.2.toNat + 4096 := by
  induction ps generalizing sh with
  | nil => simp [builtAll]
  | cons x ps ih =>
    have e : builtAll (x :: ps) sh = builtAll ps (writeCpu sh x.2.toNat (tableBytes x.1)) := rfl
    rw [e, ih (fun y hy => hp y (by simp [hy])), writeCpu]
    simp only [mem_addRange, tableBytes_length (hp x (by simp)), or_assoc, List.exists_mem_cons_iff, Config.pageSize]

/-- Allocating pages changes no byte outside the pages given. -/
theorem allocPages_bytes {k : Nat} {got₀ new : List Addr} {sh sh' : Shared} {ok : Bool}
    (h : allocPages k got₀ sh = (ok, got₀ ++ new, sh')) (v : View) {a : Nat} (ha : ∀ q ∈ new, pageOf a ≠ q.toNat) :
    byteAt sh' v a = byteAt sh v a := by
  induction k generalizing got₀ new sh with
  | zero =>
    simp only [allocPages, Prod.mk.injEq] at h
    rw [h.2.2]
  | succ k ih =>
    have hd := byteAt_drawAnswer sh v a
    unfold allocPages allocPage at h
    cases hx : drawAnswer sh with
    | mk x sh₁ =>
      rw [hx] at h hd
      cases x with
      | none => simp only [Prod.mk.injEq] at h; rw [← h.2.2]; exact hd
      | some x =>
        simp only at h
        split at h
        · rename_i heq
          split at heq
          · obtain ⟨-, rfl⟩ := Prod.mk.inj heq
            simp only [Prod.mk.injEq] at h; rw [← h.2.2]; exact hd
          · simp at heq
        · rename_i p sh₂ heq
          split at heq
          · simp at heq
          · simp only [Prod.mk.injEq, Option.some.injEq] at heq
            obtain ⟨rfl, rfl⟩ := heq
            obtain ⟨new', e, -⟩ := allocPages_spec h
            have hn : new = pageAddress (highHalf x) (lowHalf x) :: new' := by
              rw [List.append_assoc] at e
              exact List.append_cancel_left e
            subst hn
            rw [e] at h
            rw [ih h fun q hq => ha q (by simp [hq])]
            rw [byteAt_freshPage _ (pageAddress_aligned _ _) _ (ha _ (by simp))]
            exact hd

/-- An allocator that answers with new, distinct pages gives exactly them. -/
theorem allocPages_given {got : List Addr} {rest : List (Option Addr)} {got₀ : List Addr} {sh : Shared}
    (hi : sh.allocIn = got.map some ++ rest) (hn : got.Nodup)
    (hp : ∀ p ∈ got, p.toNat % 4096 = 0 ∧ p.toNat ∉ sh.allocated) :
    ∃ sh', allocPages got.length got₀ sh = (true, got₀ ++ got, sh') ∧ sh'.allocIn = rest := by
  induction got generalizing got₀ sh with
  | nil => exact ⟨sh, by simp [allocPages], by simpa using hi⟩
  | cons p got ih =>
    obtain ⟨h₁, h₂⟩ := hp p (by simp)
    rw [List.nodup_cons] at hn
    have hd : drawAnswer sh = (some p, { sh with allocIn := got.map some ++ rest }) := by
      unfold drawAnswer
      rw [hi]; rfl
    have ha : allocPage sh = (some p, freshPage { sh with allocIn := got.map some ++ rest } p.toNat) := by
      unfold allocPage
      rw [hd]
      simp only
      rw [pageAddress_halves h₁, if_neg (by simpa using h₂)]
    obtain ⟨sh', e, e'⟩ := ih (got₀ := got₀ ++ [p]) (sh := freshPage { sh with allocIn := got.map some ++ rest } p.toNat)
      rfl hn.2 (fun q hq => ⟨(hp q (by simp [hq])).1, fun hm => by
        rcases (mem_freshPage _ _ _).1 hm with hm | hm
        · exact (hp q (by simp [hq])).2 hm
        · exact hn.1 (BitVec.eq_of_toNat_eq hm ▸ hq)⟩)
    refine ⟨sh', ?_, e'⟩
    rw [List.length_cons]
    unfold allocPages
    rw [ha]
    simp only
    rw [e]; simp

/-! ### The ring INIT makes (41 R141) -/

theorem pagesFor_eq (s : Nat) : pagesFor s = (s + 4095) / 4096 := rfl

/-- Slot `i` of the ring INIT makes: its data pages, and its table page. -/
theorem ringOf_slot (s : Nat) (got : List Addr) {n i : Nat} (hi : i < n) :
    (ringOf n s got).pages[i]? = some (slotPages got (pagesFor s) i) ∧
      (ringOf n s got).table[i]? = got[n * pagesFor s + i]? := by
  refine ⟨by simp [ringOf, hi], ?_⟩
  simp only [ringOf]
  rw [List.getElem?_take_of_lt hi, List.getElem?_drop]

theorem slot_le {n i : Nat} (p : Nat) (hi : i < n) : i * p + p ≤ n * p := by
  rw [← Nat.succ_mul]; exact Nat.mul_le_mul_right _ hi

theorem slotPages_length {n s i : Nat} {got : List Addr} (h : got.length = initPages n s) (hi : i < n) :
    (slotPages got (pagesFor s) i).length = pagesFor s := by
  unfold initPages at h
  have := slot_le (pagesFor s) hi
  simp only [slotPages, List.length_take, List.length_drop]; omega

theorem slotPages_getElem? {p j : Nat} (got : List Addr) (i : Nat) (hj : j < p) :
    (slotPages got p i)[j]? = got[i * p + j]? := by
  simp only [slotPages]
  rw [List.getElem?_take_of_lt hj, List.getElem?_drop]

/-- What INIT hands to BUILD: the pages of each slot with its table. -/
theorem ringOf_zip_mem {n s : Nat} {got : List Addr} {x : List Addr × Addr}
    (hx : x ∈ (ringOf n s got).pages.zip (ringOf n s got).table) :
    ∃ i, i < n ∧ x.1 = slotPages got (pagesFor s) i ∧ got[n * pagesFor s + i]? = some x.2 := by
  obtain ⟨i, hi⟩ := List.getElem?_of_mem hx
  rw [List.getElem?_zip_eq_some] at hi
  obtain ⟨h1, h2⟩ := hi
  have hin : i < n := by
    have := (List.getElem?_eq_some_iff.1 h1).1
    simpa [ringOf] using this
  obtain ⟨h3, h4⟩ := ringOf_slot s got hin
  rw [h3] at h1; rw [h4] at h2
  exact ⟨i, hin, (Option.some.inj h1).symm, h2⟩

/-- Each of these BUILDs meets its preconditions, where the pages got are distinct and allocated. -/
theorem ringOf_zip_allowed {n s : Nat} {got : List Addr} (h : got.length = initPages n s) (hs : 1 ≤ s)
    (hn : got.Nodup) {sh : Shared} (hp : ∀ p ∈ got, p.toNat % 4096 = 0 ∧ p.toNat ∈ sh.allocated)
    {x : List Addr × Addr} (hx : x ∈ (ringOf n s got).pages.zip (ringOf n s got).table) :
    buildAllowed sh x.1 x.2 = true ∧ x.1.length = pagesFor s := by
  obtain ⟨i, hi, h1, h2⟩ := ringOf_zip_mem hx
  have hl := slotPages_length h hi
  have hP : 1 ≤ pagesFor s := by rw [pagesFor_eq]; omega
  have hx2 : x.2 ∈ got := List.mem_of_getElem? h2
  have hsub : ∀ p ∈ x.1, ∃ j, j < n * pagesFor s ∧ got[j]? = some p := by
    intro p hp
    rw [h1] at hp
    obtain ⟨j, hj⟩ := List.getElem?_of_mem hp
    have hjl := (List.getElem?_eq_some_iff.1 hj).1
    rw [hl] at hjl
    rw [slotPages_getElem? got i hjl] at hj
    have := slot_le (pagesFor s) hi
    exact ⟨_, by omega, hj⟩
  refine ⟨(buildAllowed_iff _ _ _).2 ⟨?_, fun p hpx => ?_, (hp _ hx2).1, (hp _ hx2).2, fun hm => ?_⟩, by rw [h1, hl]⟩
  · intro e; rw [h1] at e; rw [e] at hl; simp at hl; omega
  · obtain ⟨j, -, hj⟩ := hsub p hpx
    exact hp p (List.mem_of_getElem? hj)
  · obtain ⟨j, hj, hj'⟩ := hsub _ hm
    obtain ⟨a1, a2⟩ := List.getElem?_eq_some_iff.1 hj'
    obtain ⟨b1, b2⟩ := List.getElem?_eq_some_iff.1 h2
    have := (List.Nodup.getElem_inj_iff hn (hi := a1) (hj := b1)).1 (a2.trans b2.symm)
    omega

theorem ringOf_zip_snd {n s : Nat} {got : List Addr} :
    ((ringOf n s got).pages.zip (ringOf n s got).table).map Prod.snd = (ringOf n s got).table := by
  apply List.map_snd_zip
  simp only [ringOf, List.length_take, List.length_drop, List.length_map, List.length_range]; omega

theorem ringOf_table_mem {n s : Nat} {got : List Addr} : ∀ t ∈ (ringOf n s got).table, t ∈ got := by
  intro t ht; simp only [ringOf] at ht
  exact List.mem_of_mem_drop (List.mem_of_mem_take ht)

theorem ringOf_table_nodup {n s : Nat} {got : List Addr} (hn : got.Nodup) : (ringOf n s got).table.Nodup := by
  simp only [ringOf]
  exact (List.take_sublist _ _).nodup ((List.drop_sublist _ _).nodup hn)

/-- INIT whose allocator gave every page: the ring, its tables built, published and installed. -/
theorem initRing_done {c : Chan} {n s : Nat} {got : List Addr} {sh sh1 : Shared} (he : c.en = false)
    (hst : c.ringState = .absent) (hn1 : 1 ≤ n) (hn8 : n ≤ 8) (hs : 1 ≤ s) (hP : pagesFor s ≤ 512)
    (h : allocPages (initPages n s) [] sh = (true, got, sh1)) :
    initRing n s ⟨c, sh⟩ = .next ⟨initializedChan (ringOf n s got) c,
      published (ringOf n s got).table (builtAll ((ringOf n s got).pages.zip (ringOf n s got).table) sh1)⟩ := by
  obtain ⟨new, hgot, hlen, -, hnd, hpg, hal, hform⟩ := allocPages_spec h
  simp only [List.nil_append] at hgot
  subst hgot
  have hl := hlen rfl
  have hnd' : got.Nodup := List.Nodup.of_map _ hnd
  have hin : ∀ p ∈ got, p.toNat % 4096 = 0 ∧ p.toNat ∈ sh1.allocated :=
    fun p hp => ⟨(hpg p hp).1, (hal _).2 (.inr (List.mem_map.2 ⟨p, hp, rfl⟩))⟩
  have hz : ∀ x ∈ (ringOf n s got).pages.zip (ringOf n s got).table,
      buildAllowed sh1 x.1 x.2 = true ∧ x.1.length ≤ 512 :=
    fun x hx => ⟨(ringOf_zip_allowed hl hs hnd' hin hx).1, by rw [(ringOf_zip_allowed hl hs hnd' hin hx).2]; exact hP⟩
  unfold initRing
  rw [if_pos ⟨hst, hn1, hn8, hs⟩, h]
  simp only
  rw [buildAll_ok hz]
  simp only [andThen_next]
  have hb := builtAll_spec (ps := (ringOf n s got).pages.zip (ringOf n s got).table) (fun x hx => by
    have h2 := (buildAllowed_iff _ _ _).1 (hz x hx).1
    exact ⟨h2.1, (hz x hx).2, h2.2.2.1⟩) (by rw [ringOf_zip_snd]; exact ringOf_table_nodup hnd') sh1
  have hsh := shape_ringOf (n := n) (s := s) ⟨hn1, hn8⟩ hs hl (fun p hp => (hpg p hp).1) hP
  refine (initInstall_eq_next hsh.table_ne_nil hsh.slots.2).2 ⟨he, ?_, fun t ht => ?_, rfl⟩
  · rw [hsh.tableCount]; exact hsh.slots.2
  · have := hin t (ringOf_table_mem t ht)
    refine rangeAllocated_page this.1 ?_
    show t.toNat ∈ (builtAll _ sh1).allocated
    rw [hb.1.1]; exact this.2

end Sys2Proof.Machine
end

