-- ==== Sys2Proof/Tests/Slice0.lean ====
section
/-! SUPPORT. Tests: ill-formed operands that WellFormed refuses, byte forms written out from 30_encoding.md, vectors of
95_test_vectors.md, and for each statement with hypotheses a state that meets them (`witness_<statement>`). -/

namespace Sys2Proof.Tests

/- One theorem after the other: `decide` waits for the kernel, and many waiting at once need a thread each. -/
set_option Elab.async false

open Sys2Proof.Machine
open Host (Outcome)

/-! ### WellFormed: each check refuses (30 R113) -/

theorem test_flush_of_no_byte_ill_formed : wellFormed (.flush 0x2000 0) = false := by decide
theorem test_cpu_sync_of_no_byte_ill_formed : wellFormed (.cpuSync 0x2000 0) = false := by decide
theorem test_init_of_no_slot_ill_formed : wellFormed (.init 0 564) = false := by decide
theorem test_init_of_nine_slots_ill_formed : wellFormed (.init 9 564) = false := by decide
theorem test_scan_offset_188_ill_formed : wellFormed (.scan [] (some 188)) = false := by decide
theorem test_align_offset_188_ill_formed : wellFormed (.align [] 188 []) = false := by decide
theorem test_align_stage_188_ill_formed : wellFormed (.align [] 0 (List.replicate 188 0x47#8)) = false := by decide +kernel

/-! ### Decoding: byte forms written out (tags 30 R112; operand bytes log 2), one of each class and every operand reader -/

theorem test_decode_buffer_mode_write :
    decode [0x01#8, 0x47#8, 0x00#8, 0x00#8, 0x00#8] = .ok (.wrDmaBufferMode 0x00000047, []) := by decide
theorem test_decode_table_low_write :
    decode [0x02#8, 0x07#8, 0xFF#8, 0x4F#8, 0x01#8, 0x00#8] = .ok (.wrDmaPageTableAddrLow 7 0x00014FFF, []) := by decide
theorem test_decode_table_number_8_refused :
    decode [0x02#8, 0x08#8, 0x00#8, 0x00#8, 0x00#8, 0x00#8] = .error .operandOutOfDomain := by decide
theorem test_decode_int_clear_write :
    decode [0x08#8, 0x01#8, 0x00#8, 0x00#8, 0x80#8] = .ok (.wrIntClear 0x80000001, []) := by decide
theorem test_decode_reads :
    decode [0x10#8] = .ok (.rdDmaEnable, []) ∧ decode [0x13#8, 0x05#8] = .ok (.rdDmaPageTableAddrHigh 5, []) ∧
    decode [0x18#8] = .ok (.rdIntClear, []) := by decide
theorem test_decode_flush :
    decode [0x20#8, 0x00#8, 0x20#8, 0x00#8, 0x00#8, 0x00#8, 0x00#8, 0x00#8, 0x80#8, 0x04#8] =
      .ok (.flush 0x8000000000002000 4, []) := by decide
theorem test_decode_cpu_sync_of_4096 :
    decode [0x21#8, 0x00#8, 0x00#8, 0x01#8, 0x00#8, 0x00#8, 0x00#8, 0x00#8, 0x00#8, 0x80#8, 0x20#8] =
      .ok (.cpuSync 0x10000 4096, []) := by decide
theorem test_decode_build :
    decode [0x40#8, 0x01#8, 0x00#8, 0x00#8, 0x01#8, 0x00#8, 0x00#8, 0x00#8, 0x00#8, 0x00#8,
      0x00#8, 0x00#8, 0x02#8, 0x00#8, 0x00#8, 0x00#8, 0x00#8, 0x00#8] = .ok (.build [0x10000] 0x20000, []) := by decide
theorem test_decode_init_4_564 : decode [0x42#8, 0x04#8, 0xB4#8, 0x04#8] = .ok (.init 4 564, []) := by decide
theorem test_decode_start_188_3 : decode [0x47#8, 0xBC#8, 0x01#8, 0x03#8] = .ok (.start 188 3, []) := by decide
theorem test_decode_read_slot : decode [0x46#8, 0x07#8] = .ok (.readSlot 7, []) := by decide
theorem test_decode_scan_unknown :
    decode [0x49#8, 0x02#8, 0x00#8, 0x47#8, 0xFF#8] = .ok (.scan [0x00#8, 0x47#8] none, []) := by decide
theorem test_decode_align :
    decode [0x4A#8, 0x01#8, 0x00#8, 0xBB#8, 0x01#8, 0x47#8] = .ok (.align [0x00#8] 187 [0x47#8], []) := by decide
theorem test_decode_sink_write : decode [0x4B#8, 0x01#8, 0x47#8] = .ok (.sinkWrite [0x47#8], []) := by decide
theorem test_decode_agent_steps :
    decode [0x80#8] = .ok (.capByte, []) ∧ decode [0x81#8] = .ok (.capLand, []) ∧ decode [0x82#8] = .ok (.rstDone, []) ∧
    decode [0x83#8] = .ok (.irq, []) ∧ decode [0x84#8] = .ok (.drainBegin, []) ∧ decode [0x85#8] = .ok (.drainSlot, []) ∧
    decode [0x86#8] = .ok (.drainEnd, []) := by decide
theorem test_decode_ring_operations :
    decode [0x41#8] = .ok (.installTables, []) ∧ decode [0x43#8] = .ok (.teardown, []) ∧ decode [0x44#8] = .ok (.reset, []) ∧
    decode [0x45#8] = .ok (.currentWriteIndex, []) ∧ decode [0x48#8] = .ok (.stop, []) := by decide

/-- X13: tags between the classes are none. -/
theorem test_unknown_tags_refused :
    decode [0x09#8] = .error .unknownTag ∧ decode [0x22#8] = .error .unknownTag ∧ decode [0x87#8] = .error .unknownTag ∧
    decode [0xFF#8] = .error .unknownTag := by decide

/-! ### Small states -/

/-- A channel after power-on with port number 0. -/
def chan : Chan := { Chan.reset 0 with port := 0 }

/-- The ring of 95_test_vectors.md P1: `init(4, 564)`. -/
def ring : Ring where
  nSlots := 4
  slotSize := 564
  pagesPerSlot := 1
  pages := [[0x10000#64], [0x11000#64], [0x12000#64], [0x13000#64]]
  table := [0x14000#64, 0x15000#64, 0x16000#64, 0x17000#64]
  spare := 0x18000#64

/-- The shared state of P1: the nine pages are allocated. -/
def shared : Shared :=
  { Shared.reset with
    allocated := [0x10000, 0x11000, 0x12000, 0x13000, 0x14000, 0x15000, 0x16000, 0x17000, 0x18000] }

/-- One channel, `MARGIN` 1, no erratum, the default map. -/
def machine (c : Chan) : State := ⟨⟨.one, false, RegMap.default⟩, [c], shared, 0, []⟩

/-- The same on an affected revision. -/
def affected (c : Chan) : State := { machine c with cfg := ⟨.one, true, RegMap.default⟩ }

/-- The same with a turn to take. -/
def turn (s : State) (t : Turn) : State := s.withSchedule [t]

/-- An Idle ring of P1. -/
def idle : Chan := { chan with ring := some ring, ringState := .idle, slotCountM1 := 3 }

/-- The same ring Streaming. -/
def streaming : Chan :=
  { idle with ringState := .streaming, en := true, blockSize := 564, totalSize := 2256, intEnable := true,
              clockMode := .external }

/-- One byte waiting to land in slot 0, at an allocated page and at a free one. -/
def queued : InFlight := ⟨0, 0x10005, 0x47⟩
def lost : InFlight := ⟨0, 0x90005, 0x47⟩

/-- An Idle ring with the largest sizes an enable takes. -/
def sized : Chan := { idle with blockSize := 2097152, totalSize := 8388608 }

/-- A running unit with a byte on its way, to an allocated page or to one no ring owns. -/
def landing : Chan := { streaming with inflight := [queued] }
def losing : Chan := { streaming with inflight := [lost] }

/-- An affected unit that has been read with no write since, the environment's next value given. -/
def unpaired : Chan := { streaming with trackDirty := true, spoilIn := [3] }

/-- A machine with one dirty byte. -/
def dirtied : State := { machine idle with shared := { shared with dirty := [0x10005] } }

theorem machine_at (c : Chan) : (machine c).At c := rfl

theorem ring_shape : ring.Shape where
  slots := by decide +kernel
  size := by decide +kernel
  perSlot := by decide +kernel
  pagesCount := by decide +kernel
  pagesEach := by decide +kernel
  tableCount := by decide +kernel
  aligned := by simp [ringPages, ring, pageAligned, Config.pageSize]

theorem shared_form : shared.Form where
  cpu := by decide +kernel
  dev := by decide +kernel
  dirtyRising := by decide +kernel
  dirtyInside := by decide +kernel
  allocatedRising := by decide +kernel
  allocatedPages := by decide +kernel

theorem tables_allocated : ∀ t ∈ ring.table, t.toNat ∈ shared.allocated := by simp [ring, shared]

theorem slots_allocated : ∀ ps ∈ ring.pages, ∀ p ∈ ps, p.toNat ∈ shared.allocated := by simp [ring, shared]

/-! ### Witnesses of the statements about encoding, the step and power-on -/

theorem witness_DecodeEncodeAgree :
    wellFormed (.flush 0xFFFFFFFFFFFFFFFF 1) = true ∧ wellFormed (.init 1 0) = true ∧ wellFormed (.init 8 2097152) = true ∧
    wellFormed (.scan [] (some 187)) = true ∧ wellFormed (.align [] 187 (List.replicate 187 0x47#8)) = true := by
  decide +kernel

theorem witness_UnknownTagsRefused :
    (turn (machine idle) (.op 0 [0x09#8])).schedule = .op 0 (0x09#8 :: []) :: [] ∧ (∀ i : Instr, tagOf i ≠ (0x09#8).toNat) ∧
    (turn (machine idle) (.op 0 [0xFF#8])).schedule = .op 0 (0xFF#8 :: []) :: [] ∧ ∀ i : Instr, tagOf i ≠ (0xFF#8).toNat :=
  ⟨rfl, fun i => by cases i <;> simp [tagOf], rfl, fun i => by cases i <;> simp [tagOf]⟩

theorem witness_StepRunsDecodedInstruction :
    ((turn (machine idle) (.op 0 [0x48#8])).schedule = .op 0 [0x48#8] :: [] ∧ decode [0x48#8] = .ok (.stop, [])) ∧
    ((turn (machine { idle with host := some (.reset 1) }) (.resume 0)).schedule = .resume 0 :: [] ∧
      (machine { idle with host := some (.reset 1) }).chans[0]? = some { idle with host := some (.reset 1) }) :=
  ⟨⟨rfl, rfl⟩, rfl, rfl⟩

theorem witness_DefaultRegisterMap :
    (machine idle).cfg.regMap = RegMap.default ∧ (∃ i : Fin 8, 0x7C = 0x44 + 8 * i.val ∧ Reg.tableHigh 7 = .tableHigh i) ∧
    (∃ i : Fin 8, 0x40 = 0x40 + 8 * i.val ∧ Reg.tableLow 0 = .tableLow i) ∧
    (turn (machine idle) (.bus true (0 * 0x100 + 0x7C) 32 5)).schedule = .bus true (0 * 0x100 + 0x7C) 32 5 :: [] ∧
    ¬(0x1C ≤ 0x18 ∨ 0x40 ≤ 0x1C ∧ 0x1C < 0x80) ∧ ¬(0xFC ≤ 0x18 ∨ 0x40 ≤ 0xFC ∧ 0xFC < 0x80) :=
  ⟨rfl, ⟨7, rfl, rfl⟩, ⟨0, rfl, rfl⟩, rfl, by decide, by decide⟩

theorem witness_UnmappedRegisterAccess :
    (turn (machine idle) (.bus false 0x1C 32 0)).schedule = .bus false 0x1C 32 0 :: [] ∧
    0x1C % (machine idle).cfg.regMap.stride % 4 = 0 ∧
    (machine idle).cfg.regMap.regAt (0x1C % (machine idle).cfg.regMap.stride) = none ∧
    (machine idle).chans[0x1C / (machine idle).cfg.regMap.stride]? = some idle ∧ idle.host = none ∧
    0x1E % (machine idle).cfg.regMap.stride % 4 ≠ 0 ∧ (16 : Nat) ≠ 32 :=
  ⟨rfl, by decide +kernel, by decide +kernel, rfl, rfl, by decide +kernel, by decide⟩

/-! ### Witnesses of the statements about registers -/

theorem witness_WrDmaEnableEffect :
    ((machine idle).At idle ∧ idle.host = none) ∧ (0 : Word).getLsbD 0 = idle.en ∧
    -- refused: no sizes; taken: the largest sizes
    ((1 : Word).getLsbD 0 = true ∧ idle.en = false ∧ idle.blockSize.toNat = 0) ∧
    ((machine sized).At sized ∧ sized.host = none ∧ sized.en = false ∧ sized.needsReset = false ∧ sized.rst = false ∧
      sized.blockSize.toNat ≠ 0 ∧ sized.blockSize.toNat ≤ 2097152 ∧
      sized.totalSize.toNat = (sized.slotCountM1.toNat + 1) * sized.blockSize.toNat) ∧
    -- disabled: the queue lands, or faults
    ((machine landing).At landing ∧ landing.host = none ∧ (0 : Word).getLsbD 0 = false ∧ landing.en = true ∧
      ∀ e ∈ landing.inflight, pageOf e.addr.toNat ∈ (machine landing).shared.allocated) ∧
    (losing.en = true ∧ ∃ e ∈ losing.inflight, pageOf e.addr.toNat ∉ (machine losing).shared.allocated) :=
  ⟨⟨rfl, rfl⟩, rfl, ⟨rfl, rfl, rfl⟩, ⟨rfl, rfl, rfl, rfl, rfl, by decide +kernel, by decide +kernel, by decide +kernel⟩,
    ⟨rfl, rfl, rfl, rfl, by simp [landing, queued, machine, shared, pageOf, Config.pageSize]⟩, rfl,
    by simp [losing, lost, machine, shared, pageOf, Config.pageSize]⟩

theorem witness_WrDmaBufferModeEffect :
    ((machine streaming).At streaming ∧ streaming.host = none) ∧
    (streaming.en = true ∧ (0x00000043 : Word).getLsbD 6 = true) ∧
    (streaming.en = true ∧ (0x00000002 : Word).extractLsb' 0 3 ≠ streaming.slotCountM1) ∧
    ¬(streaming.en = true ∧
      ((0x00000003 : Word).getLsbD 6 = true ∨ (0x00000003 : Word).extractLsb' 0 3 ≠ streaming.slotCountM1)) ∧
    ¬(idle.en = true ∧ ((0x00000047 : Word).getLsbD 6 = true ∨ (0x00000047 : Word).extractLsb' 0 3 ≠ idle.slotCountM1)) :=
  ⟨⟨rfl, rfl⟩, by decide +kernel, by decide +kernel, by decide +kernel, by decide +kernel⟩

/-- For FrozenRegisterWrites, InterruptRegisterWrites, PlainRegisterReads and the first clauses of others: a stopped and a running
unit, no call in progress. -/
theorem witness_register_calls :
    (machine idle).At idle ∧ idle.host = none ∧ idle.en = false ∧
    (machine streaming).At streaming ∧ streaming.host = none ∧ streaming.en = true := ⟨rfl, rfl, rfl, rfl, rfl, rfl⟩

theorem witness_BufferModeRead :
    ((machine idle).At idle ∧ idle.host = none ∧ ((machine idle).cfg.erratumRewrite = false ∨ idle.en = false)) ∧
    ((affected streaming).At streaming ∧ (affected streaming).cfg.erratumRewrite = true ∧ streaming.en = true ∧
      streaming.trackDirty = false) ∧
    ((affected unpaired).At unpaired ∧ unpaired.host = none ∧ unpaired.en = true ∧ unpaired.trackDirty = true ∧
      (3 : SlotIx).toNat ≤ unpaired.slotCountM1.toNat ∧ unpaired.spoilIn = (3 : SlotIx).toNat :: []) :=
  ⟨⟨rfl, rfl, .inl rfl⟩, ⟨rfl, rfl, rfl, rfl⟩, rfl, rfl, rfl, rfl, by decide +kernel, rfl⟩

/-! ### Witnesses of the statements about memory and tables -/

/-- A whole page, one byte at a page's end, and two refused ranges, for FLUSH and CPU_SYNC alike. -/
theorem witness_FlushPublishes_CpuSyncRefreshes :
    ((machine idle).At idle ∧ idle.host = none ∧ (machine idle).shared.Form) ∧
    (1 ≤ 4096 ∧ ∀ k, k < 4096 → pageOf ((0x10000 : Addr).toNat + k) ∈ shared.allocated) ∧
    (1 ≤ 1 ∧ ∀ k, k < 1 → pageOf ((0x18FFF : Addr).toNat + k) ∈ shared.allocated) ∧
    ¬(1 ≤ 0 ∧ ∀ k, k < 0 → pageOf ((0x10000 : Addr).toNat + k) ∈ shared.allocated) ∧
    ¬(1 ≤ 2 ∧ ∀ k, k < 2 → pageOf ((0x18FFF : Addr).toNat + k) ∈ shared.allocated) := by
  refine ⟨⟨rfl, rfl, shared_form⟩, ⟨by decide, fun k hk => ?_⟩, ⟨by decide, fun k hk => ?_⟩, by simp, fun h => ?_⟩
  · rw [pageOf_within (by simp [Config.pageSize]) hk]; simp [shared]
  · obtain rfl : k = 0 := by omega
    simp [pageOf, shared, Config.pageSize]
  · have := h.2 1 (by decide)
    simp [pageOf, shared, Config.pageSize] at this

theorem witness_UnrequestedCopies :
    dirtied.shared.Form ∧ (turn dirtied (.writeBack 0x10005)).schedule = .writeBack 0x10005 :: [] ∧
    (pageOf (0x10005 : Addr).toNat ∈ dirtied.shared.allocated ∧ (0x10005 : Addr).toNat ∈ dirtied.shared.dirty) ∧
    ¬(pageOf (0x10006 : Addr).toNat ∈ dirtied.shared.allocated ∧ (0x10006 : Addr).toNat ∈ dirtied.shared.dirty) ∧
    (turn dirtied (.refill 0x10006)).schedule = .refill 0x10006 :: [] ∧
    (pageOf (0x10006 : Addr).toNat ∈ dirtied.shared.allocated ∧ (0x10006 : Addr).toNat ∉ dirtied.shared.dirty) ∧
    ¬(pageOf (0x10005 : Addr).toNat ∈ dirtied.shared.allocated ∧ (0x10005 : Addr).toNat ∉ dirtied.shared.dirty) :=
  ⟨⟨shared_form.cpu, shared_form.dev, by simp [dirtied], by simp [dirtied], shared_form.allocatedRising,
      shared_form.allocatedPages⟩,
    rfl, by simp [dirtied, shared, pageOf, Config.pageSize], by simp [dirtied], rfl, by simp [dirtied, shared, pageOf, Config.pageSize], by simp [dirtied]⟩

theorem witness_RawMemoryAccess :
    ((machine streaming).chans[0]? = some streaming ∧ streaming.host = none ∧ Memory.wf (machine streaming).shared.memCpu) ∧
    ((turn (machine streaming) (.cpuWrite 0 0x14FFF [0x01#8])).schedule = .cpuWrite 0 0x14FFF [0x01#8] :: [] ∧
      ∃ x ∈ (machine streaming).chans, x.en = true ∧ ∃ r, x.ring = some r ∧ ∃ t ∈ r.table,
        t.toNat < (0x14FFF : Addr).toNat + 1 ∧ (0x14FFF : Addr).toNat < t.toNat + 4096) ∧
    ((∀ x ∈ (machine streaming).chans, x.en = true → ∀ r, x.ring = some r → ∀ t ∈ r.table,
        (0x13FFF : Addr).toNat + 1 ≤ t.toNat ∨ t.toNat + 4096 ≤ (0x13FFF : Addr).toNat) ∧
      (0xFFFFFFFFFFFFFFFF : Addr).toNat + 1 ≤ 2 ^ 64 ∧ 2 ^ 64 < (0xFFFFFFFFFFFFFFFF : Addr).toNat + 2) ∧
    ((turn (machine streaming) (.cpuWrite 0 0x14800 [])).schedule = .cpuWrite 0 0x14800 [] :: [] ∧ ([] : List Byte) = []) ∧
    (turn (machine streaming) (.cpuRead 0 0x10000 4)).schedule = .cpuRead 0 0x10000 4 :: [] := by
  refine ⟨⟨rfl, rfl, shared_form.cpu⟩,
    ⟨rfl, streaming, List.mem_cons_self, rfl, ring, rfl, 0x14000#64, List.mem_cons_self, by simp, by simp⟩,
    ⟨fun x hx _ r hr => ?_, by simp⟩, ⟨rfl, rfl⟩, rfl⟩
  obtain rfl := List.mem_singleton.1 hx
  obtain rfl := Option.some.inj hr
  simp [ring]

/-- A list of one page, `k` times. -/
def copies (k : Nat) : List Addr := List.replicate k 0x10000#64

theorem copies_length (k : Nat) : (copies k).length = k := List.length_replicate

theorem copies_ne_nil (k : Nat) : copies (k + 1) ≠ [] := by simp [copies, List.replicate_succ]

theorem many_pages (k : Nat) : ∀ p ∈ copies k,
    p.toNat % 4096 = 0 ∧ p.toNat ∈ shared.allocated ∧ p ≠ 0x14000#64 := by
  intro p hp
  obtain rfl := List.eq_of_mem_replicate hp
  simp [shared]

theorem witness_BuildWritesTable :
    ((machine idle).At idle ∧ idle.host = none) ∧
    (copies 512 ≠ [] ∧ (copies 512).length ≤ 512 ∧
      (∀ p ∈ copies 512, p.toNat % 4096 = 0 ∧ p.toNat ∈ shared.allocated) ∧
      0x14000#64 ∉ copies 512) ∧
    ((0x14000#64).toNat % 4096 = 0 ∧ (0x14000#64).toNat ∈ shared.allocated) ∧
    ∀ x ∈ (machine idle).chans, x.en = true → ∀ r, x.ring = some r → ∀ t ∈ r.table,
      (0x14000#64).toNat + 4096 ≤ t.toNat ∨ t.toNat + 4096 ≤ (0x14000#64).toNat := by
  refine ⟨⟨rfl, rfl⟩, ⟨copies_ne_nil 511, (copies_length 512).le, fun p hp => ⟨(many_pages _ p hp).1, (many_pages _ p hp).2.1⟩,
    fun h => (many_pages _ _ h).2.2 rfl⟩, by simp [shared], fun x hx he => ?_⟩
  obtain rfl := List.mem_singleton.1 hx
  cases he

theorem witness_BuildErrors :
    ((copies 513 ≠ [] ∧
        (∀ p ∈ copies 513, p.toNat % 4096 = 0 ∧ p.toNat ∈ shared.allocated) ∧
        (0x14000#64).toNat % 4096 = 0 ∧ (0x14000#64).toNat ∈ shared.allocated ∧
        0x14000#64 ∉ copies 513) ∧ 512 < (copies 513).length) ∧
    ¬(∀ p ∈ [0x10800#64], p.toNat % 4096 = 0 ∧ p.toNat ∈ shared.allocated) ∧
    ¬(∀ p ∈ [0x90000#64], p.toNat % 4096 = 0 ∧ p.toNat ∈ shared.allocated) ∧ ¬0x14000#64 ∉ [0x14000#64] :=
  ⟨⟨⟨copies_ne_nil 512, fun p hp => ⟨(many_pages _ p hp).1, (many_pages _ p hp).2.1⟩, by simp, by simp [shared],
      fun h => (many_pages _ _ h).2.2 rfl⟩, by rw [copies_length]; decide⟩, by simp, by simp [shared], by simp⟩

theorem witness_InstallTablesEffect :
    (machine idle).At idle ∧ idle.host = none ∧ idle.ring = some ring ∧ idle.ringState ≠ .absent ∧ ring.Shape ∧
    (∀ t ∈ ring.table, t.toNat ∈ (machine idle).shared.allocated) ∧ (machine idle).shared.Form ∧ idle.en = false ∧
    (streaming.ring = some ring ∧ streaming.ringState ≠ .absent ∧ streaming.en = true) ∧
    ((machine chan).At chan ∧ chan.host = none ∧ chan.ringState = .absent) :=
  ⟨rfl, rfl, rfl, by decide, ring_shape, tables_allocated, shared_form, rfl, ⟨rfl, by decide, rfl⟩, rfl, rfl, rfl⟩

/-- A slot 2 whose register names a page that holds the table of two pages in the device view. -/
def tabled : Local :=
  ⟨{ idle with tableLow := idle.tableLow.set 2 (0x00014#20) },
    writeDev shared 0x14000 (tableBytes [0x10000#64, 0x11000#64])⟩

theorem tabled_base : (tableBase tabled.chan 2).toNat = 0x14000 := by decide +kernel

theorem witness_TranslateBuiltTable :
    Memory.wf tabled.shared.memDev ∧ ([0x10000#64, 0x11000#64] : List Addr) ≠ [] ∧
    (∀ p ∈ [0x10000#64, 0x11000#64], p.toNat % 4096 = 0) ∧
    (∀ k, k < 4096 →
      byteAt tabled.shared .dev ((tableBase tabled.chan 2).toNat + k) = tableByte [0x10000#64, 0x11000#64] k) ∧
    (2097151 < 2097152 ∧ 2097152 ≤ 2097152) := by
  have hl : (tableBytes [0x10000#64, 0x11000#64]).length = 4096 := tableBytes_length (by simp)
  refine ⟨writeBytes_wf shared_form.dev (by rw [hl]; decide), by simp, by simp, fun k hk => ?_, by decide⟩
  rw [tabled_base, show tabled.shared = writeDev shared 0x14000 _ from rfl, byteAt_writeDev, if_pos ⟨rfl, by omega, by omega⟩,
    Nat.add_sub_cancel_left, tableBytes_getElem? (by simp) (by simp) hk]
  rfl

/-! ### Witnesses of the statements about the ring buffer -/

/-- The nine answers of P1, at a machine with no page allocated. -/
def got : List Addr :=
  [0x10000#64, 0x11000#64, 0x12000#64, 0x13000#64, 0x14000#64, 0x15000#64, 0x16000#64, 0x17000#64, 0x18000#64]

/-- Power-on with those answers waiting. -/
def powered : State := { machine chan with shared := { Shared.reset with allocIn := got.map some } }

theorem powered_form : powered.shared.Form where
  cpu := nil_wf
  dev := nil_wf
  dirtyRising := List.Pairwise.nil
  dirtyInside := by simp [powered, Shared.reset]
  allocatedRising := List.Pairwise.nil
  allocatedPages := by simp [powered, Shared.reset]

theorem witness_InitMakesRing :
    powered.At chan ∧ chan.host = none ∧ powered.shared.Form ∧ chan.ringState = .absent ∧ chan.en = false ∧
    1 ≤ 4 ∧ 4 ≤ 8 ∧ 1 ≤ 564 ∧ (564 + 4095) / 4096 ≤ 512 ∧ powered.shared.allocIn = got.map some ++ [] ∧
    got.length = 4 * ((564 + 4095) / 4096) + 4 + 1 ∧ got.Nodup ∧
    ∀ p ∈ got, p.toNat % 4096 = 0 ∧ p.toNat ∉ powered.shared.allocated :=
  ⟨rfl, rfl, powered_form, rfl, rfl, by decide, by decide, by decide, by decide, by simp [powered], rfl,
    by simp [got], by simp [got, powered, Shared.reset]⟩

theorem witness_InitEndings :
    (powered.At chan ∧ chan.host = none ∧ powered.shared.Form ∧ chan.ringState = .absent ∧ chan.en = false ∧
      1 ≤ 8 ∧ 8 ≤ 8 ∧ 1 ≤ 2097153) ∧
    (idle.ringState ≠ .absent) ∧ 0 < 1 ∧ 8 < 9 :=
  ⟨⟨rfl, rfl, powered_form, rfl, rfl, by decide, by decide, by decide⟩, by decide, by decide, by decide⟩

theorem witness_TeardownFreesPages :
    ((machine idle).At idle ∧ idle.host = none ∧ idle.ring = some ring ∧
      (idle.ringState = .idle ∨ idle.ringState = .armed) ∧ idle.drainRunning = false ∧ idle.pending = 0 ∧
      idle.en = false ∧ idle.intEnable = false) ∧
    (streaming.ring = some ring ∧ ¬(streaming.ringState = .idle ∨ streaming.ringState = .armed)) :=
  ⟨⟨rfl, rfl, rfl, .inl rfl, rfl, rfl, rfl, rfl⟩, rfl, by decide⟩

/-- An Armed ring whose unit a raw write has enabled, with a byte on its way. -/
def armed : Chan := { landing with ringState := .armed }

theorem witness_ResetRequestEffect :
    (machine armed).At armed ∧ armed.host = none ∧ armed.ring = some ring ∧ ring.Shape ∧
    (armed.ringState = .idle ∨ armed.ringState = .armed) ∧ armed.drainRunning = false ∧
    (∀ t ∈ ring.table, t.toNat ∈ (machine armed).shared.allocated) ∧ armed.en = true ∧
    ∀ e ∈ armed.inflight, pageOf e.addr.toNat ∈ (machine armed).shared.allocated :=
  ⟨rfl, rfl, rfl, ring_shape, .inr rfl, rfl, tables_allocated, rfl,
    by simp [armed, landing, queued, machine, shared, pageOf, Config.pageSize]⟩

/-- A HOST inside RESET, before the `k`-th read of its poll. -/
def polling (k : Nat) (rst : Bool) : Chan := { idle with host := some (.reset k), rst := rst }

theorem witness_ResetPollOutcomes :
    ((machine (polling 1 false)).At (polling 1 false) ∧ (polling 1 false).host = some (.reset 1) ∧
      (polling 1 false).en = false ∧ (polling 1 false).rst = false) ∧
    ((polling 99 true).rst = true ∧ 99 < 100) ∧ (polling 100 true).rst = true ∧ 100 ≤ 100 :=
  ⟨⟨rfl, rfl, rfl, rfl⟩, ⟨rfl, by decide⟩, rfl, by decide⟩

/-- For ResetRuns, and with `188 * 3 = 564` for BringUp. -/
theorem witness_ResetRuns_BringUp :
    (machine idle).At idle ∧ idle.host = none ∧ idle.ring = some ring ∧ ring.Shape ∧
    (idle.ringState = .idle ∨ idle.ringState = .armed) ∧ idle.drainRunning = false ∧ idle.en = false ∧
    (∀ t ∈ ring.table, t.toNat ∈ (machine idle).shared.allocated) ∧
    1 ≤ 188 ∧ 1 ≤ 3 ∧ 188 * 3 = ring.slotSize ∧ ring.slotSize % 188 = 0 :=
  ⟨rfl, rfl, rfl, ring_shape, .inl rfl, rfl, rfl, tables_allocated, by decide, by decide, rfl, rfl⟩

theorem witness_CurrentWriteIndexEffect :
    ((machine streaming).At streaming ∧ streaming.host = none ∧ streaming.ring = some ring ∧
      streaming.ringState ≠ .absent ∧
      ¬((machine streaming).cfg.erratumRewrite = true ∧ streaming.en = true ∧ streaming.trackDirty = true)) ∧
    ((affected unpaired).At unpaired ∧ unpaired.ring = some ring ∧
      ((affected unpaired).cfg.erratumRewrite = true ∧ unpaired.en = true ∧ unpaired.trackDirty = true)) ∧
    (machine chan).At chan ∧ chan.host = none ∧ chan.ringState = .absent :=
  ⟨⟨rfl, rfl, rfl, by decide, by decide⟩, ⟨rfl, rfl, rfl, rfl, rfl⟩, rfl, rfl, rfl⟩

theorem witness_ReadSlotEffect :
    ((machine streaming).At streaming ∧ streaming.host = none ∧ (machine streaming).shared.Form ∧
      streaming.ring = some ring ∧ streaming.ringState ≠ .absent ∧ ring.Shape ∧ ring.pages[3]? = some [0x13000#64] ∧
      ∀ p ∈ [0x13000#64], p.toNat ∈ (machine streaming).shared.allocated) ∧
    (∃ r, streaming.ring = some r ∧ r.nSlots ≤ 4) ∧ chan.ringState = .absent :=
  ⟨⟨rfl, rfl, shared_form, rfl, by decide, ring_shape, rfl, by simp [machine, shared]⟩, ⟨ring, rfl, by decide⟩, rfl⟩

/-! ### Witnesses of the statements about the capture channel -/

theorem witness_StartValidation :
    ((machine idle).At idle ∧ idle.host = none ∧ idle.ring = some ring ∧
      (idle.ringState = .idle ∨ idle.ringState = .armed)) ∧
    (1 ≤ 564 ∧ 1 ≤ 1 ∧ 564 * 1 = ring.slotSize ∧ 564 * 1 % 188 = 0) ∧
    ¬(1 ≤ 0 ∧ 1 ≤ 5 ∧ 0 * 5 = ring.slotSize ∧ 0 * 5 % 188 = 0) ∧
    ¬(1 ≤ 188 ∧ 1 ≤ 2 ∧ 188 * 2 = ring.slotSize ∧ 188 * 2 % 188 = 0) :=
  ⟨⟨rfl, rfl, rfl, .inl rfl⟩, by decide, by decide, by decide⟩

/-- A HOST inside START at a phase. -/
def starting (p : StartPhase) (rst : Bool) : Chan :=
  { sized with host := some (.start 188 3 p), rst := rst, ringState := .armed }

theorem witness_StartSteps :
    ((machine (starting .clock false)).At (starting .clock false) ∧ (starting .clock false).ring = some ring ∧
      (starting .clock false).ringState ≠ .absent ∧ (starting .clock false).host = some (.start 188 3 .clock)) ∧
    ((starting (.poll 1) false).en = false ∧ (starting (.poll 1) false).rst = false) ∧
    ((starting (.poll 99) true).rst = true ∧ 99 < 100) ∧ ((starting (.poll 100) true).rst = true ∧ 100 ≤ 100) ∧
    ((starting .sizes false).host = some (.start 188 3 .sizes) ∧ (starting .sizes false).en = false) ∧
    ((starting .enable false).host = some (.start 188 3 .enable) ∧ (starting .enable false).en = false ∧
      (starting .enable false).needsReset = false ∧ (starting .enable false).rst = false ∧
      (starting .enable false).blockSize.toNat ≠ 0 ∧ (starting .enable false).blockSize.toNat ≤ 2097152 ∧
      (starting .enable false).totalSize.toNat =
        ((starting .enable false).slotCountM1.toNat + 1) * (starting .enable false).blockSize.toNat) ∧
    (starting .irq false).host = some (.start 188 3 .irq) :=
  ⟨⟨rfl, rfl, by decide, rfl⟩, ⟨rfl, rfl⟩, ⟨rfl, by decide⟩, ⟨rfl, by decide⟩, ⟨rfl, rfl⟩,
    ⟨rfl, rfl, rfl, rfl, by decide +kernel, by decide +kernel, by decide +kernel⟩, rfl⟩

theorem witness_StopOutsideStreaming : (machine idle).At idle ∧ idle.host = none ∧ idle.ringState ≠ .streaming :=
  ⟨rfl, rfl, by decide⟩

/-- A HOST inside STOP at a phase. -/
def stopping (p : StopPhase) (c : Chan) : Chan := { c with host := some (.stop p) }

theorem witness_StopSteps :
    ((machine streaming).At streaming ∧ streaming.host = none ∧ streaming.ringState = .streaming) ∧
    ((stopping .join streaming).host = some (.stop .join) ∧ (stopping .join streaming).drainRunning = false ∧
      (stopping .join { streaming with drainRunning := true }).drainRunning = true) ∧
    ((stopping .disable idle).host = some (.stop .disable) ∧ (stopping .disable idle).en = false) ∧
    ((stopping .disable landing).host = some (.stop .disable) ∧ (stopping .disable landing).en = true ∧
      ∀ e ∈ (stopping .disable landing).inflight,
        pageOf e.addr.toNat ∈ (machine (stopping .disable landing)).shared.allocated) ∧
    (stopping .clock idle).host = some (.stop .clock) :=
  ⟨⟨rfl, rfl, rfl⟩, ⟨rfl, rfl, rfl⟩, ⟨rfl, rfl⟩,
    ⟨rfl, rfl, by simp [stopping, landing, queued, machine, shared, pageOf, Config.pageSize]⟩, rfl⟩

theorem witness_ShutDown :
    (machine landing).At landing ∧ landing.host = none ∧ landing.ringState = .streaming ∧ landing.drainRunning = false ∧
    landing.en = true ∧ ∀ e ∈ landing.inflight, pageOf e.addr.toNat ∈ (machine landing).shared.allocated :=
  ⟨rfl, rfl, rfl, rfl, rfl, by simp [landing, queued, machine, shared, pageOf, Config.pageSize]⟩

/-! ### Witnesses of the statements about the synchronizer -/

/-- `n` bytes of a stream with a marker at every offset that is `k` modulo 188, and zeros between. -/
def stream (k n : Nat) : List Byte := (List.range n).map fun i => if i % 188 = k then 0x47#8 else 0x00#8

theorem stream_length (k n : Nat) : (stream k n).length = n := by simp [stream]

theorem stream_get (k n i : Nat) : (stream k n)[i]? = some 0x47#8 ↔ i < n ∧ i % 188 = k := by
  by_cases h : i < n
  · by_cases h' : i % 188 = k <;> simp [stream, h, h']
  · simp [stream, h]

theorem stream_append (k a b : Nat) (h : a % 188 = 0) : stream k a ++ stream k b = stream k (a + b) := by
  unfold stream
  rw [List.range_add, List.map_append, List.map_map]
  congr 1
  apply List.map_congr_left
  intro i _
  simp only [Function.comp_apply, show (a + i) % 188 = i % 188 by omega]

theorem witness_ScanResult :
    (machine idle).At idle ∧ (∃ j, some 187 = some j ∧ (stream 187 564)[j]? = some 0x47#8) ∧
    ¬(∃ j, some 188 = some j ∧ (stream 187 564)[j]? = some 0x47#8) :=
  ⟨rfl, ⟨187, rfl, (stream_get _ _ _).2 (by decide)⟩, by simp [stream_get]⟩

theorem witness_ScanRoundTrip :
    187 ≤ 187 ∧ 187 + 377 ≤ (stream 187 564).length ∧
    (∀ m, 187 + 188 * m < (stream 187 564).length → (stream 187 564)[187 + 188 * m]? = some 0x47#8) ∧
    ∀ i, i < 187 → ¬((stream 187 564)[i]? = some 0x47#8 ∧ (stream 187 564)[i + 188]? = some 0x47#8 ∧
      (stream 187 564)[i + 376]? = some 0x47#8) := by
  simp only [stream_length, stream_get]
  refine ⟨by decide, by decide, fun m h => ⟨h, by omega⟩, fun i h => by omega⟩

theorem witness_AlignResult :
    (machine idle).At idle ∧ (stream 5 564).length ≤ 564 ∧ 5 < (stream 5 564).length ∧
    ((stream 0 183).length + 5 = 188 ∧ (stream 0 183)[0]? = some 0x47#8) ∧
    ¬((stream 0 101).length + 5 = 188 ∧ (stream 0 101)[0]? = some 0x47#8) := by
  simp only [stream_length, stream_get]
  exact ⟨rfl, Nat.le_refl _, by decide, by decide, by decide⟩

theorem witness_InStepStreamKept :
    5 ≤ 187 ∧ 564 % 188 = 0 ∧ 564 ≤ 564 ∧ (∀ b ∈ stream 5 564 :: [stream 5 564], b.length = 564) ∧
    chan.resyncOffset = none ∧ chan.stage = [] ∧
    (∀ m, 5 + 188 * m < (stream 5 564 :: [stream 5 564]).flatten.length →
      (stream 5 564 :: [stream 5 564]).flatten[5 + 188 * m]? = some 0x47#8) ∧
    ∀ i, i < 5 → ¬((stream 5 564)[i]? = some 0x47#8 ∧ (stream 5 564)[i + 188]? = some 0x47#8 ∧
      (stream 5 564)[i + 376]? = some 0x47#8) := by
  have hf : (stream 5 564 :: [stream 5 564]).flatten = stream 5 1128 := by
    simp only [List.flatten_cons, List.flatten_nil, List.append_nil]
    exact stream_append 5 564 564 (by decide)
  rw [hf]
  simp only [stream_length, stream_get]
  exact ⟨by decide, by decide, by decide, by simp [stream_length], rfl, rfl, fun m h => ⟨h, by omega⟩, fun i h => by omega⟩

/-! ### Witnesses of the statements about the interrupt bridge -/

theorem witness_SinkWriteEffect :
    (machine idle).At idle ∧
    ((stream 0 188).length % 188 = 0 ∧ 0 < (stream 0 188).length ∧ (stream 0 188)[0]? = some 0x47#8) ∧
    ¬((stream 0 187).length % 188 = 0 ∧ 0 < (stream 0 187).length ∧ (stream 0 187)[0]? = some 0x47#8) ∧
    ¬((stream 1 376).length % 188 = 0 ∧ 0 < (stream 1 376).length ∧ (stream 1 376)[0]? = some 0x47#8) := by
  simp only [stream_length, stream_get]
  exact ⟨rfl, by decide, by decide, by decide⟩

/-- A slot is done; the counter is full. -/
def interrupting : Chan := { streaming with intStatus := true, pending := 2 }

theorem witness_InterruptTaken :
    (machine interrupting).At interrupting ∧ interrupting.intStatus = true ∧ interrupting.intEnable = true ∧
    interrupting.ringState ≠ .absent := ⟨rfl, rfl, rfl, by decide⟩

/-- A pass is scheduled; the write index is three slots ahead, or the read was unpaired on an affected revision. -/
def scheduled : Chan := { streaming with pending := 1, writeIndex := 3 }
def scheduledUnpaired : Chan := { unpaired with pending := 1 }

theorem witness_DrainBeginEffect :
    ((machine scheduled).At scheduled ∧ 0 < scheduled.pending ∧ scheduled.drainRunning = false ∧
      scheduled.ringState ≠ .absent ∧ scheduled.ring = some ring ∧ scheduled.readIndex < ring.nSlots ∧
      ¬((machine scheduled).cfg.erratumRewrite = true ∧ scheduled.en = true ∧ scheduled.trackDirty = true)) ∧
    ((affected scheduledUnpaired).At scheduledUnpaired ∧ 0 < scheduledUnpaired.pending ∧
      (affected scheduledUnpaired).cfg.erratumRewrite = true ∧ scheduledUnpaired.en = true ∧
      scheduledUnpaired.trackDirty = true) :=
  ⟨⟨rfl, by decide, rfl, by decide, rfl, by decide, by decide⟩, rfl, by decide, rfl, rfl, rfl⟩

/-- A pass runs with one slot left, the last of the ring; with none left. -/
def draining : Chan := { scheduled with drainRunning := true, drainLeft := 1, readIndex := 3 }
def drained : Chan := { draining with drainLeft := 0 }

theorem witness_DrainSlotEffect :
    (machine draining).At draining ∧ draining.drainRunning = true ∧ 0 < draining.drainLeft ∧ draining.ring = some ring ∧
    draining.ringState ≠ .absent ∧ ring.Shape ∧ ring.pages[draining.readIndex]? = some [0x13000#64] ∧
    (∀ p ∈ [0x13000#64], p.toNat ∈ (machine draining).shared.allocated) ∧ (machine draining).shared.Form :=
  ⟨rfl, rfl, by decide, rfl, by decide, ring_shape, rfl, by simp [machine, shared], shared_form⟩

theorem witness_DrainEndEffect :
    (machine drained).At drained ∧ drained.drainRunning = true ∧ drained.drainLeft = 0 := ⟨rfl, rfl, rfl⟩

/-- Also for the clauses of the agents' statements that say where an agent has no step. -/
theorem witness_OperationsWithoutStep :
    ((machine chan).At chan ∧ chan.en = false ∧ chan.inflight = [] ∧ chan.rst = false ∧ chan.intStatus = false ∧
      chan.pending = 0 ∧ chan.drainRunning = false ∧ chan.ringState = .absent ∧ chan.host = none) ∧
    (draining.drainRunning = true ∧ 0 < draining.drainLeft) ∧
    ((machine (polling 1 false)).At (polling 1 false) ∧ (polling 1 false).host = some (.reset 1) ∧
      hostOp .teardown = true ∧ Instr.teardown ≠ workInstr (.reset 1) ∧ hostOp .stop = true ∧
      Instr.stop ≠ workInstr (.reset 1) ∧ Instr.start 188 2 ≠ workInstr (.start 188 3 .sizes)) ∧
    ((machine idle).select 1).chans[((machine idle).select 1).cur]? = none ∧ streaming.ringState = .streaming :=
  ⟨⟨rfl, rfl, rfl, rfl, rfl, rfl, rfl, rfl, rfl⟩, ⟨rfl, by decide⟩,
    ⟨rfl, rfl, rfl, by simp [workInstr], rfl, by simp [workInstr], by simp [workInstr]⟩, rfl, rfl⟩

/-- The pass that begins at `scheduled` has two slots to drain at `MARGIN` 1 (95_test_vectors.md V-T20, N 4, r 0, w 3). -/
def begun : Chan := { scheduled with drainRunning := true, drainLeft := 2 }

theorem witness_DrainStaysBehindMargin :
    (machine scheduled).At scheduled ∧ scheduled.ring = some ring ∧ scheduled.readIndex < ring.nSlots ∧
    exec .drainBegin (machine scheduled) = .next (machine begun) ∧ (machine begun).At begun ∧ 1 < begun.drainLeft :=
  ⟨rfl, rfl, by decide, rfl, rfl, by decide⟩

theorem witness_DrainableSlotsDrained :
    scheduled.ring = some ring ∧ scheduled.ringState = .streaming ∧ scheduled.drainRunning = false ∧
    scheduled.readIndex < ring.nSlots ∧ 1 < ring.nSlots ∧ slotDrainable .one scheduled 1 = true :=
  ⟨rfl, rfl, rfl, by decide, by decide, by decide +kernel⟩

/-! ### Witnesses of the statements about the capture unit -/

/-- A running unit at an offset of its slot. -/
def capturing (pos : Nat) : Chan := { streaming with fillPos := pos, portIn := [0x47#8] }

/-- The same at the end of slot 1 with a byte of slot 0 on its way (95_test_vectors.md V-T60). -/
def lagging : Chan := { capturing 563 with writeIndex := 1, inflight := [queued] }

theorem witness_CapByteEffect :
    ((machine (capturing 562)).At (capturing 562) ∧ (capturing 562).en = true ∧ (capturing 562).rst = false ∧
      (capturing 562).fillPos < 2097152 ∧ (capturing 562).fillPos + 1 < (capturing 562).blockSize.toNat ∧
      (capturing 562).portIn = 0x47#8 :: []) ∧
    ((capturing 563).blockSize.toNat ≤ (capturing 563).fillPos + 1 ∧
      ∀ e ∈ (capturing 563).inflight, (((capturing 563).writeIndex.toNat + 1) % ((capturing 563).slotCountM1.toNat + 1) +
        ((capturing 563).slotCountM1.toNat + 1) - e.slot.toNat % ((capturing 563).slotCountM1.toNat + 1)) %
          ((capturing 563).slotCountM1.toNat + 1) ≤ (machine (capturing 563)).cfg.margin.slots) ∧
    ((machine lagging).At lagging ∧ lagging.en = true ∧ lagging.rst = false ∧
      lagging.blockSize.toNat ≤ lagging.fillPos + 1 ∧
      ∃ e ∈ lagging.inflight, (machine lagging).cfg.margin.slots < ((lagging.writeIndex.toNat + 1) %
        (lagging.slotCountM1.toNat + 1) + (lagging.slotCountM1.toNat + 1) - e.slot.toNat %
          (lagging.slotCountM1.toNat + 1)) % (lagging.slotCountM1.toNat + 1)) ∧
    2097152 ≤ (capturing 2097152).fillPos :=
  ⟨⟨rfl, rfl, rfl, by decide, by decide +kernel, rfl⟩, ⟨by decide +kernel, nofun⟩,
    ⟨rfl, rfl, rfl, by decide +kernel, queued, List.mem_cons_self, by decide +kernel⟩, Nat.le_refl _⟩

theorem witness_CapLandEffect :
    ((machine landing).At landing ∧ landing.inflight = queued :: [] ∧
      pageOf queued.addr.toNat ∈ (machine landing).shared.allocated) ∧
    (machine losing).At losing ∧ losing.inflight = lost :: [] ∧
      pageOf lost.addr.toNat ∉ (machine losing).shared.allocated :=
  ⟨⟨rfl, rfl, by simp [queued, machine, shared, pageOf, Config.pageSize]⟩, rfl, rfl,
    by simp [lost, machine, shared, pageOf, Config.pageSize]⟩

theorem witness_RstDoneEffect :
    (machine (polling 1 true)).At (polling 1 true) ∧ (polling 1 true).rst = true := ⟨rfl, rfl⟩

/-! ### A running machine in every invariant: one slot, its table in both views, one byte on its way -/

def oneRing : Ring := ⟨1, 564, 1, [[0x10000#64]], [0x14000#64], 0x18000#64⟩

def oneTable : List Byte := tableBytes [0x10000#64]

def onePages : Shared := { Shared.reset with allocated := [0x10000, 0x14000, 0x18000] }

def oneShared : Shared := writeDev (writeCpu onePages 0x14000 oneTable) 0x14000 oneTable

def one : Chan :=
  { streaming with ring := some oneRing, slotCountM1 := 0, totalSize := 564, tableLow := chan.tableLow.set 0 (0x00014#20),
                   fillPos := 6, inflight := [queued], intStatus := true }

/-- It takes the interrupt. -/
def running : State := { machine one with shared := oneShared, schedule := [.op 0 [0x83#8]] }

theorem oneTable_length : oneTable.length = 4096 := tableBytes_length (by simp)

theorem oneShared_form : oneShared.Form := by
  have h : onePages.Form := ⟨nil_wf, nil_wf, List.Pairwise.nil, by simp [onePages, Shared.reset], by decide +kernel,
    by decide +kernel⟩
  exact writeDev_form (writeCpu_form h (by rw [oneTable_length]; decide)) (by rw [oneTable_length]; decide)

theorem oneRing_shape : oneRing.Shape where
  slots := by decide
  size := by decide +kernel
  perSlot := by decide +kernel
  pagesCount := rfl
  pagesEach := by decide +kernel
  tableCount := rfl
  aligned := by simp [ringPages, oneRing, pageAligned, Config.pageSize]

theorem one_bounds : one.Bounds where
  ringPresent := by decide
  pendingCap := by decide
  stageShort := by decide
  offsetShort := nofun
  quietDrain := fun _ => rfl
  quietAbsent := nofun
  hostHasRing := fun h => absurd rfl h
  ringFits := fun r h => by
    obtain rfl := Option.some.inj h
    exact ⟨oneRing_shape, by decide, by decide⟩

theorem one_position : one.Position where
  runningNeedsNoReset := fun _ => rfl
  runningNoReset := fun _ => rfl
  runningSize := fun _ => by decide +kernel
  runningTotal := fun _ => by decide +kernel
  runningFill := fun _ => by decide +kernel
  runningIndex := fun _ => by decide +kernel
  stoppedEmpty := nofun
  stoppedFresh := nofun

theorem one_disciplined : one.Disciplined where
  running := fun _ => ⟨rfl, .inl rfl⟩
  resetPlace := nofun
  startPlace := nofun
  stopPlace := nofun

theorem one_near : one.NearQueue .one := by
  intro e h
  obtain rfl := List.mem_singleton.1 h
  decide +kernel

theorem oneShared_table (v : View) {k : Nat} (hk : k < 4096) :
    byteAt oneShared v (0x14000 + k) = tableByte [0x10000#64] k := by
  have ht := tableBytes_getElem? (ps := [0x10000#64]) (by simp) (by simp) hk
  have hl := oneTable_length
  unfold oneShared
  rw [byteAt_writeDev, byteAt_writeCpu]
  cases v
  · rw [if_neg (by simp), if_pos ⟨rfl, by omega, by omega⟩, Nat.add_sub_cancel_left, oneTable, ht]; rfl
  · rw [if_pos ⟨rfl, by omega, by omega⟩, Nat.add_sub_cancel_left, oneTable, ht]; rfl

theorem one_installed : one.Installed oneShared where
  tables := fun r h i ps t h₁ h₂ => by
    obtain rfl := Option.some.inj h
    obtain rfl : i = 0 := by
      have := (List.getElem?_eq_some_iff.1 h₁).1
      simpa [oneRing] using this
    obtain rfl : [0x10000#64] = ps := Option.some.inj h₁
    obtain rfl : 0x14000#64 = t := Option.some.inj h₂
    exact ⟨by decide +kernel, fun v k hk => oneShared_table v hk⟩
  slotCount := fun r h => by
    obtain rfl := Option.some.inj h
    decide
  size := fun r h _ => by
    obtain rfl := Option.some.inj h
    decide +kernel
  queue := fun e h => by
    obtain rfl := List.mem_singleton.1 h
    exact ⟨oneRing, rfl, 0x10000#64, by simp [oneRing], by simp [queued, pageOf, Config.pageSize]⟩

theorem running_inv : running.Inv where
  form := oneShared_form
  bounds := fun c h => by
    obtain rfl := List.mem_singleton.1 h
    exact one_bounds
  position := fun c h => by
    obtain rfl := List.mem_singleton.1 h
    exact one_position
  ownership := by
    have ho : running.owned = [0x10000, 0x14000, 0x18000] := by
      simp [State.owned, running, machine, chanPages, one, ringPages, oneRing]
    refine ⟨by rw [ho]; decide, fun p => ?_⟩
    rw [ho]; rfl

/-- For every statement about every step: the invariants hold, the turn is composite, and the step answers a next state. -/
theorem witness_every_step :
    running.Inv ∧ running.cfg.erratumRewrite = false ∧ running.ReadPaired ∧ (∀ c ∈ running.chans, c.NearQueue running.cfg.margin) ∧
    (∀ c ∈ running.chans, c.Disciplined ∧ c.Installed running.shared) ∧ compositeTurn (nextTurn running).1 = true ∧
    step running = .next ((running.withSchedule []).putChan { one with intStatus := false, pending := 1 }) := by
  refine ⟨running_inv, rfl, (fun h => nomatch h), fun c h => ?_, fun c h => ?_, rfl, rfl⟩ <;> obtain rfl := List.mem_singleton.1 h
  · exact one_near
  · exact ⟨one_disciplined, one_installed⟩

/-- The same machine of an affected revision, with an operation of one byte as its next turn. -/
def affectedRunning (tag : Byte) : State := { running with cfg := ⟨.one, true, RegMap.default⟩, schedule := [.op 0 [tag]] }

theorem affectedRunning_inv (tag : Byte) : (affectedRunning tag).Inv :=
  ⟨running_inv.form, running_inv.bounds, running_inv.position, running_inv.ownership⟩

/-- For PipelineStaysNear on an affected revision: a read of `DMA_BUFFER_MODE` under a running unit that breaks no pairing, and a
host without raw accesses whose call reads the register and re-writes it. -/
theorem witness_PipelineStaysNear_affected :
    ((affectedRunning 0x11#8).Inv ∧ (affectedRunning 0x11#8).ReadPaired ∧
      turnCall (affectedRunning 0x11#8) (nextTurn (affectedRunning 0x11#8)).1 = some (0, .rdDmaBufferMode) ∧
      one.en = true ∧ one.NearQueue .one ∧
      ∃ t, step (affectedRunning 0x11#8) = .next t ∧ t.chans[0]?.map (·.trackDirty) = some true) ∧
    ((∀ c ∈ (affectedRunning 0x45#8).chans, c.Disciplined ∧ c.trackDirty = false) ∧
      compositeTurn (nextTurn (affectedRunning 0x45#8)).1 = true ∧
      (∀ k, turnCall (affectedRunning 0x45#8) (nextTurn (affectedRunning 0x45#8)).1 ≠ some (k, .rdDmaBufferMode)) ∧
      ∃ t, step (affectedRunning 0x45#8) = .next t ∧ t.chans[0]?.map (·.trackDirty) = some false) := by
  refine ⟨⟨affectedRunning_inv _, fun _ k i c _ _ hk _ => ?_, rfl, rfl, one_near, _, rfl, rfl⟩,
    fun c h => ?_, rfl, fun k h => ?_, _, rfl, rfl⟩
  · obtain rfl := List.mem_singleton.1 (List.mem_of_getElem? hk)
    rfl
  · obtain rfl := List.mem_singleton.1 h
    exact ⟨one_disciplined, rfl⟩
  · have e : turnCall (affectedRunning 0x45#8) (nextTurn (affectedRunning 0x45#8)).1 = some (0, .currentWriteIndex) := rfl
    rw [e] at h
    simp at h

theorem witness_ChannelsIndependent_OnlyDrainMovesCursors :
    running.At one ∧ one.Disciplined ∧ one.ringState = .streaming ∧
    exec .irq running = .next (running.putChan { one with intStatus := false, pending := 1 }) ∧ Instr.irq ≠ .drainSlot :=
  ⟨rfl, one_disciplined, rfl, rfl, by simp⟩

/-! ### Vectors of 95_test_vectors.md, at most two for an operation -/

/-- What an operation leaves of its channel, where it answers a next state. -/
def after {α : Type} (o : Out State) (f : Chan → α) : Option α :=
  match o with
  | .next s => s.chans[s.cur]?.map f
  | .fault _ => none
  | .refused _ => none

/-- The byte an operation leaves in a view, where it answers a next state. -/
def byteAfter (o : Out State) (v : View) (a : Nat) : Option Byte :=
  match o with
  | .next s => some (byteAt s.shared v a)
  | .fault _ => none
  | .refused _ => none

/-- V-T1, V-T2. -/
theorem test_enable_takes_bit_0 :
    after (exec (.wrDmaEnable 0xFFFFFFFF) (machine { idle with blockSize := 564, totalSize := 2256 })) (·.en) = some true :=
  by decide +kernel
theorem test_enable_refuses_wrong_total :
    exec (.wrDmaEnable 1) (machine { idle with blockSize := 564, totalSize := 2255 }) = .refused .enableTotalSize := rfl

/-- V-T5 with V-T63, V-T6. -/
theorem test_mode_write_47 :
    after (exec (.wrDmaBufferMode 0x00000047) (machine idle)) (fun c => (c.slotCountM1, c.rst)) = some (7, true) := by
  decide +kernel
theorem test_mode_write_ignores_index :
    after (runOps [.wrDmaBufferMode 0x0000003F, .rdDmaBufferMode] (machine { idle with writeIndex := 2 })) (·.result) =
      some (.word 0x00000017) := by decide +kernel

/-- V-T8 is the reading half of V-T15; V-T9, V-T10. -/
theorem test_mode_read_1b :
    after (exec .rdDmaBufferMode (machine { streaming with writeIndex := 3 })) (·.result) = some (.word 0x0000001B) := by
  decide +kernel
theorem test_table_low_reserved_bits :
    after (runOps [.wrDmaPageTableAddrLow 0 0x00014FFF, .rdDmaPageTableAddrLow 0] (machine idle)) (·.result) =
      some (.word 0x00014000) := by decide +kernel
theorem test_table_high_7 :
    after (runOps [.wrDmaPageTableAddrHigh 7 1, .rdDmaPageTableAddrHigh 7] (machine idle)) (·.result) =
      some (.word 1) := by decide +kernel

/-- V-T11, V-T12, V-T13. -/
theorem test_status_write_ignored :
    after (runOps [.wrIntStatus 1, .rdIntStatus] (machine idle)) (·.result) = some (.word 0) := by decide +kernel
theorem test_clear_is_write_one :
    after (exec (.wrIntClear 1) (machine interrupting)) (·.intStatus) = some false ∧
    after (exec (.wrIntClear 0) (machine interrupting)) (·.intStatus) = some true := by decide +kernel

/-- V-T14. -/
theorem test_unmapped_reads_0 :
    after (step (turn (machine idle) (.bus false 0x1C 32 0x12345678))) (·.result) = some (.word 0) := by decide +kernel

/-- A raw write of no byte has its step even inside a running ring's table page (log 23). -/
theorem test_empty_write_in_table_page :
    after (step (turn (machine streaming) (.cpuWrite 0 0x14800 []))) (·.result) = some .ok := by decide +kernel

/-- V-T15, V-T16: an unpaired second read takes the environment's value; a paired one does not. -/
theorem test_unpaired_read_spoils :
    after (runOps [.rdDmaBufferMode, .rdDmaBufferMode] (affected { streaming with writeIndex := 3, spoilIn := [2] }))
      (fun c => (c.result, c.writeIndex)) = some (.word 0x00000013, 2) := by decide +kernel
theorem test_paired_read_keeps :
    after (runOps [.rdDmaBufferMode, .wrDmaBufferMode 3, .rdDmaBufferMode]
      (affected { streaming with writeIndex := 3, spoilIn := [2] })) (·.result) = some (.word 0x0000001B) := by decide +kernel

/-- V-T17: the bytes of `0x00010000` written by the CPU and flushed, the least significant first. -/
theorem test_flush_publishes :
    byteAfter (exec (.flush 0x10000 4) { machine idle with shared := writeCpu shared 0x10000 (wordBytes 0x00010000) })
      .dev 0x10002 = some 0x01#8 := by decide +kernel

/-- V-T19. -/
theorem test_cpu_sync_refreshes :
    byteAfter (exec (.cpuSync 0x10000 8)
      { machine idle with shared := writeDev (writeCpu shared 0x10005 [0x00#8]) 0x10005 [0x47#8] }) .cpu 0x10005 =
      some 0x47#8 := by decide +kernel

/-- V-T20, rows of both margins. -/
theorem test_drain_counts :
    drainCount .one 0 0 8 = 0 ∧ drainCount .one 1 6 8 = 2 ∧ drainCount .one 0 7 8 = 0 ∧ drainCount .one 4 5 8 = 6 ∧
    drainCount .two 3 0 8 = 1 ∧ drainCount .two 4 5 8 = 5 ∧ drainCount .one 1 0 2 = 0 ∧ drainCount .two 2 0 3 = 0 := by
  decide

/-- V-T22, V-T23. -/
theorem test_pending_saturates :
    after (exec .irq (machine { interrupting with pending := 1 })) (·.pending) = some 2 ∧
    after (exec .irq (machine interrupting)) (·.pending) = some 2 := by decide +kernel

/-- V-T24, V-T25. -/
theorem test_drain_end_counts_down :
    after (exec .drainEnd (machine { drained with pending := 2 })) (·.pending) = some 1 ∧
    after (exec .drainEnd (machine drained)) (·.pending) = some 0 := by decide +kernel

/-- V-T36, V-T37, V-T38, V-T41: lengths of the bytes out and of the new staged tail. -/
theorem test_align_lengths :
    ((align (stream 5 564) 5 []).1.length, (align (stream 5 564) 5 []).2.length) = (376, 183) ∧
    (align (stream 5 564) 5 (stream 0 183)).1.length = 564 ∧ (align (stream 5 564) 5 (stream 1 183)).1.length = 376 ∧
    ((align (stream 5 188) 5 []).1.length, (align (stream 5 188) 5 []).2.length) = (0, 183) := by decide +kernel

/-- V-T44, V-T45, V-T46. -/
theorem test_sink_write :
    after (exec (.sinkWrite (stream 0 188)) (machine idle)) (fun c => (c.sinkOut.length, c.sinkRejected)) = some (1, 0) ∧
    after (exec (.sinkWrite (stream 1 376)) (machine idle)) (·.sinkRejected) = some 1 ∧
    after (exec (.sinkWrite (stream 0 187)) (machine idle)) (·.sinkRejected) = some 1 := by decide +kernel

/-- V-T49: entry 0 and the fill entries. -/
theorem test_build_entries :
    (tableBytes [0x10000#64, 0x11000#64]).take 24 =
      [0x00#8, 0x00#8, 0x01#8, 0x00#8, 0x00#8, 0x00#8, 0x00#8, 0x00#8,
       0x00#8, 0x10#8, 0x01#8, 0x00#8, 0x00#8, 0x00#8, 0x00#8, 0x00#8,
       0x00#8, 0x10#8, 0x01#8, 0x00#8, 0x00#8, 0x00#8, 0x00#8, 0x00#8] := by decide +kernel

/-- V-T50. -/
theorem test_build_refuses_misaligned :
    exec (.build [0x10800] 0x14000) (machine idle) = .refused .buildPrecondition := rfl

/-- V-T54: the allocator fails at the sixth call; V-T55. -/
theorem test_init_allocation_failure :
    after (exec (.init 4 564) { machine chan with shared := { Shared.reset with allocIn := (got.take 5).map some ++ [none] } })
      (fun c => (c.result, c.ringState)) = some (.error .allocationFailure, .absent) := by decide +kernel
theorem test_init_refuses_nine : exec (.init 9 564) (machine chan) = .refused .initPrecondition := rfl

/-- V-T56, V-T57, V-T58 and the ring of P1. -/
theorem test_start_validation :
    validParams ring 188 3 = true ∧ validParams { ring with slotSize := 385024 } 376 1024 = true ∧
    validParams { ring with slotSize := 385024 } 188 2047 = false ∧ validParams { ring with slotSize := 4096 } 4096 1 = false := by
  decide +kernel

/-- V-S5: a second STOP ends with `Ok` and touches nothing. -/
theorem test_stop_twice :
    exec .stop (machine { idle with result := .ok }) = .next (machine { idle with result := .ok }) := rfl

/-- V-T59: the slot's last byte moves on to slot 0 and sets the status bit (slot 7's table: one page). -/
theorem test_cap_byte_wraps :
    after (exec .capByte { machine
        { streaming with slotCountM1 := 7, writeIndex := 7, totalSize := 4512, fillPos := 563, portIn := [0x47#8],
                         tableLow := chan.tableLow.set 7 (0x00014#20) } with
        shared := writeDev shared 0x14000 (entryBytes 0x10000#64) })
      (fun c => (c.inflight, c.fillPos, c.writeIndex, c.intStatus)) =
      some ([⟨7, 0x10233, 0x47#8⟩], 0, 0, true) := by decide +kernel

/-- V-T60: the landing condition holds the advance back. -/
theorem test_cap_byte_waits : exec .capByte (machine lagging) = .refused .notEnabled := rfl

/-- V-T63. -/
theorem test_rst_done :
    after (runOps [.rstDone, .rdDmaBufferMode] (machine { idle with rst := true, writeIndex := 3, slotCountM1 := 7 }))
      (fun c => (c.result, c.needsReset)) = some (.word 0x00000007, false) := by decide +kernel

/-- 70 R316: a byte on its way to a page no ring owns. -/
theorem test_cap_land_faults : exec .capLand (machine losing) = .fault .dmaToFreedPage := rfl

/-- How the host runs a table word as the first operation. -/
theorem test_fetch_word : step ((machine idle).withFetchWord 8 0x48) = exec .stop (machine idle) := rfl

/-- V-S3, V-T29, V-T30. -/
theorem test_scan_search :
    scan (stream 5 564) (some 7) = (.resynced, some 5) ∧ scan (stream 187 564) none = (.resynced, some 187) ∧
    scan (stream 187 563) none = (.desynchronized, none) := by decide +kernel

/-- V-S3, V-T32, V-T28: a marker at the known offset keeps it; no run keeps the known offset. -/
theorem test_scan_keeps :
    scan (stream 5 564) (some 5) = (.kept, some 5) ∧ scan ((stream 10 564).set 3 0x47#8) (some 3) = (.kept, some 3) ∧
    scan ((stream 5 564).set 381 0x00#8) (some 9) = (.desynchronized, some 9) := by decide +kernel

end Sys2Proof.Tests
end

section
/-! SUPPORT. Proofs of the statements about host memory (20_memory.md R73 to R75): what FLUSH, CPU_SYNC and the two unrequested
copies answer, each said once, and the settled statements. -/

namespace Sys2Proof.Machine

/-! ### The next turn -/

/-- A step with a turn placed takes that turn out of the schedule and runs it (log 1). -/
theorem step_of_schedule {s : State} {t : Turn} {ts : List Turn} (h : s.schedule = t :: ts) :
    step s = takeTurn t (s.withSchedule ts) := by
  simp only [step, nextTurn, h]

/-! ### What a copy leaves unchanged -/

theorem publish_sameBooks (sh : Shared) (a n : Nat) : sh.SameBooks (publish sh a n) := ⟨rfl, rfl, rfl, rfl⟩

theorem syncCpu_sameBooks (sh : Shared) (a n : Nat) : sh.SameBooks (syncCpu sh a n) := ⟨rfl, rfl, rfl, rfl⟩

/-! ### FLUSH and CPU_SYNC (20 R73, R74) -/

/-- All FLUSH can do on a free channel: publish a range that is allocated, or be refused. -/
theorem exec_flush_at {s : State} {c : Chan} (ha : s.At c) (hh : c.host = none) (addr : Addr) (n : Nat) :
    exec (.flush addr n) s =
      if rangeAllocated s.shared addr.toNat n then
        .next (s.put ⟨{ c with result := .ok }, publish s.shared addr.toNat n⟩)
      else .refused .visibilityRange := by
  rw [show exec (.flush addr n) s = execFlush addr n s from rfl, execFlush, call_at ha hh, flushRange]
  split <;> rfl

/-- All CPU_SYNC can do on a free channel: sync a range that is allocated, or be refused. -/
theorem exec_cpuSync_at {s : State} {c : Chan} (ha : s.At c) (hh : c.host = none) (addr : Addr) (n : Nat) :
    exec (.cpuSync addr n) s =
      if rangeAllocated s.shared addr.toNat n then
        .next (s.put ⟨{ c with result := .ok }, syncCpu s.shared addr.toNat n⟩)
      else .refused .visibilityRange := by
  rw [show exec (.cpuSync addr n) s = execCpuSync addr n s from rfl, execCpuSync, call_at ha hh, syncRange]
  split <;> rfl

/-- Settles O16: the range test is R73's condition, and the bytes after FLUSH are those of `publish`. -/
theorem flushPublishes : Obligations.FlushPublishes := by
  refine ⟨fun _ _ => rfl, fun s c addr n ha hh hf => ?_⟩
  rw [← rangeAllocated_iff, exec_flush_at ha hh]
  constructor
  · intro hr
    exact ⟨.ok, publish s.shared addr.toNat n, if_pos hr, publish_sameBooks _ _ _, mem_removeRange _ _ _,
      byteAt_publish hf.cpu _ _⟩
  · intro hr
    exact ⟨.visibilityRange, if_neg hr⟩

/-- Settles O17: the range test is R74's condition, and the bytes after CPU_SYNC are those of `syncCpu`. -/
theorem cpuSyncRefreshes : Obligations.CpuSyncRefreshes := by
  refine ⟨fun _ _ => rfl, fun s c addr n ha hh hf => ?_⟩
  rw [← rangeAllocated_iff, exec_cpuSync_at ha hh]
  constructor
  · intro hr
    exact ⟨.ok, syncCpu s.shared addr.toNat n, if_pos hr, syncCpu_sameBooks _ _ _, mem_removeRange _ _ _,
      byteAt_syncCpu hf.dev _ _⟩
  · intro hr
    exact ⟨.visibilityRange, if_neg hr⟩

/-! ### The unrequested copies (20 R75) -/

/-- The shared state after an unrequested refill of one byte. -/
def refilled (sh : Shared) (a : Nat) : Shared := { sh with memCpu := writeBytes sh.memCpu a (readBytes sh .dev a 1) }

theorem refilled_sameBooks (sh : Shared) (a : Nat) : sh.SameBooks (refilled sh a) := ⟨rfl, rfl, rfl, rfl⟩

@[simp] theorem refilled_dirty (sh : Shared) (a : Nat) : (refilled sh a).dirty = sh.dirty := rfl

/-- The range of one byte, as FLUSH and CPU_SYNC give theirs. -/
theorem mem_one_byte_iff (a x : Nat) : a ≤ x ∧ x < a + 1 ↔ x = a := by omega

/-- A write-back takes its own byte out of `dirty`. -/
theorem mem_dirty_publish_one (sh : Shared) (a x : Nat) : x ∈ (publish sh a 1).dirty ↔ x ∈ sh.dirty ∧ x ≠ a := by
  rw [ne_eq, ← mem_one_byte_iff]
  exact mem_removeRange _ _ _ _

/-- A write-back copies its own byte to the device view, and nothing else has changed in either view. -/
theorem byteAt_publish_one {sh : Shared} (hc : Memory.wf sh.memCpu) (a : Nat) (v : View) (x : Nat) :
    byteAt (publish sh a 1) v x = if v = .dev ∧ x = a then byteAt sh .cpu x else byteAt sh v x := by
  simp only [byteAt_publish hc, mem_one_byte_iff]

/-- A refill has the bytes of a sync of its own byte; the two differ in `dirty` alone. -/
theorem byteAt_refilled {sh : Shared} (hd : Memory.wf sh.memDev) (a : Nat) (v : View) (x : Nat) :
    byteAt (refilled sh a) v x = if v = .cpu ∧ x = a then byteAt sh .dev x else byteAt sh v x := by
  have hsync : byteAt (refilled sh a) v x = byteAt (syncCpu sh a 1) v x := by cases v <;> rfl
  simp only [hsync, byteAt_syncCpu hd, mem_one_byte_iff]

/-- All a write-back's turn can do. -/
theorem step_writeBack {s : State} {addr : Addr} {ts : List Turn} (h : s.schedule = .writeBack addr :: ts) :
    step s =
      if pageOf addr.toNat ∈ s.shared.allocated ∧ addr.toNat ∈ s.shared.dirty then
        .next ((s.withSchedule ts).withShared (publish s.shared addr.toNat 1))
      else .refused .copyNotAllowed := by
  simp [step_of_schedule h, takeTurn, writeBackByte]

/-- All a refill's turn can do. -/
theorem step_refill {s : State} {addr : Addr} {ts : List Turn} (h : s.schedule = .refill addr :: ts) :
    step s =
      if pageOf addr.toNat ∈ s.shared.allocated ∧ addr.toNat ∉ s.shared.dirty then
        .next ((s.withSchedule ts).withShared (refilled s.shared addr.toNat))
      else .refused .copyNotAllowed := by
  simp [step_of_schedule h, takeTurn, refillByte, refilled]

/-- Settles O18: each of the two turns tests R75's own condition, and its copy is one byte of a publish or of a sync. -/
theorem unrequestedCopies : Obligations.UnrequestedCopies := by
  intro s addr ts hf
  refine ⟨fun hs => ?writeBack, fun hs => ?refill⟩
  case writeBack =>
    rw [step_writeBack hs]
    exact ⟨fun hc => ⟨publish s.shared addr.toNat 1, if_pos hc, publish_sameBooks _ _ _, mem_dirty_publish_one _ _,
      byteAt_publish_one hf.cpu _⟩, fun hc => ⟨.copyNotAllowed, if_neg hc⟩⟩
  case refill =>
    rw [step_refill hs]
    exact ⟨fun hc => ⟨refilled s.shared addr.toNat, if_pos hc, refilled_sameBooks _ _, refilled_dirty _ _,
      byteAt_refilled hf.dev _⟩, fun hc => ⟨.copyNotAllowed, if_neg hc⟩⟩

end Sys2Proof.Machine
end

section
/-! SUPPORT. Proofs of the statements about encoding (30_encoding.md R102): what a register map names at an offset, the rows of the
default map, and the operation a bus turn runs. -/

namespace Sys2Proof

/-! ### What a register map names at an offset -/

/-- Where no two rows of a map share an offset, every row is found at its own. -/
theorem regAt_eq_some_of_mem {m : RegMap} (hnd : (m.entries.map Prod.fst).Nodup) {off : Nat} {r : Reg}
    (h : (off, r) ∈ m.entries) : m.regAt off = some r := by
  obtain ⟨l₁, l₂, hsplit⟩ := List.append_of_mem h
  have hbefore : ∀ e ∈ l₁, e.1 ≠ off := by
    intro e he
    simp only [hsplit, List.map_append, List.map_cons, List.nodup_append] at hnd
    obtain ⟨-, -, hdisjoint⟩ := hnd
    exact hdisjoint e.1 (List.mem_map_of_mem he) off List.mem_cons_self
  have hnone : l₁.find? (fun e => e.1 == off) = none := by simpa using hbefore
  simp [RegMap.regAt, hsplit, List.find?_append, hnone]

/-- An offset is unmapped exactly where it is no row's. -/
theorem regAt_eq_none_iff (m : RegMap) (off : Nat) : m.regAt off = none ↔ ∀ e ∈ m.entries, e.1 ≠ off := by
  simp [RegMap.regAt]

/-! ### The default map (30 R102) -/

/-- The rows of the default map are those of R102's table. -/
theorem mem_default_entries_iff (off : Nat) (r : Reg) :
    (off, r) ∈ RegMap.default.entries ↔
      (off = 0x00 ∧ r = .dmaEnable) ∨ (off = 0x04 ∧ r = .dmaBufferMode) ∨ (off = 0x08 ∧ r = .blockSize) ∨
      (off = 0x0C ∧ r = .totalSize) ∨ (off = 0x10 ∧ r = .intEnable) ∨ (off = 0x14 ∧ r = .intStatus) ∨
      (off = 0x18 ∧ r = .intClear) ∨ (∃ i : Fin 8, off = 0x40 + 8 * i.val ∧ r = .tableLow i) ∨
      (∃ i : Fin 8, off = 0x44 + 8 * i.val ∧ r = .tableHigh i) := by
  simp only [RegMap.default, List.mem_append, List.mem_cons, List.mem_map, List.mem_finRange, List.not_mem_nil, Prod.mk.injEq,
    true_and, or_false, or_assoc, eq_comm (b := off), eq_comm (b := r)]

theorem default_offsets_nodup : (RegMap.default.entries.map Prod.fst).Nodup := by decide

/-- Every row's offset is aligned to a word, inside its channel's block, and inside one of the table's two ranges. -/
theorem default_offset_bounds :
    ∀ e ∈ RegMap.default.entries, e.1 < 0x100 ∧ e.1 % 4 = 0 ∧ (e.1 ≤ 0x18 ∨ 0x40 ≤ e.1 ∧ e.1 < 0x80) := by decide

namespace Machine

/-! ### A bus turn (30 R101) -/

/-- A 32-bit access at an offset inside channel `c`'s block runs the operation of the register the map names there. -/
theorem step_bus_mapped {s : State} {ts : List Turn} {write : Bool} {c off : Nat} {v : Word} {r : Reg}
    (hs : s.schedule = .bus write (c * s.cfg.regMap.stride + off) 32 v :: ts) (hoff : off < s.cfg.regMap.stride)
    (halign : off % 4 = 0) (hreg : s.cfg.regMap.regAt off = some r) :
    step s = exec (if write then r.writeOp v else r.readOp) ((s.withSchedule ts).select c) := by
  have hrem : (c * s.cfg.regMap.stride + off) % s.cfg.regMap.stride = off := by
    rw [Nat.mul_add_mod', Nat.mod_eq_of_lt hoff]
  have hquot : (c * s.cfg.regMap.stride + off) / s.cfg.regMap.stride = c := by
    rw [Nat.mul_comm, Nat.mul_add_div (by omega), Nat.div_eq_of_lt hoff, Nat.add_zero]
  simp [step_of_schedule hs, takeTurn, busAccess, hrem, hquot, halign, hreg]

/-- Settles O5: an offset of R102's table is a row of the default map, found at that offset alone; an offset outside the table's two
ranges is no row's. -/
theorem defaultRegisterMap : Obligations.DefaultRegisterMap := by
  refine ⟨fun s ts c off write v r hmap hrow hs => ?mapped, fun off _ _ hout => ?unmapped⟩
  case mapped =>
    have hmem : (off, r) ∈ RegMap.default.entries := (mem_default_entries_iff off r).mpr hrow
    obtain ⟨hblock, halign, -⟩ := default_offset_bounds _ hmem
    have hreg := regAt_eq_some_of_mem default_offsets_nodup hmem
    rw [← hmap] at hreg
    have hstride : s.cfg.regMap.stride = 0x100 := by rw [hmap]; rfl
    exact step_bus_mapped (by rw [hstride]; exact hs) (by rw [hstride]; exact hblock) halign hreg
  case unmapped =>
    refine (regAt_eq_none_iff _ _).mpr fun e he heq => ?_
    obtain ⟨-, -, hin⟩ := default_offset_bounds e he
    exact hout (heq ▸ hin)

end Machine
end Sys2Proof
end

section
/-! SUPPORT. Proofs of the statements about BUILD (40_page_table_builder.md R130 to R133): all a call of BUILD can answer, the shared
state it leaves, and the settled statements. -/

namespace Sys2Proof.Machine

/-! ### What BUILD answers (40 R132, R133) -/

/-- All BUILD can do on a free channel: refuse a failed precondition, overflow above 512 pages, refuse a table of a running unit
(log 17), or write the table. -/
theorem exec_build_at {s : State} {c : Chan} (ha : s.At c) (hh : c.host = none) (pages : List Addr) (table : Addr) :
    exec (.build pages table) s =
      if buildAllowed s.shared pages table then
        if 512 < pages.length then .next (s.putChan { c with result := .error .tableOverflow })
        else if touchesFrozenTable s.chans table.toNat Config.pageSize then .refused .tableFrozen
        else .next (s.put ⟨{ c with result := .ok }, writeCpu s.shared table.toNat (tableBytes pages)⟩)
      else .refused .buildPrecondition := by
  rw [show exec (.build pages table) s = execBuild pages table s from rfl, execBuild, call_at ha hh]
  by_cases hb : buildAllowed s.shared pages table = true
  · rw [if_pos hb]
    by_cases hl : 512 < pages.length
    · rw [if_pos hl, buildTable_eq_next.mpr ⟨hb, .inl ⟨hl, rfl, rfl⟩⟩]
      rfl
    · rw [if_neg hl, buildTable_eq_next.mpr ⟨hb, .inr ⟨not_lt.mp hl, rfl, rfl⟩⟩]
      simp only [andThen_next, true_and]
      split <;> rfl
  · rw [if_neg hb, buildTable, if_pos (by simpa using hb)]
    rfl

/-- BUILD finds no frozen table where the table page is clear of every table page of a running ring (20 R87). -/
theorem not_touchesFrozenTable_page {chans : List Chan} {a : Nat}
    (hclear : ∀ x ∈ chans, x.en = true → ∀ r, x.ring = some r → ∀ t ∈ r.table, a + 4096 ≤ t.toNat ∨ t.toNat + 4096 ≤ a) :
    ¬touchesFrozenTable chans a Config.pageSize = true := by
  rw [touchesFrozenTable_iff]
  rintro ⟨-, x, hx, hen, r, hr, t, ht, hbelow, habove⟩
  have hpage : t.toNat < a + 4096 := hbelow
  have hapart := hclear x hx hen r hr t ht
  omega

/-! ### What BUILD leaves in the shared state (40 R130, R131) -/

theorem writeCpu_sameBooks (sh : Shared) (a : Nat) (bs : List Byte) : sh.SameBooks (writeCpu sh a bs) := ⟨rfl, rfl, rfl, rfl⟩

/-- The bytes of a table become dirty, and no other. -/
theorem mem_dirty_writeTable (sh : Shared) (a : Nat) {ps : List Addr} (hl : ps.length ≤ 512) (x : Nat) :
    x ∈ (writeCpu sh a (tableBytes ps)).dirty ↔ x ∈ sh.dirty ∨ (a ≤ x ∧ x < a + 4096) := by
  have hlen : (tableBytes ps).length = 4096 := tableBytes_length hl
  simp [writeCpu, hlen]

/-- The table stands in the CPU view, and nothing else has changed in either view. -/
theorem byteAt_writeTable (sh : Shared) (a : Nat) {ps : List Addr} (hne : ps ≠ []) (hl : ps.length ≤ 512) (v : View) (x : Nat) :
    byteAt (writeCpu sh a (tableBytes ps)) v x =
      if v = .cpu ∧ a ≤ x ∧ x < a + 4096 then tableByte ps (x - a) else byteAt sh v x := by
  have hlen : (tableBytes ps).length = 4096 := tableBytes_length hl
  rw [byteAt_writeCpu, hlen]
  refine if_ctx_congr Iff.rfl (fun ⟨_, hlow, hhigh⟩ => ?_) fun _ => rfl
  rw [tableBytes_getElem? hne hl (by omega), Option.getD_some]

/-- Settles O20: the preconditions leave of BUILD's answers only the write of the table's 4096 bytes. -/
theorem buildWritesTable : Obligations.BuildWritesTable := by
  intro s c pages table ha hh hne hl hpages halign halloc hnotin hclear
  have hallowed := (buildAllowed_iff s.shared pages table).mpr ⟨hne, hpages, halign, halloc, hnotin⟩
  refine ⟨writeCpu s.shared table.toNat (tableBytes pages), ?_, writeCpu_sameBooks _ _ _, mem_dirty_writeTable _ _ hl,
    byteAt_writeTable _ _ hne hl⟩
  rw [exec_build_at ha hh, if_pos hallowed, if_neg (not_lt.mpr hl), if_neg (not_touchesFrozenTable_page hclear)]

/-- Settles O21: BUILD's own test is R133's list of preconditions, and the overflow is tested before anything is written. -/
theorem buildErrors : Obligations.BuildErrors := by
  intro s c pages table ha hh
  rw [← buildAllowed_iff, exec_build_at ha hh]
  exact ⟨fun hallowed hl => by rw [if_pos hallowed, if_pos hl], fun hfails => ⟨.buildPrecondition, if_neg hfails⟩⟩

end Sys2Proof.Machine
end

section
/-! SUPPORT. Proofs of the statements about the ring buffer (41_dma_ring_buffer.md R142, R145, R146): all a call of TEARDOWN and of
READ_SLOT can answer, the bytes of a slot's pages, and the settled statements. -/

namespace Sys2Proof.Machine

/-- An operation that needs a ring is refused in Absent (X11). -/
theorem withRing_absent {α : Type} {c : Chan} (h : c.ringState = .absent) (f : Ring → Out α) :
    withRing c f = .refused .noRing := by
  unfold withRing
  split
  · rfl
  · simp [ringExists, h]

/-! ### TEARDOWN (41 R142) -/

theorem teardownAllowed_iff (c : Chan) :
    teardownAllowed c = true ↔ (c.ringState = .idle ∨ c.ringState = .armed) ∧ c.drainRunning = false ∧ c.pending = 0 ∧
      c.en = false ∧ c.intEnable = false := by
  simp [teardownAllowed, idleOrArmed_iff, and_assoc]

/-- In Idle and in Armed there is a ring. -/
theorem ringState_ne_absent {c : Chan} (h : c.ringState = .idle ∨ c.ringState = .armed) : c.ringState ≠ .absent := by
  rcases h with h | h <;> simp [h]

/-- TEARDOWN of a ring under its preconditions frees the ring's pages. -/
theorem exec_teardown_allowed {s : State} {c : Chan} {r : Ring} (ha : s.At c) (hh : c.host = none)
    (hallowed : teardownAllowed c = true) (hr : c.ring = some r) :
    exec .teardown s = .next (s.put
      ⟨{ c with ring := none, ringState := .absent, result := .ok }, freePages s.shared (ringPages r)⟩) := by
  have hstate : c.ringState ≠ .absent := ringState_ne_absent ((teardownAllowed_iff c).mp hallowed).1
  rw [show exec .teardown s = execTeardown s from rfl, execTeardown, call_at ha hh, teardownRing, if_pos hallowed,
    withRing_at hr hstate]
  rfl

theorem exec_teardown_refused {s : State} {c : Chan} (ha : s.At c) (hh : c.host = none) (h : ¬teardownAllowed c = true) :
    exec .teardown s = .refused .teardownPrecondition := by
  rw [show exec .teardown s = execTeardown s from rfl, execTeardown, call_at ha hh, teardownRing, if_neg h]
  rfl

/-- A byte depends on the two views and the ages of the pages alone. -/
theorem byteAt_congr {sh sh' : Shared} (hcpu : sh'.memCpu = sh.memCpu) (hdev : sh'.memDev = sh.memDev)
    (hage : sh'.pageAge = sh.pageAge) (v : View) (a : Nat) : byteAt sh' v a = byteAt sh v a := by
  have hview : sh'.view v = sh.view v := by
    cases v
    · exact hcpu
    · exact hdev
  rw [byteAt_def, byteAt_def, hview, freshByteAt_congr hage]

/-- Settles O26: TEARDOWN's own test is R142's list of preconditions, and what it leaves of the shared state is what freeing the
ring's pages leaves. -/
theorem teardownFreesPages : Obligations.TeardownFreesPages := by
  refine ⟨rfl, fun s c ha hh => ?_⟩
  rw [← teardownAllowed_iff]
  refine ⟨fun hallowed r hr => ?_, fun hfails => ⟨_, exec_teardown_refused ha hh hfails⟩⟩
  have hpages : r.pages.flatten ++ r.table ++ [r.spare] = ringPages r := List.append_assoc _ _ _
  obtain ⟨hdirty, hcpu, hdev, hage, halloc, hdraws⟩ := freePages_rest s.shared (ringPages r)
  rw [hpages]
  refine ⟨.ok, freePages s.shared (ringPages r), exec_teardown_allowed ha hh hallowed hr, fun p => ?_, hdirty,
    ⟨hage, halloc, hdraws⟩, byteAt_congr hcpu hdev hage⟩
  simp [mem_freePages, eq_comm]

/-! ### CURRENT_WRITE_INDEX (41 R145) -/

/-- Settles O30: the call ends with the index that the cursor's read and its re-write give (`currentWriteIndex_cases`). -/
theorem currentWriteIndexEffect : Obligations.CurrentWriteIndexEffect := by
  refine ⟨rfl, fun s c ha hh => ?_⟩
  rw [show exec .currentWriteIndex s = execCurrentWriteIndex s from rfl, execCurrentWriteIndex, call_at ha hh]
  constructor
  · intro r hr hstate
    obtain ⟨x, waiting, draws, hpaired, hspoiled, hcall⟩ :=
      currentWriteIndex_cases s.cfg (l := ⟨c, s.shared⟩) hr hstate
    refine ⟨x, waiting, draws, hpaired, hspoiled, ?_⟩
    rw [hcall]
    rfl
  · intro habsent
    refine ⟨.noRing, ?_⟩
    rw [currentWriteIndex, withRing_absent habsent]
    rfl

/-! ### READ_SLOT (41 R146) -/

/-- READ_SLOT of a slot whose pages can be synced syncs them, and returns the slot's bytes as the CPU then sees them. -/
theorem exec_readSlot_at {s : State} {c : Chan} {r : Ring} {ps : List Addr} {i : Nat} (ha : s.At c) (hh : c.host = none)
    (hr : c.ring = some r) (hstate : c.ringState ≠ .absent) (hi : i < r.nSlots) (hps : r.pages[i]? = some ps)
    (hsync : ∀ p ∈ ps, rangeAllocated s.shared p.toNat Config.pageSize = true) :
    exec (.readSlot i) s = .next (s.put
      ⟨{ c with result := .bytes ((readPages (synced ps s.shared) ps).take r.slotSize) }, synced ps s.shared⟩) := by
  rw [show exec (.readSlot i) s = execReadSlot i s from rfl, execReadSlot, call_at ha hh,
    readSlot_eq_next.mpr ⟨r, ps, hr, hstate, hi, hps, hsync, rfl, rfl⟩]
  rfl

/-- READ_SLOT is refused where there is no ring, and where the ring has no such slot. -/
theorem exec_readSlot_refused {s : State} {c : Chan} {i : Nat} (ha : s.At c) (hh : c.host = none)
    (h : c.ringState = .absent ∨ ∃ r, c.ring = some r ∧ r.nSlots ≤ i) : ∃ x, exec (.readSlot i) s = .refused x := by
  rw [show exec (.readSlot i) s = execReadSlot i s from rfl, execReadSlot, call_at ha hh, readSlot]
  by_cases habsent : c.ringState = .absent
  · exact ⟨.noRing, by rw [withRing_absent habsent]; rfl⟩
  · obtain ⟨r, hr, hi⟩ := h.resolve_left habsent
    refine ⟨.slotOutOfRange, ?_⟩
    rw [withRing_at hr habsent, if_neg (not_lt.mpr hi)]
    rfl

theorem readPages_length (sh : Shared) (ps : List Addr) : (readPages sh ps).length = 4096 * ps.length := by
  simp [readPages, List.length_flatMap, Config.pageSize, Nat.mul_comm]

/-- Pages read one after the other: byte `k` stands at offset `k % 4096` of page `k / 4096`. -/
theorem readPages_getElem? {sh : Shared} (hc : Memory.wf sh.memCpu) {ps : List Addr} {k : Nat} (hk : k < 4096 * ps.length) :
    (readPages sh ps)[k]? = some (byteAt sh .cpu ((ps.getD (k / 4096) 0).toNat + k % 4096)) := by
  induction ps generalizing k with
  | nil => simp at hk
  | cons p ps ih =>
    have hcons : readPages sh (p :: ps) = readBytes sh .cpu p.toNat 4096 ++ readPages sh ps := rfl
    have hlen : (readBytes sh .cpu p.toNat 4096).length = 4096 := readBytes_length _ _ _ _
    rw [hcons]
    by_cases hfirst : k < 4096
    · rw [List.getElem?_append_left (by omega), readBytes_getElem? (v := .cpu) hc hfirst,
        Nat.div_eq_of_lt hfirst, Nat.mod_eq_of_lt hfirst, List.getD_cons_zero]
    · have hdiv : k / 4096 = (k - 4096) / 4096 + 1 := by omega
      have hmod : k % 4096 = (k - 4096) % 4096 := by omega
      rw [List.getElem?_append_right (by omega), hlen, ih (by simp only [List.length_cons] at hk; omega), hdiv, hmod,
        List.getD_cons_succ]

/-- A slot number that has pages is below N. -/
theorem Ring.Shape.slot_lt {r : Ring} (h : r.Shape) {i : Nat} {ps : List Addr} (hps : r.pages[i]? = some ps) :
    i < r.nSlots := by
  obtain ⟨hlt, -⟩ := List.getElem?_eq_some_iff.mp hps
  rwa [h.pagesCount] at hlt

/-- The pages of a slot begin at page boundaries. -/
theorem Ring.Shape.slot_aligned {r : Ring} (h : r.Shape) {ps : List Addr} (hps : ps ∈ r.pages) :
    ∀ p ∈ ps, p.toNat % Config.pageSize = 0 := by
  intro p hp
  have hmem : p ∈ ringPages r := List.mem_append_left _ (List.mem_flatten.mpr ⟨ps, hps, hp⟩)
  simpa [pageAligned] using h.aligned p hmem

/-- The pages of a slot hold all its bytes. -/
theorem Ring.Shape.slotSize_le {r : Ring} (h : r.Shape) {ps : List Addr} (hps : ps ∈ r.pages) :
    r.slotSize ≤ 4096 * ps.length := by
  rw [h.pagesEach ps hps, h.perSlot, pagesFor_eq]
  omega

/-- The pages of a slot, synced and read: its bytes are those the device view held before. -/
theorem readPages_synced_getElem? {sh : Shared} (hf : sh.Form) {ps : List Addr}
    (hsync : ∀ p ∈ ps, rangeAllocated sh p.toNat Config.pageSize = true) {k : Nat} (hk : k < 4096 * ps.length) :
    (readPages (synced ps sh) ps)[k]? = some (byteAt sh .dev ((ps.getD (k / 4096) 0).toNat + k % 4096)) := by
  obtain ⟨-, -, -, hrefreshed, -⟩ := synced_spec (fun p hp => hf.range_bound (hsync p hp)) hf
  have hpage : k / 4096 < ps.length := by omega
  have hmem : ps.getD (k / 4096) 0 ∈ ps := by
    rw [List.getD_eq_getElem _ _ hpage]
    exact List.getElem_mem hpage
  rw [readPages_getElem? (synced_form hf hsync).cpu hk, hrefreshed _ hmem _ (by omega) (by omega)]

/-- Settles O31: the slot's pages are whole allocated pages, so the call syncs them (`synced_spec`) and reads what the device view
held. -/
theorem readSlotEffect : Obligations.ReadSlotEffect := by
  refine ⟨fun _ => rfl, fun s c i ha hh hf => ⟨?_, exec_readSlot_refused ha hh⟩⟩
  intro r ps hr hstate hshape hps halloc
  have hslot : ps ∈ r.pages := List.mem_of_getElem? hps
  have hsync : ∀ p ∈ ps, rangeAllocated s.shared p.toNat Config.pageSize = true :=
    fun p hp => rangeAllocated_page (hshape.slot_aligned hslot p hp) (halloc p hp)
  have hfits := hshape.slotSize_le hslot
  obtain ⟨hbooks, hdirty, hdev, hrefreshed, hkept⟩ := synced_spec (fun p hp => hf.range_bound (hsync p hp)) hf
  refine ⟨(readPages (synced ps s.shared) ps).take r.slotSize, synced ps s.shared,
    exec_readSlot_at ha hh hr hstate (hshape.slot_lt hps) hps hsync, ?length, ?bytes, hbooks, hdev, ?inside, ?outside⟩
  case length => rw [List.length_take, readPages_length, min_eq_left hfits]
  case bytes =>
    intro k hk
    rw [List.getElem?_take_of_lt hk, readPages_synced_getElem? hf hsync (hk.trans_le hfits)]
  case inside =>
    exact fun p hp a hlow hhigh => ⟨hrefreshed p hp a hlow hhigh, fun hd => ((hdirty a).mp hd).2 p hp ⟨hlow, hhigh⟩⟩
  case outside =>
    exact fun a hout => ⟨hkept a hout, (hdirty a).trans (and_iff_left hout)⟩

end Sys2Proof.Machine
end

section
/-! SUPPORT. Proofs of the statements about the capture channel (42_capture_channel.md R174): what STOP answers outside Streaming,
and the settled statement. -/

namespace Sys2Proof.Machine

/-! ### STOP (42 R174) -/

/-- A STOP that finds its channel outside Streaming ends at once: no register access, no join, no change of the clock. -/
theorem stopStep_outside_streaming {l : Local} (hh : l.chan.host = none) (hstate : l.chan.ringState ≠ .streaming) :
    stopStep l = .next (finish .ok l) := by
  simp only [stopStep, hh, if_neg hstate]

/-- Settles O35: on the selected channel STOP is `stopStep`, which there only ends the call. -/
theorem stopOutsideStreaming : Obligations.StopOutsideStreaming := by
  intro s c ha hh hstate
  rw [show exec .stop s = execStop s from rfl, execStop, onChannel_at ha,
    stopStep_outside_streaming (l := ⟨c, s.shared⟩) hh hstate]
  rfl

end Sys2Proof.Machine
end

section
/-! SUPPORT. Proofs of the statements about the synchronizer (43_sync_scanner.md R185 to R188): what the marker tests say, what the
search finds, what SCAN and ALIGN answer, and the settled statements. -/

namespace Sys2Proof.Machine

/-! ### The marker tests -/

theorem markerAt_iff (slot : List Byte) (i : Nat) : markerAt slot i = true ↔ slot[i]? = some 0x47#8 := by
  simp [markerAt]

theorem threeMarkers_iff (slot : List Byte) (i : Nat) :
    threeMarkers slot i = true ↔
      i + 376 < slot.length ∧ slot[i]? = some 0x47#8 ∧ slot[i + 188]? = some 0x47#8 ∧ slot[i + 376]? = some 0x47#8 := by
  simp [threeMarkers, markerAt_iff, and_assoc, Config.packetSize]

/-- The length test of `keepsOffset` is implied: a byte that is there lies in the slot. -/
theorem keepsOffset_iff (slot : List Byte) (known : Option Nat) :
    keepsOffset slot known = true ↔ ∃ k, known = some k ∧ slot[k]? = some 0x47#8 := by
  cases known with
  | none => simp [keepsOffset]
  | some k =>
    have hinside : slot[k]? = some 0x47#8 → k < slot.length := fun h => (List.getElem?_eq_some_iff.mp h).1
    simpa [keepsOffset, markerAt_iff] using hinside

/-- The length test of `stageFits` is implied: a stage that begins with a marker is not empty. -/
theorem stageFits_iff (off : Nat) (stage : List Byte) :
    stageFits off stage = true ↔ stage.length + off = 188 ∧ stage[0]? = some 0x47#8 := by
  have hnonempty : stage[0]? = some 0x47#8 → 0 < stage.length := fun h => (List.getElem?_eq_some_iff.mp h).1
  simp only [stageFits, Bool.and_eq_true, decide_eq_true_eq, markerAt_iff, and_assoc]
  exact and_iff_right_of_imp fun ⟨_, hmarker⟩ => hnonempty hmarker

/-! ### The search (43 R186) -/

theorem search_eq_some_iff (slot : List Byte) (i : Nat) :
    search slot = some i ↔ i ≤ 187 ∧ threeMarkers slot i = true ∧ ∀ j, j < i → ¬threeMarkers slot j = true := by
  have hrange : i ∈ List.range Config.packetSize ↔ i ≤ 187 := List.mem_range.trans Nat.lt_succ_iff
  rw [search, List.find?_range_eq_some, hrange, and_left_comm]
  simp only [Bool.not_eq_true', Bool.not_eq_true]

theorem search_eq_none_iff (slot : List Byte) :
    search slot = none ↔ ∀ i, i ≤ 187 → ¬threeMarkers slot i = true := by
  simp only [search, List.find?_eq_none, List.mem_range, Config.packetSize, Nat.lt_succ_iff]

/-- Settles O39: the search goes through the offsets of a packet in rising order, and its test is R186's run of three markers. -/
theorem searchFindsFirst : Obligations.SearchFindsFirst := by
  intro slot hit
  have hhit : ∀ i, hit i ↔ threeMarkers slot i = true := fun i => (threeMarkers_iff slot i).symm
  simp only [hhit]
  exact ⟨search_eq_some_iff slot, search_eq_none_iff slot⟩

/-! ### SCAN (43 R185, R187) -/

theorem scan_kept {slot : List Byte} {known : Option Nat} (h : keepsOffset slot known = true) :
    scan slot known = (.kept, known) := if_pos h

theorem scan_resynced {slot : List Byte} {known : Option Nat} (h : ¬keepsOffset slot known = true) {i : Nat}
    (hi : search slot = some i) : scan slot known = (.resynced, some i) := by
  rw [scan, if_neg h, hi]

theorem scan_lost {slot : List Byte} {known : Option Nat} (h : ¬keepsOffset slot known = true)
    (hnone : search slot = none) : scan slot known = (.desynchronized, known) := by
  rw [scan, if_neg h, hnone]

/-- SCAN ends with what `scan` answers and writes nothing else. -/
theorem exec_scan_at {s : State} {c : Chan} (ha : s.At c) (slot : List Byte) (known : Option Nat) :
    exec (.scan slot known) s =
      .next (s.putChan { c with result := .scanned (scan slot known).1 (scan slot known).2 }) := by
  rw [show exec (.scan slot known) s = execScan slot known s from rfl, execScan, onChannel_at ha]
  rfl

/-- Settles O38: the three cases are those of `scan`, and its test of the known offset is R185's. -/
theorem scanResult : Obligations.ScanResult := by
  refine ⟨fun _ _ => rfl, fun s c slot known ha => ?_⟩
  rw [← keepsOffset_iff, exec_scan_at ha]
  refine ⟨fun hkeeps => ?kept, fun hfails => ⟨fun i hi => ?resynced, fun hnone => ?lost⟩⟩
  case kept => rw [scan_kept hkeeps]
  case resynced => rw [scan_resynced hfails hi]
  case lost => rw [scan_lost hfails hnone]

/-! ### ALIGN (43 R188) -/

theorem align_past {slot : List Byte} {off : Nat} (h : slot.length ≤ off) (stage : List Byte) :
    align slot off stage = ([], []) := if_pos h

/-- The new tail is what is left of the slot after the whole packets from the offset on. -/
theorem align_tail {slot : List Byte} {off : Nat} (h : off < slot.length) (stage : List Byte) :
    (align slot off stage).2 = slot.drop (off + 188 * ((slot.length - off) / 188)) := by
  rw [align, if_neg (not_le.mpr h)]

/-- Nothing of the slot from the offset on is lost or repeated; ahead of it stand the stage and the slot's head where they fit, and
nothing where they do not. -/
theorem align_out_append_tail {slot : List Byte} {off : Nat} (h : off < slot.length) (stage : List Byte) :
    (align slot off stage).1 ++ (align slot off stage).2 =
      if stageFits off stage then stage ++ slot else slot.drop off := by
  rw [align, if_neg (not_le.mpr h)]
  simp only [List.append_assoc, ← List.drop_drop, List.take_append_drop]
  split
  · rw [List.append_assoc, List.take_append_drop]
  · rfl

/-- ALIGN ends with what `align` answers and writes nothing else. -/
theorem exec_align_at {s : State} {c : Chan} (ha : s.At c) (slot : List Byte) (off : Nat) (stage : List Byte) :
    exec (.align slot off stage) s =
      .next (s.putChan { c with result := .aligned (align slot off stage).1 (align slot off stage).2 }) := by
  rw [show exec (.align slot off stage) s = execAlign slot off stage s from rfl, execAlign, onChannel_at ha]
  rfl

/-- Settles O41: the call ends with what `align` answers, which keeps every byte from the offset on (`align_out_append_tail`). -/
theorem alignResult : Obligations.AlignResult := by
  refine ⟨fun _ _ _ => rfl, fun s c slot off stage ha => ?_⟩
  rw [← stageFits_iff]
  refine ⟨(align slot off stage).1, (align slot off stage).2, exec_align_at ha slot off stage,
    align_out_length slot off stage, align_stage_length slot off stage, fun hpast => ?past, fun hinside => ?inside⟩
  case past =>
    rw [align_past hpast]
    exact ⟨rfl, rfl⟩
  case inside =>
    rw [align_out_append_tail hinside]
    exact ⟨align_tail hinside stage, fun hfits => if_pos hfits, fun hfails => if_neg hfails⟩

end Sys2Proof.Machine
end

section
/-! SUPPORT. Proofs of the statements about the interrupt bridge (44_interrupt_bridge.md R200 to R204, R206): where an agent other
than the HOST has a step, what each step of the bridge does to its channel, and the settled statements. -/

namespace Sys2Proof.Machine

/-! ### Steps of an agent other than the HOST (log 9) -/

theorem agent_at {s : State} {c : Chan} (ha : s.At c) {enabled : Chan → Bool} (he : enabled c = true) (f : Local → Out Local) :
    onChannel s (whenEnabled enabled f) = andThen (f ⟨c, s.shared⟩) fun l => .next (s.put l) := by
  rw [onChannel_at ha, whenEnabled, if_pos he]

theorem agent_refused {s : State} {c : Chan} (ha : s.At c) {enabled : Chan → Bool} (he : ¬enabled c = true)
    (f : Local → Out Local) : onChannel s (whenEnabled enabled f) = .refused .notEnabled := by
  rw [onChannel_at ha, whenEnabled, if_neg he]
  rfl

/-! ### The enabling conditions -/

theorem irqEnabled_iff (c : Chan) :
    irqEnabled c = true ↔ c.intStatus = true ∧ c.intEnable = true ∧ c.ringState ≠ .absent := by
  simp [irqEnabled, irqLine, ringExists, and_assoc]

theorem drainBeginEnabled_iff (c : Chan) :
    drainBeginEnabled c = true ↔ 0 < c.pending ∧ c.drainRunning = false ∧ c.ringState ≠ .absent := by
  simp [drainBeginEnabled, ringExists, and_assoc]

theorem drainSlotEnabled_iff (c : Chan) : drainSlotEnabled c = true ↔ c.drainRunning = true ∧ 0 < c.drainLeft := by
  simp [drainSlotEnabled]

/-! ### SINK_WRITE (44 R206) -/

theorem packetAligned_iff (bytes : List Byte) :
    packetAligned bytes = true ↔ bytes.length % 188 = 0 ∧ 0 < bytes.length ∧ bytes[0]? = some 0x47#8 := by
  simp [packetAligned, markerAt_iff, and_assoc, Config.packetSize]

theorem sinkWrite_accepted {bytes : List Byte} (h : packetAligned bytes = true) (c : Chan) :
    sinkWrite bytes c = { c with sinkOut := c.sinkOut ++ [bytes] } := if_pos h

theorem sinkWrite_rejected {bytes : List Byte} (h : ¬packetAligned bytes = true) (c : Chan) :
    sinkWrite bytes c = { c with sinkRejected := c.sinkRejected + 1 } := if_neg h

/-- SINK_WRITE ends with the sink's answer, in every state of its channel. -/
theorem exec_sinkWrite_at {s : State} {c : Chan} (ha : s.At c) (bytes : List Byte) :
    exec (.sinkWrite bytes) s =
      .next (s.putChan { sinkWrite bytes c with result := .sunk (packetAligned bytes) }) := by
  rw [show exec (.sinkWrite bytes) s = execSinkWrite bytes s from rfl, execSinkWrite, onChannel_at ha]
  rfl

/-- Settles O43: the call does what the sink does with the buffer, and the sink's test is R206's. -/
theorem sinkWriteEffect : Obligations.SinkWriteEffect := by
  refine ⟨fun _ => rfl, fun s c bytes ha => ?_⟩
  rw [← packetAligned_iff, exec_sinkWrite_at ha]
  refine ⟨fun haccepts => ⟨.sunk (packetAligned bytes), ?_⟩, fun hrejects => ⟨.sunk (packetAligned bytes), ?_⟩⟩
  · rw [sinkWrite_accepted haccepts]
  · rw [sinkWrite_rejected hrejects]

/-! ### IRQ (44 R200) -/

/-- The acknowledging write of 1 to `INT_CLEAR` clears the status bit. -/
theorem takeInterrupt_eq (l : Local) :
    takeInterrupt l = l.withChan { l.chan with intStatus := false, pending := min 2 (l.chan.pending + 1) } := rfl

/-- Settles O44: IRQ's enabling condition is the three premises, and where it holds the step is `takeInterrupt`. -/
theorem interruptTaken : Obligations.InterruptTaken := by
  refine ⟨rfl, fun s c ha => ?_⟩
  rw [show exec .irq s = execIrq s from rfl, execIrq]
  constructor
  · intro hstatus henable hring
    rw [agent_at ha ((irqEnabled_iff c).mpr ⟨hstatus, henable, hring⟩), takeInterrupt_eq]
    rfl
  · intro hfails
    refine ⟨.notEnabled, agent_refused ha (fun he => ?_) _⟩
    obtain ⟨hstatus, henable, hring⟩ := (irqEnabled_iff c).mp he
    simp [hstatus, henable, hring] at hfails

/-! ### DRAIN_BEGIN (44 R202, R203) -/

/-- What DRAIN_BEGIN makes of the write index it read. A distance of 0 also leaves nothing to drain, so the two cases of R202 differ
in the log alone. -/
theorem drainBegin_of_read {cfg : HwConfig} {l l' : Local} {r : Ring} {w : Nat} (hr : l.chan.ring = some r)
    (hstate : l.chan.ringState ≠ .absent)
    (hread : currentWriteIndex cfg (l.withChan { l.chan with drainRunning := true }) = .next (w, l')) :
    drainBegin cfg l = .next (l'.withChan { l'.chan with
      drainLeft := drainCount cfg.margin w l'.chan.readIndex r.nSlots,
      log := if distance w l'.chan.readIndex r.nSlots = 0 then l'.chan.log ++ [.spuriousInterrupt] else l'.chan.log }) := by
  rw [drainBegin, withRing_at hr hstate, hread, andThen_next]
  by_cases hzero : distance w l'.chan.readIndex r.nSlots = 0
  · simp only [drainCount, hzero, if_true, Nat.zero_sub, logEvent]
  · simp only [hzero, if_false]

/-- On indices modulo N the distance needs no further reduction. -/
theorem distance_of_lt {b n : Nat} (x : Nat) (h : b < n) : distance (x % n) b n = (x % n + n - b) % n := by
  rw [distance, Nat.mod_mod, Nat.mod_eq_of_lt h]

/-- Settles O45: DRAIN_BEGIN's read is that of CURRENT_WRITE_INDEX (`currentWriteIndex_cases`), and `drainBegin_of_read` says what
the step makes of it. -/
theorem drainBeginEffect : Obligations.DrainBeginEffect := by
  refine ⟨rfl, fun s c ha hfails => ?refused, fun s c r ha hpending hidle hring hr hlt => ?begins⟩
  case refused =>
    refine ⟨.notEnabled, agent_refused ha (fun he => ?_) _⟩
    obtain ⟨hpending, hidle, hring⟩ := (drainBeginEnabled_iff c).mp he
    simp [hpending.ne', hidle, hring] at hfails
  case begins =>
    obtain ⟨x, waiting, draws, hpaired, hspoiled, hread⟩ :=
      currentWriteIndex_cases s.cfg (l := ⟨{ c with drainRunning := true }, s.shared⟩) hr hring
    refine ⟨x, waiting, draws, hpaired, hspoiled, ?_⟩
    rw [show exec .drainBegin s = execDrainBegin s from rfl, execDrainBegin,
      agent_at ha ((drainBeginEnabled_iff c).mpr ⟨hpending, hidle, hring⟩),
      drainBegin_of_read (l := ⟨c, s.shared⟩) hr hring hread, ← distance_of_lt x.toNat hlt]
    rfl

/-! ### DRAIN_SLOT (44 R204) -/

/-- All DRAIN_SLOT makes of a slot's bytes: the scan's offset and log entry, what forwarding staged and gave the sink, and the cursor
one slot on. -/
theorem consumeSlot_eq (n : Nat) (bs : List Byte) (c : Chan) :
    ∃ stage out rejected,
      consumeSlot n bs c = { c with
        resyncOffset := (scan bs c.resyncOffset).2,
        log := if (scan bs c.resyncOffset).1 = .desynchronized then c.log ++ [.streamDesynchronized] else c.log,
        stage := stage, sinkOut := c.sinkOut ++ out, sinkRejected := c.sinkRejected + rejected,
        readIndex := (c.readIndex + 1) % n, drainLeft := c.drainLeft - 1 } ∧
      ((scan bs c.resyncOffset).2 = none → stage = [] ∧ out = [] ∧ rejected = 0) ∧
      ∀ off, (scan bs c.resyncOffset).2 = some off → stage = (align bs off c.stage).2 ∧
        (out, rejected) =
          if (align bs off c.stage).1 = [] then ([], 0)
          else if (align bs off c.stage).1[0]? = some 0x47#8 then ([(align bs off c.stage).1], 0) else ([], 1) := by
  have hnoted := noteScan_eq (c := c) (scan_desynchronized (slot := bs) (known := c.resyncOffset))
  obtain ⟨stage, out, rejected, hforward, hlost, hfound⟩ :=
    forwardSlot_eq bs (scan bs c.resyncOffset).2 (noteScan (scan bs c.resyncOffset).1 (scan bs c.resyncOffset).2 c)
  rw [hnoted] at hforward hfound
  refine ⟨stage, out, rejected, ?_, hlost, hfound⟩
  rw [consumeSlot, hnoted, hforward]
  rfl

/-- DRAIN_SLOT of a slot that READ_SLOT can read consumes the bytes read. -/
theorem drainSlot_of_read {l l' : Local} {r : Ring} {bs : List Byte} (hr : l.chan.ring = some r)
    (hstate : l.chan.ringState ≠ .absent) (hread : readSlot l.chan.readIndex l = .next (bs, l')) :
    drainSlot l = .next (l'.withChan (consumeSlot r.nSlots bs l'.chan)) := by
  rw [drainSlot, withRing_at hr hstate, hread, andThen_next]

/-- The bytes READ_SLOT takes from a slot's synced pages: the slot's size of them, each as the device view held it. -/
theorem slotBytes_spec {r : Ring} {sh : Shared} {i : Nat} {ps : List Addr} (hf : sh.Form) (hshape : r.Shape)
    (hps : r.pages[i]? = some ps) (hsync : ∀ p ∈ ps, rangeAllocated sh p.toNat Config.pageSize = true) :
    ((readPages (synced ps sh) ps).take r.slotSize).length = r.slotSize ∧
    ∀ k, k < r.slotSize → ((readPages (synced ps sh) ps).take r.slotSize)[k]? =
      some (byteAt sh .dev ((ps.getD (k / 4096) 0).toNat + k % 4096)) := by
  have hfits := hshape.slotSize_le (List.mem_of_getElem? hps)
  refine ⟨by rw [List.length_take, readPages_length, min_eq_left hfits], fun k hk => ?_⟩
  rw [List.getElem?_take_of_lt hk, readPages_synced_getElem? hf hsync (hk.trans_le hfits)]

/-- Settles O46: the slot's pages are whole allocated pages, so the step reads the slot as READ_SLOT does (`readSlot_eq_next`), and
`consumeSlot_eq` says what becomes of its bytes. -/
theorem drainSlotEffect : Obligations.DrainSlotEffect := by
  refine ⟨rfl, fun s c ha hfails => ?refused,
    fun s c r ps ha hrunning hleft hr hstate hshape hps halloc hf => ?drains⟩
  case refused =>
    refine ⟨.notEnabled, agent_refused ha (fun he => ?_) _⟩
    obtain ⟨hrunning, hleft⟩ := (drainSlotEnabled_iff c).mp he
    simp [hrunning, hleft.ne'] at hfails
  case drains =>
    have hsync : ∀ p ∈ ps, rangeAllocated s.shared p.toNat Config.pageSize = true := fun p hp =>
      rangeAllocated_page (hshape.slot_aligned (List.mem_of_getElem? hps) p hp) (halloc p hp)
    obtain ⟨hlength, hbytes⟩ := slotBytes_spec hf hshape hps hsync
    have hread := (readSlot_eq_next (l := ⟨c, s.shared⟩)).mpr
      ⟨r, ps, hr, hstate, hshape.slot_lt hps, hps, hsync, rfl, rfl⟩
    generalize (readPages (synced ps s.shared) ps).take r.slotSize = bs at hlength hbytes hread
    obtain ⟨stage, out, rejected, hconsumed, hlost, hfound⟩ := consumeSlot_eq r.nSlots bs c
    refine ⟨bs, stage, out, rejected, hlength, hbytes, ?_, hlost, hfound⟩
    rw [show exec .drainSlot s = execDrainSlot s from rfl, execDrainSlot,
      agent_at ha ((drainSlotEnabled_iff c).mpr ⟨hrunning, hleft⟩),
      drainSlot_of_read (l := ⟨c, s.shared⟩) hr hstate hread, ← hconsumed]
    rfl

end Sys2Proof.Machine
end

section
/-! SUPPORT. Proofs of the statements about the register accesses (45_register_access_and_capture.md R220 to R237 but the read of
`DMA_BUFFER_MODE`): what each access answers on a free channel, each said once, and the settled statements. -/

namespace Sys2Proof.Machine

/-! ### Where the table registers stand (30 R102) -/

theorem default_regAt_tables (i : Fin 8) :
    RegMap.default.regAt (0x40 + 8 * i.val) = some (.tableLow i) ∧
    RegMap.default.regAt (0x44 + 8 * i.val) = some (.tableHigh i) :=
  ⟨regAt_eq_some_of_mem default_offsets_nodup ((mem_default_entries_iff _ _).mpr (by simp)),
    regAt_eq_some_of_mem default_offsets_nodup ((mem_default_entries_iff _ _).mpr (by simp))⟩

/-! ### WR_DMA_ENABLE (45 R220) -/

/-- An enable is refused exactly in the rule's cases. -/
theorem enableRefusal_ne_none_iff (c : Chan) :
    enableRefusal c ≠ none ↔ c.needsReset = true ∨ c.rst = true ∨ c.blockSize.toNat = 0 ∨ 2097152 < c.blockSize.toNat ∨
      c.totalSize.toNat ≠ (c.slotCountM1.toNat + 1) * c.blockSize.toNat := by
  simp only [ne_eq, enableRefusal_eq_none, modeSlots, Config.tableCapacity, not_and_or, not_not, not_le, Bool.not_eq_false]

theorem enableUnit_refused {l : Local} (h : enableRefusal l.chan ≠ none) : ∃ r, enableUnit l = .refused r := by
  obtain ⟨r, hr⟩ := Option.ne_none_iff_exists'.mp h
  exact ⟨r, by rw [enableUnit, hr]⟩

theorem enableUnit_taken {l : Local} (h : enableRefusal l.chan = none) :
    enableUnit l = .next (l.withChan { l.chan with en := true }) := by
  rw [enableUnit, h]

theorem disableUnit_landed {l : Local} (h : ∀ e ∈ l.chan.inflight, pageOf e.addr.toNat ∈ l.shared.allocated) :
    disableUnit l =
      .next ⟨{ l.chan with inflight := [], en := false, needsReset := true }, landed l.chan.inflight l.shared⟩ := by
  rw [disableUnit, landBytes_eq_next.mpr ⟨h, rfl⟩, andThen_next]

theorem disableUnit_fault {l : Local} (h : ∃ e ∈ l.chan.inflight, pageOf e.addr.toNat ∉ l.shared.allocated) :
    disableUnit l = .fault .dmaToFreedPage := by
  rw [disableUnit, landBytes_fault h, andThen_fault]

theorem writeEnable_unchanged {v : Word} {l : Local} (h : bit0 v = l.chan.en) : writeEnable v l = .next l := by
  simp [writeEnable, h]

theorem writeEnable_enable {v : Word} {l : Local} (hv : bit0 v = true) (he : l.chan.en = false) :
    writeEnable v l = enableUnit l := by
  simp [writeEnable, hv, he]

theorem writeEnable_disable {v : Word} {l : Local} (hv : bit0 v = false) (he : l.chan.en = true) :
    writeEnable v l = disableUnit l := by
  simp [writeEnable, hv, he]

theorem exec_wrDmaEnable_at {s : State} {c : Chan} (ha : s.At c) (hh : c.host = none) (v : Word) :
    exec (.wrDmaEnable v) s = andThen (writeEnable v ⟨c, s.shared⟩) fun l => .next (s.put (finish .ok l)) :=
  guardedWrite_at ha hh (writeEnable v)

/-- Settles O9: bit 0 against `EN` selects between no effect, `enableUnit` and `disableUnit`; the enable's tests are the rule's
(`enableRefusal_ne_none_iff`) and the disable lands the queue (`landBytes_eq_next`, `landBytes_fault`). -/
theorem wrDmaEnableEffect : Obligations.WrDmaEnableEffect := by
  refine ⟨fun _ => rfl, rfl, fun s c v ha hh => ?_⟩
  rw [exec_wrDmaEnable_at ha hh]
  refine ⟨fun hsame => ?unchanged, fun hv he => ?enable, fun hv he => ?disable⟩
  case unchanged =>
    rw [writeEnable_unchanged (l := ⟨c, s.shared⟩) hsame]
    exact ⟨.ok, rfl⟩
  case enable =>
    rw [writeEnable_enable (l := ⟨c, s.shared⟩) hv he]
    constructor
    · intro hbad
      obtain ⟨r, hr⟩ := enableUnit_refused (l := ⟨c, s.shared⟩) ((enableRefusal_ne_none_iff c).mpr hbad)
      exact ⟨r, by rw [hr, andThen_refused]⟩
    · intro hreset hrst hpositive hfits htotal
      rw [enableUnit_taken (enableRefusal_eq_none.mpr ⟨hreset, hrst, hpositive, hfits, htotal⟩)]
      exact ⟨.ok, rfl⟩
  case disable =>
    rw [writeEnable_disable (l := ⟨c, s.shared⟩) hv he]
    constructor
    · intro hallocated
      rw [disableUnit_landed hallocated]
      exact ⟨.ok, rfl⟩
    · intro hfreed
      rw [disableUnit_fault hfreed, andThen_fault]

/-! ### WR_DMA_BUFFER_MODE (45 R222) -/

theorem writeBufferMode_refused {v : Word} {l : Local}
    (h : l.chan.en = true ∧ (rstField v = true ∨ slotCountField v ≠ l.chan.slotCountM1)) :
    writeBufferMode v l = .refused .modeWhileRunning :=
  if_pos (by simpa using h)

theorem exec_wrDmaBufferMode_at {s : State} {c : Chan} (ha : s.At c) (hh : c.host = none) (v : Word) :
    exec (.wrDmaBufferMode v) s = andThen (writeBufferMode v ⟨c, s.shared⟩) fun l => .next (s.put (finish .ok l)) :=
  guardedWrite_at ha hh (writeBufferMode v)

/-- Settles O11: the write's own test is R222's, and a write that passes it is the update of `writeBufferMode_eq_next`. -/
theorem wrDmaBufferModeEffect : Obligations.WrDmaBufferModeEffect := by
  refine ⟨fun _ => rfl, rfl, fun s c v ha hh => ?_⟩
  rw [exec_wrDmaBufferMode_at ha hh]
  constructor
  · intro hbad
    rw [writeBufferMode_refused (l := ⟨c, s.shared⟩) hbad]
    exact ⟨.modeWhileRunning, rfl⟩
  · intro hlegal
    have hpasses : c.en = true → rstField v = false ∧ slotCountField v = c.slotCountM1 := fun he =>
      ⟨Bool.eq_false_iff.mpr fun hrst => hlegal ⟨he, .inl hrst⟩, not_not.mp fun hcount => hlegal ⟨he, .inr hcount⟩⟩
    rw [writeBufferMode_eq_next.mpr ⟨hpasses, rfl⟩]
    exact ⟨.ok, rfl⟩

/-! ### The registers that are frozen while the unit runs (45 R224, R226, R228, R230) -/

section Frozen

variable {s : State} {c : Chan}

/-- A write of a frozen register, whatever field it stores. -/
theorem frozenWrite_at (ha : s.At c) (hh : c.host = none) (store : Chan → Chan) :
    guardedWrite s (fun l => whileStopped l (store l.chan)) =
      if c.en then .refused .frozenWhileRunning else .next (s.putChan { store c with result := .ok }) := by
  rw [guardedWrite_at ha hh, whileStopped]
  split <;> rfl

theorem exec_wrDmaPageTableAddrLow_at (ha : s.At c) (hh : c.host = none) (i : Fin 8) (v : Word) :
    exec (.wrDmaPageTableAddrLow i v) s =
      if c.en then .refused .frozenWhileRunning
      else .next (s.putChan { c with tableLow := c.tableLow.set i.val (tableLowField v) i.isLt, result := .ok }) :=
  frozenWrite_at ha hh fun c => { c with tableLow := c.tableLow.set i.val (tableLowField v) i.isLt }

theorem exec_wrDmaPageTableAddrHigh_at (ha : s.At c) (hh : c.host = none) (i : Fin 8) (v : Word) :
    exec (.wrDmaPageTableAddrHigh i v) s =
      if c.en then .refused .frozenWhileRunning
      else .next (s.putChan { c with tableHigh := c.tableHigh.set i.val v i.isLt, result := .ok }) :=
  frozenWrite_at ha hh fun c => { c with tableHigh := c.tableHigh.set i.val v i.isLt }

theorem exec_wrDmaBlockSize_at (ha : s.At c) (hh : c.host = none) (v : Word) :
    exec (.wrDmaBlockSize v) s =
      if c.en then .refused .frozenWhileRunning else .next (s.putChan { c with blockSize := v, result := .ok }) :=
  frozenWrite_at ha hh fun c => { c with blockSize := v }

theorem exec_wrDmaTotalSize_at (ha : s.At c) (hh : c.host = none) (v : Word) :
    exec (.wrDmaTotalSize v) s =
      if c.en then .refused .frozenWhileRunning else .next (s.putChan { c with totalSize := v, result := .ok }) :=
  frozenWrite_at ha hh fun c => { c with totalSize := v }

end Frozen

/-- Settles O12: each of the four writes is a `frozenWrite_at`, which tests `EN` and else stores. -/
theorem frozenRegisterWrites : Obligations.FrozenRegisterWrites := by
  refine ⟨fun _ _ => ⟨rfl, rfl, rfl, rfl⟩, default_regAt_tables, rfl, rfl, fun s c i v ha hh => ?_⟩
  rw [exec_wrDmaPageTableAddrLow_at ha hh, exec_wrDmaPageTableAddrHigh_at ha hh, exec_wrDmaBlockSize_at ha hh,
    exec_wrDmaTotalSize_at ha hh]
  constructor
  · intro hstopped
    have hen : ¬c.en = true := Bool.eq_false_iff.mp hstopped
    exact ⟨⟨.ok, if_neg hen⟩, ⟨.ok, if_neg hen⟩, ⟨.ok, if_neg hen⟩, ⟨.ok, if_neg hen⟩⟩
  · intro hen
    exact ⟨⟨_, if_pos hen⟩, ⟨_, if_pos hen⟩, ⟨_, if_pos hen⟩, ⟨_, if_pos hen⟩⟩

/-! ### The interrupt registers (45 R232, R234, R236) -/

/-- Write-one-to-clear, in both values of bit 0. -/
theorem writeIntClear_eq (v : Word) (l : Local) :
    writeIntClear v l = l.withChan { l.chan with intStatus := if bit0 v then false else l.chan.intStatus } := by
  unfold writeIntClear
  split <;> rfl

theorem exec_wrIntClear_at {s : State} {c : Chan} (ha : s.At c) (hh : c.host = none) (v : Word) :
    exec (.wrIntClear v) s =
      .next (s.putChan { c with intStatus := if bit0 v then false else c.intStatus, result := .ok }) := by
  rw [show exec (.wrIntClear v) s = plainWrite s (writeIntClear v) from rfl, plainWrite_at ha hh, writeIntClear_eq]
  rfl

/-- Settles O13: the three writes cannot be refused (`plainWrite_at`), and each stores what its own function of the word says. -/
theorem interruptRegisterWrites : Obligations.InterruptRegisterWrites := by
  refine ⟨fun _ => ⟨rfl, rfl, rfl⟩, rfl, rfl, rfl, fun s c v ha hh => ?_⟩
  exact ⟨⟨.ok, plainWrite_at ha hh (writeIntEnable v)⟩, rfl, ⟨.ok, plainWrite_at ha hh (writeIntStatus v)⟩,
    ⟨.ok, exec_wrIntClear_at ha hh v⟩⟩

/-! ### The plain reads (45 R221, R225, R227, R229, R231, R233, R235, R237) -/

theorem bitWord_eq (b : Bool) : bitWord b = if b then 1 else 0 := by cases b <;> rfl

/-- Settles O14: a plain read returns a function of its channel and does nothing else (`plainRead_at`); the words are those functions
at the channel. -/
theorem plainRegisterReads : Obligations.PlainRegisterReads := by
  refine ⟨rfl, fun _ => ⟨rfl, rfl⟩, rfl, rfl, rfl, rfl, rfl, rfl, default_regAt_tables, fun s c i ha hh => ?_⟩
  simp only [← bitWord_eq]
  exact ⟨plainRead_at ha hh readEnable, plainRead_at ha hh (readTableLow i), plainRead_at ha hh (readTableHigh i),
    plainRead_at ha hh readBlockSize, plainRead_at ha hh readTotalSize, plainRead_at ha hh readIntEnable,
    plainRead_at ha hh readIntStatus, plainRead_at ha hh readIntClear⟩

end Sys2Proof.Machine
end

section
/-! SUPPORT. Proofs of the statements about the capture unit's own steps (45_register_access_and_capture.md R241, R242): what CAP_LAND
and RST_DONE do to their channel, and the settled statements. -/

namespace Sys2Proof.Machine

/-! ### CAP_LAND (45 R241) -/

theorem capLandEnabled_iff (c : Chan) : capLandEnabled c = true ↔ c.inflight ≠ [] := by
  simp [capLandEnabled]

theorem writeDev_sameBooks (sh : Shared) (a : Nat) (bs : List Byte) : sh.SameBooks (writeDev sh a bs) := ⟨rfl, rfl, rfl, rfl⟩

@[simp] theorem writeDev_dirty (sh : Shared) (a : Nat) (bs : List Byte) : (writeDev sh a bs).dirty = sh.dirty := rfl

/-- One byte written by the device is seen in the device view at its own address, and nowhere else in either view. -/
theorem byteAt_writeDev_one (sh : Shared) (a : Nat) (b : Byte) (v : View) (x : Nat) :
    byteAt (writeDev sh a [b]) v x = if v = .dev ∧ x = a then b else byteAt sh v x := by
  simp only [byteAt_writeDev, List.length_singleton, mem_one_byte_iff]
  refine if_ctx_congr Iff.rfl (fun ⟨_, hx⟩ => ?_) fun _ => rfl
  simp [hx]

/-- All CAP_LAND can do where a byte is queued: land the oldest one, or fault where its page belongs to no ring. -/
theorem exec_capLand_at {s : State} {c : Chan} {e : InFlight} {rest : List InFlight} (ha : s.At c)
    (hq : c.inflight = e :: rest) :
    exec .capLand s =
      if pageOf e.addr.toNat ∈ s.shared.allocated then
        .next (s.put ⟨{ c with inflight := rest }, writeDev s.shared e.addr.toNat [e.byte]⟩)
      else .fault .dmaToFreedPage := by
  have henabled : capLandEnabled c = true := (capLandEnabled_iff c).mpr (by simp [hq])
  rw [show exec .capLand s = execCapLand s from rfl, execCapLand, agent_at ha henabled]
  simp only [landOldest, hq, landByte, List.contains_iff_mem]
  split <;> rfl

/-- Settles O52: the step's two answers are the two cases of the page, and the byte that lands is one device write
(`byteAt_writeDev_one`). -/
theorem capLandEffect : Obligations.CapLandEffect := by
  refine ⟨rfl, fun s c ha hempty => ?refused, fun s c e rest ha hq => ?lands⟩
  case refused => exact ⟨.notEnabled, agent_refused ha (fun he => (capLandEnabled_iff c).mp he hempty) landOldest⟩
  case lands =>
    rw [exec_capLand_at ha hq]
    exact ⟨fun hpage => ⟨writeDev s.shared e.addr.toNat [e.byte], if_pos hpage, writeDev_sameBooks _ _ _,
      writeDev_dirty _ _ _, byteAt_writeDev_one _ _ _⟩, fun hpage => if_neg hpage⟩

/-! ### RST_DONE (45 R242) -/

/-- Where `RST` is 1, RST_DONE leaves its channel as `resetDone` does and touches nothing shared. -/
theorem exec_rstDone_at {s : State} {c : Chan} (ha : s.At c) (hr : c.rst = true) :
    exec .rstDone s = .next (s.putChan (resetDone c)) := by
  rw [show exec .rstDone s = execRstDone s from rfl, execRstDone, agent_at ha (enabled := rstDoneEnabled) hr]
  rfl

/-- Settles O53: `RST` is the step's enabling condition, and the six fields are those of `resetDone`. -/
theorem rstDoneEffect : Obligations.RstDoneEffect := by
  refine ⟨rfl, fun s c ha hr => ⟨.notEnabled, ?_⟩, fun s c ha hr => exec_rstDone_at ha hr⟩
  exact agent_refused ha (enabled := rstDoneEnabled) (Bool.eq_false_iff.mp hr) _

end Sys2Proof.Machine
end

section
/-! SUPPORT. What a step can do, said once for every operation and every turn: `Acts` lists what an operation may change of its
channel and of the shared state, with the conditions under which it does, and `Stepped` lists what a turn may do with it. The
statements about every step are derived from the two. -/

namespace Sys2Proof.Machine

open Host (Outcome)

/-! ### Changes of the shared state that no ring notices -/

/-- The same pages are allocated, and a byte of an allocated page that both views agree on is the same afterwards: what a copy
between the views does, and what an INIT that fails does. -/
structure Shared.Quiet (sh sh' : Shared) : Prop where
  form : sh.Form → sh'.Form
  allocated : ∀ p, p ∈ sh'.allocated ↔ p ∈ sh.allocated
  settled : sh.Form → ∀ a b, pageOf a ∈ sh.allocated → (∀ v, byteAt sh v a = b) → ∀ v, byteAt sh' v a = b

theorem Shared.Quiet.refl (sh : Shared) : sh.Quiet sh := ⟨id, fun _ => Iff.rfl, fun _ _ _ _ h => h⟩

theorem Shared.Quiet.trans {sh₁ sh₂ sh₃ : Shared} (h : sh₁.Quiet sh₂) (h' : sh₂.Quiet sh₃) : sh₁.Quiet sh₃ where
  form hf := h'.form (h.form hf)
  allocated p := (h'.allocated p).trans (h.allocated p)
  settled hf a b ha hb := h'.settled (h.form hf) a b ((h.allocated _).mpr ha) (h.settled hf a b ha hb)

/-- A draw is no change of memory. -/
theorem draws_quiet (sh : Shared) (n : Nat) : sh.Quiet { sh with draws := n } where
  form hf := draws_form hf n
  allocated _ := Iff.rfl
  settled _ a _ _ hb v := (byteAt_congr (sh := sh) rfl rfl rfl v a).trans (hb v)

theorem publish_quiet {sh : Shared} {a n : Nat} (h : rangeAllocated sh a n = true) : sh.Quiet (publish sh a n) where
  form hf := publish_form hf (hf.range_bound h)
  allocated _ := Iff.rfl
  settled hf x b _ hb v := by rw [byteAt_publish hf.cpu]; split <;> exact hb _

theorem syncCpu_quiet {sh : Shared} {a n : Nat} (h : rangeAllocated sh a n = true) : sh.Quiet (syncCpu sh a n) where
  form hf := syncCpu_form hf (hf.range_bound h)
  allocated _ := Iff.rfl
  settled hf x b _ hb v := by rw [byteAt_syncCpu hf.dev]; split <;> exact hb _

theorem published_quiet {ps : List Addr} {sh : Shared}
    (h : ∀ p ∈ ps, rangeAllocated sh p.toNat Config.pageSize = true) : sh.Quiet (published ps sh) := by
  induction ps generalizing sh with
  | nil => exact .refl sh
  | cons p ps ih => exact (publish_quiet (h p (by simp))).trans (ih fun q hq => h q (by simp [hq]))

theorem synced_quiet {ps : List Addr} {sh : Shared}
    (h : ∀ p ∈ ps, rangeAllocated sh p.toNat Config.pageSize = true) : sh.Quiet (synced ps sh) := by
  induction ps generalizing sh with
  | nil => exact .refl sh
  | cons p ps ih => exact (syncCpu_quiet (h p (by simp))).trans (ih fun q hq => h q (by simp [hq]))

/-- One byte of an allocated page is a range that may be copied. -/
theorem rangeAllocated_one {sh : Shared} {a : Nat} (h : pageOf a ∈ sh.allocated) : rangeAllocated sh a 1 = true :=
  (rangeAllocated_iff _ _ _).mpr ⟨le_refl _, fun k hk => by rwa [Nat.lt_one_iff.mp hk]⟩

theorem refilled_quiet {sh : Shared} {a : Nat} (h : pageOf a ∈ sh.allocated) : sh.Quiet (refilled sh a) where
  form hf := refill_form hf (by rw [readBytes_length]; exact hf.range_bound (rangeAllocated_one h))
  allocated _ := Iff.rfl
  settled hf x b _ hb v := by rw [byteAt_refilled hf.dev]; split <;> exact hb _

/-! ### The read of `DMA_BUFFER_MODE` -/

/-- The write index `x` that a read finds (45 R223): the register's own, or, after an unpaired read of a running unit of an affected
revision, some value in `0 .. SLOT_COUNT_M1`. -/
structure Chan.ReadsIndex (cfg : HwConfig) (c : Chan) (x : SlotIx) : Prop where
  paired : ¬(cfg.erratumRewrite = true ∧ c.en = true ∧ c.trackDirty = true) → x = c.writeIndex
  spoiled : cfg.erratumRewrite = true ∧ c.en = true ∧ c.trackDirty = true → x.toNat ≤ c.slotCountM1.toNat

/-- The channel after a read that found the write index `x`. -/
def readChan (cfg : HwConfig) (x : SlotIx) (sp : List Nat) (c : Chan) : Chan :=
  { c with writeIndex := x, spoilIn := sp, trackDirty := c.trackDirty || (c.en && cfg.erratumRewrite) }

theorem readBufferMode_reads (cfg : HwConfig) (c : Chan) (sh : Shared) :
    ∃ x sp n, c.ReadsIndex cfg x ∧
      readBufferMode cfg ⟨c, sh⟩ =
        (bufferModeWord c.rst x c.slotCountM1, ⟨readChan cfg x sp c, { sh with draws := n }⟩) := by
  obtain ⟨x, sp, n, hpaired, hspoiled, hread⟩ := readBufferMode_cases cfg ⟨c, sh⟩
  exact ⟨x, sp, n, ⟨fun h => (hpaired h).1, hspoiled⟩, hread⟩

/-! ### The rings INIT makes -/

/-- What an INIT that ends with `Ok` has made: a ring of new pages, its tables in both views, and no other byte touched. -/
structure NewRing (r : Ring) (sh sh' : Shared) : Prop where
  shape : r.Shape
  distinct : ((ringPages r).map BitVec.toNat).Nodup
  fresh : ∀ p ∈ ringPages r, p.toNat ∉ sh.allocated
  allocated : ∀ p, p ∈ sh'.allocated ↔ p ∈ sh.allocated ∨ p ∈ (ringPages r).map BitVec.toNat
  form : sh.Form → sh'.Form
  tables : sh.Form → ∀ (i : Nat) (ps : List Addr) (t : Addr), r.pages[i]? = some ps → r.table[i]? = some t →
    ∀ v k, k < Config.pageSize → byteAt sh' v (t.toNat + k) = tableByte ps k
  kept : sh.Form → ∀ v a, (∀ q ∈ ringPages r, pageOf a ≠ q.toNat) → byteAt sh' v a = byteAt sh v a

/-! ### What an operation can do -/

/-- Where a HOST stands that reads the poll of RESET or of START: its place, the place of the next read, and the place after a
confirmed reset (41 R144). -/
inductive PollPlace : Instr → HostWork → HostWork → Option HostWork → Prop
  | reset (k : Nat) : PollPlace .reset (.reset k) (.reset (k + 1)) none
  | start (pitch lines k : Nat) : PollPlace (.start pitch lines) (.start pitch lines (.poll k))
      (.start pitch lines (.poll (k + 1))) (some (.start pitch lines .sizes))

/-- Where a HOST stands that makes the reset request, and where it stands afterwards (41 R143, 42 R170 step 2). -/
inductive RequestPlace : Instr → Option HostWork → HostWork → Prop
  | reset : RequestPlace .reset none (.reset 1)
  | start (pitch lines : Nat) :
      RequestPlace (.start pitch lines) (some (.start pitch lines .reset)) (.start pitch lines (.poll 1))

/-- All that operation `i` can do to its channel `c` and to the shared state `sh`: each way in which it ends in a channel `c'` and a
shared state `sh'`, with what is known where it does. What the call returns is left open. -/
inductive Acts (cfg : HwConfig) : Instr → Chan → Shared → Chan → Shared → Prop
  /-- It ends a call and does nothing else. -/
  | answers (i c sh res) : Acts cfg i c sh { c with result := res } sh
  /-- It copies between the views, or obtains pages and gives them back. -/
  | copies {i c sh sh'} (res) (hquiet : sh.Quiet sh') : Acts cfg i c sh { c with result := res } sh'
  /-- A BUILD of the caller's own. -/
  | builds {pages table c sh sh'} (res) (hform : sh.Form → sh'.Form) (halloc : sh'.allocated = sh.allocated) :
      Acts cfg (.build pages table) c sh { c with result := res } sh'
  | enables {v c sh} (res) (hen : c.en = false) (hlegal : enableRefusal c = none) :
      Acts cfg (.wrDmaEnable v) c sh { c with en := true, result := res } sh
  | disables {v c sh} (res) (hen : c.en = true) (hqueue : ∀ e ∈ c.inflight, pageOf e.addr.toNat ∈ sh.allocated) :
      Acts cfg (.wrDmaEnable v) c sh { c with inflight := [], en := false, needsReset := true, result := res }
        (landed c.inflight sh)
  | writesMode {v c sh} (res)
      (hrunning : c.en = true → rstField v = false ∧ slotCountField v = c.slotCountM1) :
      Acts cfg (.wrDmaBufferMode v) c sh
        { c with slotCountM1 := slotCountField v, rst := rstField v, trackDirty := false, result := res } sh
  /-- A raw write of a table or size register. -/
  | writesFrozen {i c sh} (low high block total res) (hraw : compositeOp i = false) (hen : c.en = false) :
      Acts cfg i c sh
        { c with tableLow := low, tableHigh := high, blockSize := block, totalSize := total, result := res } sh
  /-- A raw write of an interrupt register. -/
  | writesInterrupt {i c sh} (enable status res) :
      Acts cfg i c sh { c with intEnable := enable, intStatus := status, result := res } sh
  | readsMode {c sh x} (sp n res) (hread : c.ReadsIndex cfg x) :
      Acts cfg .rdDmaBufferMode c sh { readChan cfg x sp c with result := res } { sh with draws := n }
  | installs {c sh r} (res) (hring : c.ring = some r) (hstopped : r.table ≠ [] → c.en = false)
      (hpages : ∀ t ∈ r.table, rangeAllocated sh t.toNat Config.pageSize = true) :
      Acts cfg .installTables c sh { installedChan 0 r.table c with result := res } (published r.table sh)
  | initializes {n size c sh sh' r} (habsent : c.ringState = .absent) (hfree : c.host = none) (hen : c.en = false)
      (hnew : NewRing r sh sh') : Acts cfg (.init n size) c sh (initializedChan r c) sh'
  | tearsDown {c sh r} (res) (hfree : c.host = none) (hallowed : teardownAllowed c = true) (hring : c.ring = some r) :
      Acts cfg .teardown c sh { c with ring := none, ringState := .absent, result := res } (freePages sh (ringPages r))
  | requests {i c sh c₁ sh' w} (hplace : RequestPlace i c.host w) (hrequest : resetRequest ⟨c, sh⟩ = .next ⟨c₁, sh'⟩) :
      Acts cfg i c sh { c₁ with host := some w } sh'
  | confirms {i c sh x w again after} (sp n res) (hplace : PollPlace i w again after) (hhost : c.host = some w)
      (hread : c.ReadsIndex cfg x) :
      Acts cfg i c sh
        { clearWorking (readChan cfg x sp c) with ringState := .armed, host := after, result := res } { sh with draws := n }
  | pollsAgain {i c sh x w again after} (sp n) (hplace : PollPlace i w again after) (hhost : c.host = some w)
      (hread : c.ReadsIndex cfg x) :
      Acts cfg i c sh { readChan cfg x sp c with host := some again } { sh with draws := n }
  | timesOut {i c sh x w again after} (sp n res) (hplace : PollPlace i w again after) (hhost : c.host = some w)
      (hread : c.ReadsIndex cfg x) :
      Acts cfg i c sh { readChan cfg x sp c with ringState := .idle, host := none, result := res } { sh with draws := n }
  | validates {pitch lines c sh} (hfree : c.host = none) (hstate : idleOrArmed c = true) :
      Acts cfg (.start pitch lines) c sh { c with host := some (.start pitch lines .reset) } sh
  | writesSizes {pitch lines c sh r} (hhost : c.host = some (.start pitch lines .sizes)) (hring : c.ring = some r)
      (hen : c.en = false) :
      Acts cfg (.start pitch lines) c sh
        { c with blockSize := BitVec.ofNat 32 r.slotSize, totalSize := BitVec.ofNat 32 (r.nSlots * r.slotSize),
                 host := some (.start pitch lines .clock) } sh
  | startsClock {pitch lines c sh} (hhost : c.host = some (.start pitch lines .clock)) :
      Acts cfg (.start pitch lines) c sh
        { c with clockMode := .external, host := some (.start pitch lines .enable) } sh
  | startsUnit {pitch lines c sh} (hhost : c.host = some (.start pitch lines .enable))
      (hlegal : c.en = false → enableRefusal c = none) :
      Acts cfg (.start pitch lines) c sh { c with en := true, host := some (.start pitch lines .irq) } sh
  | streams {pitch lines c sh} (res) (hhost : c.host = some (.start pitch lines .irq)) :
      Acts cfg (.start pitch lines) c sh
        { c with intEnable := true, ringState := .streaming, host := none, result := res } sh
  | stops {c sh} (hfree : c.host = none) (hstate : c.ringState = .streaming) :
      Acts cfg .stop c sh { c with intEnable := false, host := some (.stop .join) } sh
  | joins {c sh} (hhost : c.host = some (.stop .join)) (hquiet : c.drainRunning = false) :
      Acts cfg .stop c sh { c with pending := 0, host := some (.stop .disable) } sh
  | finds {c sh} (hhost : c.host = some (.stop .disable)) (hen : c.en = false) :
      Acts cfg .stop c sh { c with host := some (.stop .clock) } sh
  | halts {c sh} (hhost : c.host = some (.stop .disable)) (hen : c.en = true)
      (hqueue : ∀ e ∈ c.inflight, pageOf e.addr.toNat ∈ sh.allocated) :
      Acts cfg .stop c sh { c with inflight := [], en := false, needsReset := true, host := some (.stop .clock) }
        (landed c.inflight sh)
  | closes {c sh} (res) (hhost : c.host = some (.stop .clock)) :
      Acts cfg .stop c sh { c with clockMode := .internal, ringState := .idle, host := none, result := res } sh
  | sinks {i c sh} (out rejected res) : Acts cfg i c sh { c with sinkOut := out, sinkRejected := rejected, result := res } sh
  | captures {c sh addr} (b waiting n) (henabled : capByteEnabled cfg.margin c = true)
      (haddr : translateOffset ⟨c, sh⟩ c.writeIndex.toFin c.fillPos = .next addr) :
      Acts cfg .capByte c sh
        (advanceCapture { c with portIn := waiting, inflight := c.inflight ++ [⟨c.writeIndex, addr, b⟩] })
        { sh with draws := n }
  | lands {c sh e rest} (hqueue : c.inflight = e :: rest) (hpage : pageOf e.addr.toNat ∈ sh.allocated) :
      Acts cfg .capLand c sh { c with inflight := rest } (writeDev sh e.addr.toNat [e.byte])
  | resets {c sh} (hrst : c.rst = true) : Acts cfg .rstDone c sh (resetDone c) sh
  | interrupts {c sh} (hring : c.ringState ≠ .absent) :
      Acts cfg .irq c sh { c with intStatus := false, pending := min 2 (c.pending + 1) } sh
  | rereads {c sh x} (sp n res) (hread : c.ReadsIndex cfg x) :
      Acts cfg .currentWriteIndex c sh
        { c with writeIndex := x, spoilIn := sp, rst := c.rst && !cfg.erratumRewrite,
                 trackDirty := c.trackDirty && !cfg.erratumRewrite, result := res } { sh with draws := n }
  | begins {c sh x r left} (sp n log) (hpending : 0 < c.pending) (hstate : c.ringState ≠ .absent) (hring : c.ring = some r)
      (hread : c.ReadsIndex cfg x) (hleft : 0 < r.nSlots → left < r.nSlots) :
      Acts cfg .drainBegin c sh
        { c with writeIndex := x, spoilIn := sp, rst := c.rst && !cfg.erratumRewrite,
                 trackDirty := c.trackDirty && !cfg.erratumRewrite, drainRunning := true, drainLeft := left, log := log }
        { sh with draws := n }
  | drains {c sh sh' r offset stage} (out rejected log) (hrunning : c.drainRunning = true) (hring : c.ring = some r)
      (hoffset : (∀ k, c.resyncOffset = some k → k ≤ offsetMax) → ∀ k, offset = some k → k ≤ offsetMax)
      (hstage : stage.length ≤ offsetMax) (hquiet : sh.Quiet sh') :
      Acts cfg .drainSlot c sh
        { c with sinkOut := out, sinkRejected := rejected, log := log, stage := stage, resyncOffset := offset,
                 readIndex := nextIndex c.readIndex r.nSlots, drainLeft := c.drainLeft - 1 } sh'
  | ends {c sh} (hrunning : c.drainRunning = true) (hleft : c.drainLeft = 0) :
      Acts cfg .drainEnd c sh { c with pending := c.pending - 1, drainRunning := false } sh

end Sys2Proof.Machine
end

section
/-! SUPPORT. Every operation is one of the changes of `Acts`: here the register accesses,
the copies, the tables, and INIT. -/

namespace Sys2Proof.Machine

open Host (Outcome)

section Changes

variable {cfg : HwConfig} {c : Chan} {sh : Shared} {l : Local}

/-! ### Register accesses -/

theorem wrDmaEnable_acts {v : Word} (h : writeEnable v ⟨c, sh⟩ = .next l) (res : Result) :
    Acts cfg (.wrDmaEnable v) c sh { l.chan with result := res } l.shared := by
  obtain ⟨-, rfl⟩ | ⟨-, hen, hlegal, rfl⟩ | ⟨-, hen, hqueue, rfl⟩ := writeEnable_cases h
  · exact .answers _ _ _ _
  · exact .enables res hen hlegal
  · exact .disables res hen hqueue

theorem wrDmaBufferMode_acts {v : Word} (h : writeBufferMode v ⟨c, sh⟩ = .next l) (res : Result) :
    Acts cfg (.wrDmaBufferMode v) c sh { l.chan with result := res } l.shared := by
  obtain ⟨hrunning, rfl⟩ := writeBufferMode_eq_next.mp h
  exact .writesMode res hrunning

theorem rdDmaBufferMode_acts (res : Result) :
    Acts cfg .rdDmaBufferMode c sh { (readBufferMode cfg ⟨c, sh⟩).2.chan with result := res }
      (readBufferMode cfg ⟨c, sh⟩).2.shared := by
  obtain ⟨x, sp, n, hread, heq⟩ := readBufferMode_reads cfg c sh
  rw [heq]
  exact .readsMode sp n res hread

/-! ### Tables and memory -/

theorem flush_acts {i : Instr} {a n : Nat} (h : flushRange a n ⟨c, sh⟩ = .next l) (res : Result) :
    Acts cfg i c sh { l.chan with result := res } l.shared := by
  obtain ⟨hrange, rfl⟩ := flushRange_eq_next.mp h
  exact .copies res (publish_quiet hrange)

theorem cpuSync_acts {i : Instr} {a n : Nat} (h : syncRange a n ⟨c, sh⟩ = .next l) (res : Result) :
    Acts cfg i c sh { l.chan with result := res } l.shared := by
  obtain ⟨hrange, rfl⟩ := syncRange_eq_next.mp h
  exact .copies res (syncCpu_quiet hrange)

theorem build_acts {pages : List Addr} {table : Addr} {r : Result} {sh' : Shared}
    (h : buildTable pages table sh = .next (r, sh')) (res : Result) :
    Acts cfg (.build pages table) c sh { c with result := res } sh' := by
  refine .builds res (fun hf => (buildTable_form hf h).1) ?_
  obtain ⟨-, ⟨-, -, rfl⟩ | ⟨-, -, rfl⟩⟩ := buildTable_eq_next.mp h
  · rfl
  · rfl

theorem installTables_acts (h : withRing c (fun r => installTables r ⟨c, sh⟩) = .next l) (res : Result) :
    Acts cfg .installTables c sh { l.chan with result := res } l.shared := by
  obtain ⟨r, hring, -, hinstall⟩ := withRing_eq_next.mp h
  obtain ⟨hstopped, -, hpages, rfl⟩ := installTables_eq_next.mp hinstall
  exact .installs res hring hstopped hpages

/-! ### INIT and TEARDOWN -/

/-- Pages that have been allocated and freed again leave no trace that a ring notices. -/
theorem freed_quiet {new : List Addr} {sh₁ sh₂ : Shared}
    (halloc : ∀ q, q ∈ sh₁.allocated ↔ q ∈ sh.allocated ∨ q ∈ new.map BitVec.toNat)
    (hfresh : ∀ p ∈ new, p.toNat ∉ sh.allocated) (hbooks : sh₂.allocated = sh₁.allocated) (hform : sh.Form → sh₂.Form)
    (hbytes : ∀ v a, (∀ q ∈ new, pageOf a ≠ q.toNat) → byteAt sh₂ v a = byteAt sh v a) :
    sh.Quiet (freePages sh₂ new) where
  form hf := freePages_form (hform hf) new
  allocated p := by
    rw [mem_freePages, hbooks, halloc]
    constructor
    · rintro ⟨h | h, hn⟩
      · exact h
      · exact absurd h hn
    · intro h
      refine ⟨.inl h, fun hm => ?_⟩
      obtain ⟨q, hq, rfl⟩ := List.mem_map.mp hm
      exact hfresh q hq h
  settled _ a b ha hb v := by
    obtain ⟨-, hcpu, hdev, hage, -, -⟩ := freePages_rest sh₂ new
    rw [byteAt_congr hcpu hdev hage, hbytes v a fun q hq he => hfresh q hq (he ▸ ha)]
    exact hb v

/-- The tables of the ring INIT makes, built and then published, stand in both views; no byte outside the pages got has changed. -/
theorem ringOf_newRing {n size : Nat} {got : List Addr} {sh₁ : Shared} (hn : 1 ≤ n ∧ n ≤ 8) (hs : 1 ≤ size)
    (hP : pagesFor size ≤ 512) (h : allocPages (initPages n size) [] sh = (true, got, sh₁)) :
    NewRing (ringOf n size got) sh (published (ringOf n size got).table
      (builtAll ((ringOf n size got).pages.zip (ringOf n size got).table) sh₁)) := by
  obtain ⟨new, hgot, hlen, -, hnd, hpg, hal, hform⟩ := allocPages_spec h
  rw [List.nil_append] at hgot
  subst hgot
  have hl := hlen rfl
  have hnodup : got.Nodup := List.Nodup.of_map _ hnd
  have hin : ∀ p ∈ got, p.toNat % 4096 = 0 ∧ p.toNat ∈ sh₁.allocated :=
    fun p hp => ⟨(hpg p hp).1, (hal _).mpr (.inr (List.mem_map_of_mem hp))⟩
  have hshape : (ringOf n size got).Shape := shape_ringOf hn hs hl (fun p hp => (hpg p hp).1) hP
  have hzip : ∀ x ∈ (ringOf n size got).pages.zip (ringOf n size got).table,
      x.1 ≠ [] ∧ x.1.length ≤ 512 ∧ x.2.toNat % 4096 = 0 := fun x hx => by
    obtain ⟨hallowed, hlength⟩ := ringOf_zip_allowed hl hs hnodup hin hx
    obtain ⟨hne, -, haligned, -, -⟩ := (buildAllowed_iff _ _ _).mp hallowed
    exact ⟨hne, by rw [hlength]; exact hP, haligned⟩
  obtain ⟨hbooks, -, hbuilt, hothers⟩ := builtAll_spec hzip
    (by rw [ringOf_zip_snd]; exact ringOf_table_nodup hnodup) sh₁
  have hzipped : ∀ x ∈ (ringOf n size got).pages.zip (ringOf n size got).table, x.2 ∈ got :=
    fun x hx => ringOf_table_mem _ (List.of_mem_zip hx).2
  generalize hb : builtAll ((ringOf n size got).pages.zip (ringOf n size got).table) sh₁ = sh₂ at hbooks hbuilt hothers ⊢
  have hrange : ∀ t ∈ (ringOf n size got).table, rangeAllocated sh₂ t.toNat Config.pageSize = true := fun t ht => by
    obtain ⟨haligned, halloc⟩ := hin t (ringOf_table_mem t ht)
    exact rangeAllocated_page haligned (hbooks.1 ▸ halloc)
  have hform₂ : sh.Form → sh₂.Form := fun hf => by
    have hall := buildAll_ok (ps := (ringOf n size got).pages.zip (ringOf n size got).table) (sh := sh₁) fun x hx =>
      ⟨(ringOf_zip_allowed hl hs hnodup hin hx).1, (hzip x hx).2.1⟩
    obtain ⟨hkeeps, -, -⟩ := buildAll_cases hall
    exact hb ▸ hkeeps (hform hf)
  have hpages : ringPages (ringOf n size got) = got := ringPages_ringOf hl
  have hpub := fun hf : sh.Form => published_spec (ps := (ringOf n size got).table)
    (fun t ht => (hform₂ hf).range_bound (hrange t ht)) (hform₂ hf)
  refine ⟨hshape, by rw [hpages]; exact hnd, fun p hp => (hpg p (hpages ▸ hp)).2, fun p => ?allocated,
    fun hf => published_form (hform₂ hf) hrange, fun hf i ps t hps ht v k hk => ?tables, fun hf v a ha => ?kept⟩
  case allocated => rw [published_allocated, hbooks.1, hal, hpages]
  case tables =>
    obtain ⟨-, -, hcpu, hinside, -⟩ := hpub hf
    have htable := List.mem_of_getElem? ht
    have hbyte := hbuilt (ps, t) (List.mem_of_getElem? (List.getElem?_zip_eq_some.mpr ⟨hps, ht⟩)) k hk
    cases v with
    | cpu => rw [hcpu]; exact hbyte
    | dev =>
      have hk' : k < 4096 := hk
      rw [hinside t htable _ (by omega) (by omega)]; exact hbyte
  case kept =>
    obtain ⟨-, -, hcpu, -, houtside⟩ := hpub hf
    have hnew : ∀ q ∈ got, pageOf a ≠ q.toNat := fun q hq => ha q (by rwa [hpages])
    have hsame : byteAt sh₂ v a = byteAt sh v a := by
      rw [hothers v a fun x hx => hnew _ (hzipped x hx)]
      exact allocPages_bytes (new := got) h v hnew
    cases v with
    | cpu => rw [hcpu]; exact hsame
    | dev =>
      rw [houtside a fun t ht hin' => hnew t (ringOf_table_mem t ht)
        ((pageOf_eq_iff (hpg t (ringOf_table_mem t ht)).1 a).mpr hin')]
      exact hsame

/-- INIT whose allocator fails: the pages it had obtained are freed (41 R141). -/
theorem initRing_short {n size : Nat} {got : List Addr} {sh₁ : Shared} (habsent : c.ringState = .absent) (hn : 1 ≤ n ∧ n ≤ 8)
    (hs : 1 ≤ size) (h : allocPages (initPages n size) [] sh = (false, got, sh₁)) :
    initRing n size ⟨c, sh⟩ = .next ⟨{ c with result := .error .allocationFailure }, freePages sh₁ got⟩ := by
  rw [initRing, if_pos ⟨habsent, hn.1, hn.2, hs⟩, h]
  rfl

/-- The first slot's pages and table are what INIT hands to BUILD first. -/
theorem ringOf_zip_cons {n : Nat} (size : Nat) {got : List Addr} (hn : 1 ≤ n) (h : got.length = initPages n size) :
    ∃ t rest, (ringOf n size got).pages.zip (ringOf n size got).table = (slotPages got (pagesFor size) 0, t) :: rest := by
  obtain ⟨hpages, htable⟩ := ringOf_slot size got hn
  have hlt : n * pagesFor size + 0 < got.length := by rw [h, initPages]; omega
  rw [List.getElem?_eq_getElem hlt] at htable
  have hzip : ((ringOf n size got).pages.zip (ringOf n size got).table)[0]? =
      some (slotPages got (pagesFor size) 0, got[n * pagesFor size + 0]) := List.getElem?_zip_eq_some.mpr ⟨hpages, htable⟩
  cases hl : (ringOf n size got).pages.zip (ringOf n size got).table with
  | nil => rw [hl] at hzip; cases hzip
  | cons x rest =>
    rw [hl] at hzip
    obtain rfl : x = (_, _) := Option.some.inj hzip
    exact ⟨_, rest, rfl⟩

/-- INIT of slots too large for a table: the first BUILD overflows, and every page is freed (41 R141). -/
theorem initRing_overflow {n size : Nat} {got : List Addr} {sh₁ : Shared} (habsent : c.ringState = .absent)
    (hn : 1 ≤ n ∧ n ≤ 8) (hs : 1 ≤ size) (hP : 512 < pagesFor size)
    (h : allocPages (initPages n size) [] sh = (true, got, sh₁)) :
    initRing n size ⟨c, sh⟩ = .next ⟨{ c with result := .error .tableOverflow }, freePages sh₁ got⟩ := by
  obtain ⟨new, hgot, hlen, -, hnd, hpg, hal, -⟩ := allocPages_spec h
  rw [List.nil_append] at hgot
  subst hgot
  obtain ⟨t, rest, hzip⟩ := ringOf_zip_cons size hn.1 (hlen rfl)
  have hin : ∀ p ∈ got, p.toNat % 4096 = 0 ∧ p.toNat ∈ sh₁.allocated :=
    fun p hp => ⟨(hpg p hp).1, (hal _).mpr (.inr (List.mem_map_of_mem hp))⟩
  obtain ⟨hallowed, -⟩ := ringOf_zip_allowed (hlen rfl) hs (List.Nodup.of_map _ hnd) hin
    (x := (slotPages got (pagesFor size) 0, t)) (by rw [hzip]; simp)
  rw [initRing, if_pos ⟨habsent, hn.1, hn.2, hs⟩, h]
  simp only [hzip]
  rw [buildAll_overflow hallowed (by rw [slotPages_length (hlen rfl) hn.1]; exact hP)]
  rfl

/-- INIT whose allocator gave every page, of slots that fit a table: every table is built, and installing them is left. -/
theorem initRing_installs {n size : Nat} {got : List Addr} {sh₁ : Shared} (habsent : c.ringState = .absent)
    (hn : 1 ≤ n ∧ n ≤ 8) (hs : 1 ≤ size) (hP : pagesFor size ≤ 512)
    (h : allocPages (initPages n size) [] sh = (true, got, sh₁)) :
    initRing n size ⟨c, sh⟩ = initInstall (ringOf n size got)
      ⟨c, builtAll ((ringOf n size got).pages.zip (ringOf n size got).table) sh₁⟩ := by
  obtain ⟨new, hgot, hlen, -, hnd, hpg, hal, -⟩ := allocPages_spec h
  rw [List.nil_append] at hgot
  subst hgot
  have hin : ∀ p ∈ got, p.toNat % 4096 = 0 ∧ p.toNat ∈ sh₁.allocated :=
    fun p hp => ⟨(hpg p hp).1, (hal _).mpr (.inr (List.mem_map_of_mem hp))⟩
  rw [initRing, if_pos ⟨habsent, hn.1, hn.2, hs⟩, h]
  simp only
  rw [buildAll_ok fun x hx => ?_]
  · rfl
  · obtain ⟨hallowed, hlength⟩ := ringOf_zip_allowed (hlen rfl) hs (List.Nodup.of_map _ hnd) hin hx
    exact ⟨hallowed, by rw [hlength]; exact hP⟩

/-- The three ways of INIT: a new ring, or a failure that leaves no page allocated. -/
theorem init_acts {n size : Nat} (hfree : c.host = none) (h : initRing n size ⟨c, sh⟩ = .next l) :
    Acts cfg (.init n size) c sh l.chan l.shared := by
  have hpre : c.ringState = .absent ∧ 1 ≤ n ∧ n ≤ Config.maxSlots ∧ 1 ≤ size := by
    by_contra hfails
    rw [initRing, if_neg hfails] at h
    cases h
  obtain ⟨habsent, hn1, hn8, hs⟩ := hpre
  rcases hgiven : allocPages (initPages n size) [] sh with ⟨ok, got, sh₁⟩
  obtain ⟨new, hgot, hlen, -, -, hpg, hal, hform⟩ := allocPages_spec hgiven
  rw [List.nil_append] at hgot
  subst hgot
  have hfailed : sh.Quiet (freePages sh₁ got) :=
    freed_quiet hal (fun p hp => (hpg p hp).2) rfl hform fun v _ ha => allocPages_bytes (new := got) hgiven v ha
  cases ok with
  | false =>
    rw [initRing_short habsent ⟨hn1, hn8⟩ hs hgiven] at h
    obtain rfl := Outcome.next.inj h
    exact .copies _ hfailed
  | true =>
    by_cases hP : pagesFor size ≤ 512
    · have hnew : NewRing (ringOf n size got) sh _ := ringOf_newRing ⟨hn1, hn8⟩ hs hP hgiven
      rw [initRing_installs habsent ⟨hn1, hn8⟩ hs hP hgiven] at h
      obtain ⟨hen, -, -, rfl⟩ := (initInstall_eq_next hnew.shape.table_ne_nil hnew.shape.slots.2).mp h
      exact .initializes habsent hfree hen hnew
    · rw [initRing_overflow habsent ⟨hn1, hn8⟩ hs (not_le.mp hP) hgiven] at h
      obtain rfl := Outcome.next.inj h
      exact .copies _ hfailed

end Changes

end Sys2Proof.Machine
end

section
/-! SUPPORT. The rest of the operations: TEARDOWN, RESET with its polls, START, STOP, the cursors, the drain and the capture unit; and
`exec_acts`, which says of every operation that its change is one of `Acts`. -/

namespace Sys2Proof.Machine

open Host (Outcome)

section Changes

variable {cfg : HwConfig} {c : Chan} {sh : Shared} {l : Local}

theorem teardown_acts (hfree : c.host = none) (h : teardownRing ⟨c, sh⟩ = .next l) :
    Acts cfg .teardown c sh l.chan l.shared := by
  unfold teardownRing at h
  split at h
  · rename_i hallowed
    obtain ⟨r, hring, -, hdone⟩ := withRing_eq_next.mp h
    obtain rfl := Outcome.next.inj hdone
    exact .tearsDown _ hfree hallowed hring
  · cases h

/-! ### RESET and the polls -/

/-- What a read of the poll can tell, and the channel it leaves. -/
theorem pollRead_cases (cfg : HwConfig) (k : Nat) (c : Chan) (sh : Shared) :
    ∃ answer x sp n, c.ReadsIndex cfg x ∧ pollRead cfg k ⟨c, sh⟩ = (answer, ⟨readChan cfg x sp c, { sh with draws := n }⟩) := by
  obtain ⟨x, sp, n, hread, heq⟩ := readBufferMode_reads cfg c sh
  exact ⟨_, x, sp, n, hread, by rw [pollRead, heq]⟩

theorem resetPoll_acts {k : Nat} (hhost : c.host = some (.reset k)) :
    Acts cfg .reset c sh (resetPoll cfg k ⟨c, sh⟩).chan (resetPoll cfg k ⟨c, sh⟩).shared := by
  obtain ⟨answer, x, sp, n, hread, heq⟩ := pollRead_cases cfg k c sh
  rw [resetPoll, heq]
  cases answer with
  | confirmed => exact .confirms sp n _ (.reset k) hhost hread
  | again => exact .pollsAgain sp n (.reset k) hhost hread
  | timedOut => exact .timesOut sp n _ (.reset k) hhost hread

theorem startPoll_acts {pitch lines k : Nat} (hhost : c.host = some (.start pitch lines (.poll k))) :
    Acts cfg (.start pitch lines) c sh (startPoll cfg pitch lines k ⟨c, sh⟩).chan
      (startPoll cfg pitch lines k ⟨c, sh⟩).shared := by
  obtain ⟨answer, x, sp, n, hread, heq⟩ := pollRead_cases cfg k c sh
  rw [startPoll, heq]
  cases answer with
  | confirmed => exact .confirms sp n c.result (.start pitch lines k) hhost hread
  | again => exact .pollsAgain sp n (.start pitch lines k) hhost hread
  | timedOut => exact .timesOut sp n _ (.start pitch lines k) hhost hread

theorem reset_acts (h : resetStep cfg ⟨c, sh⟩ = .next l) : Acts cfg .reset c sh l.chan l.shared := by
  unfold resetStep at h
  split at h
  · rename_i hhost
    obtain ⟨l₁, hrequest, hdone⟩ := andThen_eq_next.mp h
    obtain rfl := Outcome.next.inj hdone
    have hplace : RequestPlace .reset c.host (.reset 1) := by
      rw [show c.host = none from hhost]; exact .reset
    exact .requests hplace hrequest
  · rename_i k hhost
    obtain rfl := Outcome.next.inj h
    exact resetPoll_acts hhost
  · cases h

/-! ### START and STOP -/

theorem startValidate_acts {pitch lines : Nat} (hfree : c.host = none)
    (h : startValidate pitch lines ⟨c, sh⟩ = .next l) : Acts cfg (.start pitch lines) c sh l.chan l.shared := by
  unfold startValidate at h
  split at h
  · rename_i hstate
    obtain ⟨r, -, -, hvalid⟩ := withRing_eq_next.mp h
    split at hvalid
    · obtain rfl := Outcome.next.inj hvalid
      exact .validates hfree hstate
    · obtain rfl := Outcome.next.inj hvalid
      exact .answers _ _ _ _
  · cases h

theorem startSizes_acts {pitch lines : Nat} (hhost : c.host = some (.start pitch lines .sizes))
    (h : startSizes ⟨c, sh⟩ = .next l) :
    Acts cfg (.start pitch lines) c sh { l.chan with host := some (.start pitch lines .clock) } l.shared := by
  obtain ⟨r, hring, -, hsizes⟩ := withRing_eq_next.mp h
  obtain ⟨l₁, hblock, htotal⟩ := andThen_eq_next.mp hsizes
  obtain ⟨hen, rfl⟩ := whileStopped_eq_next.mp hblock
  obtain ⟨-, rfl⟩ := whileStopped_eq_next.mp htotal
  exact .writesSizes hhost hring hen

/-- What the enable step of START leaves. -/
theorem startEnable_acts {pitch lines : Nat} (hhost : c.host = some (.start pitch lines .enable))
    (h : writeEnable 1 ⟨c, sh⟩ = .next l) :
    Acts cfg (.start pitch lines) c sh { l.chan with host := some (.start pitch lines .irq) } l.shared := by
  have hone : bit0 1 = true := rfl
  obtain ⟨hsame, rfl⟩ | ⟨-, hen, hlegal, rfl⟩ | ⟨hoff, -⟩ := writeEnable_cases h
  · have hon : c.en = true := hsame.symm.trans hone
    have hkept : { c with host := some (.start pitch lines .irq) } =
        { c with en := true, host := some (.start pitch lines .irq) } := by rw [← hon]
    show Acts cfg _ c sh { c with host := _ } sh
    rw [hkept]
    exact .startsUnit hhost fun hoff => by rw [hon] at hoff; cases hoff
  · exact .startsUnit hhost fun _ => hlegal
  · rw [hone] at hoff; cases hoff

theorem startPhase_acts {pitch lines : Nat} {phase : StartPhase} (hhost : c.host = some (.start pitch lines phase))
    (h : startPhase cfg pitch lines phase ⟨c, sh⟩ = .next l) : Acts cfg (.start pitch lines) c sh l.chan l.shared := by
  cases phase with
  | reset =>
    obtain ⟨l₁, hrequest, hdone⟩ := andThen_eq_next.mp h
    obtain rfl := Outcome.next.inj hdone
    have hplace : RequestPlace (.start pitch lines) c.host (.start pitch lines (.poll 1)) := by
      rw [hhost]; exact .start pitch lines
    exact .requests hplace hrequest
  | poll k =>
    obtain rfl := Outcome.next.inj h
    exact startPoll_acts hhost
  | sizes =>
    obtain ⟨l₁, hsizes, hdone⟩ := andThen_eq_next.mp h
    obtain rfl := Outcome.next.inj hdone
    exact startSizes_acts hhost hsizes
  | clock =>
    obtain rfl := Outcome.next.inj h
    exact .startsClock hhost
  | enable =>
    obtain ⟨l₁, henable, hdone⟩ := andThen_eq_next.mp h
    obtain rfl := Outcome.next.inj hdone
    exact startEnable_acts hhost henable
  | irq =>
    obtain rfl := Outcome.next.inj h
    exact .streams _ hhost

theorem start_acts {pitch lines : Nat} (h : startStep cfg pitch lines ⟨c, sh⟩ = .next l) :
    Acts cfg (.start pitch lines) c sh l.chan l.shared := by
  unfold startStep at h
  split at h
  · rename_i hhost
    exact startValidate_acts hhost h
  · rename_i p n phase hhost
    split at h
    · rename_i hsame
      obtain ⟨rfl, rfl⟩ := hsame
      exact startPhase_acts hhost h
    · cases h
  · cases h

/-- What the disable step of STOP leaves. -/
theorem stopDisable_acts (hhost : c.host = some (.stop .disable)) (h : writeEnable 0 ⟨c, sh⟩ = .next l) :
    Acts cfg .stop c sh { l.chan with host := some (.stop .clock) } l.shared := by
  have hzero : bit0 0 = false := rfl
  obtain ⟨hsame, rfl⟩ | ⟨hon, -⟩ | ⟨-, hen, hqueue, rfl⟩ := writeEnable_cases h
  · exact .finds hhost (hsame.symm.trans hzero)
  · rw [hzero] at hon; cases hon
  · exact .halts hhost hen hqueue

theorem stopJoin_acts (hhost : c.host = some (.stop .join)) (h : stopPhase .join ⟨c, sh⟩ = .next l) :
    Acts cfg .stop c sh l.chan l.shared := by
  rw [stopPhase] at h
  split at h
  · cases h
  · rename_i hquiet
    obtain rfl := Outcome.next.inj h
    exact .joins hhost (Bool.eq_false_iff.mpr hquiet)

theorem stopPhase_clock (c : Chan) (sh : Shared) : stopPhase .clock ⟨c, sh⟩ =
    .next ⟨{ c with clockMode := .internal, ringState := .idle, host := none, result := .ok }, sh⟩ := by
  simp only [stopPhase, setClock, hostAt, finish, Local.withChan]

theorem stopPhase_acts {phase : StopPhase} (hhost : c.host = some (.stop phase)) (h : stopPhase phase ⟨c, sh⟩ = .next l) :
    Acts cfg .stop c sh l.chan l.shared := by
  cases phase with
  | join => exact stopJoin_acts hhost h
  | disable =>
    obtain ⟨l₁, hdisable, hdone⟩ := andThen_eq_next.mp h
    obtain rfl := Outcome.next.inj hdone
    exact stopDisable_acts hhost hdisable
  | clock =>
    rw [stopPhase_clock] at h
    obtain rfl := Outcome.next.inj h
    exact .closes .ok hhost

theorem stop_acts (h : stopStep ⟨c, sh⟩ = .next l) : Acts cfg .stop c sh l.chan l.shared := by
  unfold stopStep at h
  split at h
  · rename_i hhost
    split at h
    · rename_i hstate
      obtain rfl := Outcome.next.inj h
      exact .stops hhost hstate
    · obtain rfl := Outcome.next.inj h
      exact .answers _ _ _ _
  · rename_i phase hhost
    exact stopPhase_acts hhost h
  · cases h

/-! ### Cursors, slots and the drain -/

theorem currentWriteIndex_acts {w : Nat} (h : currentWriteIndex cfg ⟨c, sh⟩ = .next (w, l)) (res : Result) :
    Acts cfg .currentWriteIndex c sh { l.chan with result := res } l.shared := by
  obtain ⟨r, hring, hstate, -⟩ := withRing_eq_next.mp h
  obtain ⟨x, sp, n, hpaired, hspoiled, heq⟩ := currentWriteIndex_cases cfg (l := ⟨c, sh⟩) hring hstate
  rw [heq] at h
  obtain ⟨-, rfl⟩ := Prod.mk.inj (Outcome.next.inj h)
  exact .rereads sp n res ⟨fun hp => (hpaired hp).1, hspoiled⟩

theorem readSlot_acts {i : Instr} {k : Nat} {bs : List Byte} (h : readSlot k ⟨c, sh⟩ = .next (bs, l)) (res : Result) :
    Acts cfg i c sh { l.chan with result := res } l.shared := by
  obtain ⟨r, ps, -, -, -, -, hsync, rfl, -⟩ := readSlot_eq_next.mp h
  exact .copies res (synced_quiet hsync)

theorem sinkWrite_acts {i : Instr} (bytes : List Byte) (res : Result) :
    Acts cfg i c sh { sinkWrite bytes c with result := res } sh := by
  unfold sinkWrite
  split
  · exact .sinks _ _ _
  · exact .sinks _ _ _

theorem drainBegin_acts (henabled : drainBeginEnabled c = true) (h : drainBegin cfg ⟨c, sh⟩ = .next l) :
    Acts cfg .drainBegin c sh l.chan l.shared := by
  obtain ⟨hpending, -, hstate⟩ := (drainBeginEnabled_iff c).mp henabled
  obtain ⟨r, hring, -, -⟩ := withRing_eq_next.mp h
  obtain ⟨x, sp, n, hpaired, hspoiled, hread⟩ :=
    currentWriteIndex_cases cfg (l := ⟨{ c with drainRunning := true }, sh⟩) hring hstate
  rw [drainBegin_of_read (l := ⟨c, sh⟩) hring hstate hread] at h
  obtain rfl := Outcome.next.inj h
  refine .begins sp n _ hpending hstate hring ⟨fun hp => (hpaired hp).1, hspoiled⟩ fun hpos => ?_
  exact lt_of_le_of_lt (Nat.sub_le _ _) (Nat.mod_lt _ hpos)

theorem drainSlot_acts (henabled : drainSlotEnabled c = true) (h : drainSlot ⟨c, sh⟩ = .next l) :
    Acts cfg .drainSlot c sh l.chan l.shared := by
  obtain ⟨hrunning, -⟩ := (drainSlotEnabled_iff c).mp henabled
  obtain ⟨r, hring, -, hread⟩ := withRing_eq_next.mp h
  obtain ⟨⟨bs, l₁⟩, hslot, hdone⟩ := andThen_eq_next.mp hread
  obtain ⟨_, ps, -, -, -, -, hsync, rfl, -⟩ := readSlot_eq_next.mp hslot
  obtain rfl := Outcome.next.inj hdone
  obtain ⟨out, rejected, log, stage, offset, hoffset, hstage, heq⟩ := consumeSlot_frame r.nSlots bs c
  have hchan : Acts cfg .drainSlot c sh (consumeSlot r.nSlots bs c) (synced ps sh) := by
    rw [heq]
    exact .drains out rejected log hrunning hring hoffset hstage (synced_quiet hsync)
  exact hchan

/-! ### The capture unit -/

theorem capByte_acts (henabled : capByteEnabled cfg.margin c = true) (h : captureByte ⟨c, sh⟩ = .next l) :
    Acts cfg .capByte c sh l.chan l.shared := by
  obtain ⟨addr, haddr, hdone⟩ := andThen_eq_next.mp h
  obtain ⟨b, waiting, n, hdraw, -⟩ := drawPortByte_cases ⟨c, sh⟩
  rw [hdraw] at hdone
  obtain rfl := Outcome.next.inj hdone
  exact .captures b waiting n henabled haddr

theorem capLand_acts (h : landOldest ⟨c, sh⟩ = .next l) : Acts cfg .capLand c sh l.chan l.shared := by
  unfold landOldest at h
  split at h
  · cases h
  · rename_i e rest hqueue
    obtain ⟨sh', hland, hdone⟩ := andThen_eq_next.mp h
    obtain rfl := Outcome.next.inj hdone
    unfold landByte at hland
    split at hland
    · rename_i hpage
      obtain rfl := Outcome.next.inj hland
      exact .lands hqueue (by simpa using hpage)
    · cases hland

/-! ### Every operation -/

/-- An operation on its channel is one of the changes of `Acts` where its function of the place is. -/
theorem onChannel_acts {i : Instr} {s t : State} {f : Local → Out Local} (h : onChannel s f = .next t)
    (hf : ∀ c l, f ⟨c, s.shared⟩ = .next l → Acts s.cfg i c s.shared l.chan l.shared) :
    ∃ c c' sh', s.At c ∧ Acts s.cfg i c s.shared c' sh' ∧ t = s.put ⟨c', sh'⟩ := by
  obtain ⟨c, l, hat, hl, rfl⟩ := onChannel_eq_next.mp h
  exact ⟨c, l.chan, l.shared, hat, hf c l hl, rfl⟩

theorem hostCall_acts {i : Instr} {s t : State} {f : Local → Out Local} (h : onChannel s (hostCall f) = .next t)
    (hf : ∀ c l, c.host = none → f ⟨c, s.shared⟩ = .next l → Acts s.cfg i c s.shared l.chan l.shared) :
    ∃ c c' sh', s.At c ∧ Acts s.cfg i c s.shared c' sh' ∧ t = s.put ⟨c', sh'⟩ :=
  onChannel_acts h fun c l hl => by
    obtain ⟨hfree, hcall⟩ := hostCall_eq_next.mp hl
    exact hf c l hfree hcall

/-- A call that ends with `Ok` after `f`. -/
theorem finished_acts {α : Type} {i : Instr} {s t : State} {f : Local → Out α} {g : α → Result} {place : α → Local}
    (h : onChannel s (hostCall fun l => andThen (f l) fun a => .next (finish (g a) (place a))) = .next t)
    (hf : ∀ c a, f ⟨c, s.shared⟩ = .next a → ∀ res,
      Acts s.cfg i c s.shared { (place a).chan with result := res } (place a).shared) :
    ∃ c c' sh', s.At c ∧ Acts s.cfg i c s.shared c' sh' ∧ t = s.put ⟨c', sh'⟩ :=
  hostCall_acts h fun c l _ hl => by
    obtain ⟨a, ha, hdone⟩ := andThen_eq_next.mp hl
    obtain rfl := Outcome.next.inj hdone
    exact hf c a ha _

/-- A call that cannot be refused. -/
theorem plain_acts {i : Instr} {s t : State} {f : Local → Local} (h : onChannel s (hostCall fun l => .next (f l)) = .next t)
    (hf : ∀ c, Acts s.cfg i c s.shared (f ⟨c, s.shared⟩).chan (f ⟨c, s.shared⟩).shared) :
    ∃ c c' sh', s.At c ∧ Acts s.cfg i c s.shared c' sh' ∧ t = s.put ⟨c', sh'⟩ :=
  hostCall_acts h fun c l _ hl => by
    obtain rfl := Outcome.next.inj hl
    exact hf c

theorem agent_acts {i : Instr} {s t : State} {enabled : Chan → Bool} {f : Local → Out Local}
    (h : onChannel s (whenEnabled enabled f) = .next t)
    (hf : ∀ c l, enabled c = true → f ⟨c, s.shared⟩ = .next l → Acts s.cfg i c s.shared l.chan l.shared) :
    ∃ c c' sh', s.At c ∧ Acts s.cfg i c s.shared c' sh' ∧ t = s.put ⟨c', sh'⟩ :=
  onChannel_acts h fun c l hl => by
    obtain ⟨henabled, hstep⟩ := whenEnabled_eq_next.mp hl
    exact hf c l henabled hstep

/-- A raw write of a register that is frozen while the unit runs. -/
theorem frozen_acts {i : Instr} (hraw : compositeOp i = false) {low high block total}
    (h : whileStopped ⟨c, sh⟩ { c with tableLow := low, tableHigh := high, blockSize := block, totalSize := total } = .next l)
    (res : Result) : Acts cfg i c sh { l.chan with result := res } l.shared := by
  obtain ⟨hen, rfl⟩ := whileStopped_eq_next.mp h
  exact .writesFrozen low high block total res hraw hen

/-- Every operation that answers a next state has changed its channel and the shared state in one of the ways of `Acts`. -/
theorem exec_acts {i : Instr} {s t : State} (h : exec i s = .next t) :
    ∃ c c' sh', s.At c ∧ Acts s.cfg i c s.shared c' sh' ∧ t = s.put ⟨c', sh'⟩ := by
  cases i with
  | wrDmaEnable v => exact finished_acts h fun _ _ hl => wrDmaEnable_acts hl
  | wrDmaBufferMode v => exact finished_acts h fun _ _ hl => wrDmaBufferMode_acts hl
  | wrDmaPageTableAddrLow i v => exact finished_acts h fun _ _ hl => frozen_acts rfl hl
  | wrDmaPageTableAddrHigh i v => exact finished_acts h fun _ _ hl => frozen_acts rfl hl
  | wrDmaBlockSize v => exact finished_acts h fun _ _ hl => frozen_acts rfl hl
  | wrDmaTotalSize v => exact finished_acts h fun _ _ hl => frozen_acts rfl hl
  | wrIntEnable v => exact plain_acts h fun _ => .writesInterrupt _ _ _
  | wrIntStatus v => exact plain_acts h fun _ => .answers _ _ _ _
  | wrIntClear v => exact plain_acts h fun _ => by rw [writeIntClear_eq]; exact .writesInterrupt _ _ _
  | rdDmaEnable => exact plain_acts h fun _ => .answers _ _ _ _
  | rdDmaBufferMode => exact plain_acts h fun _ => rdDmaBufferMode_acts _
  | rdDmaPageTableAddrLow i => exact plain_acts h fun _ => .answers _ _ _ _
  | rdDmaPageTableAddrHigh i => exact plain_acts h fun _ => .answers _ _ _ _
  | rdDmaBlockSize => exact plain_acts h fun _ => .answers _ _ _ _
  | rdDmaTotalSize => exact plain_acts h fun _ => .answers _ _ _ _
  | rdIntEnable => exact plain_acts h fun _ => .answers _ _ _ _
  | rdIntStatus => exact plain_acts h fun _ => .answers _ _ _ _
  | rdIntClear => exact plain_acts h fun _ => .answers _ _ _ _
  | flush addr n => exact finished_acts h fun _ _ hl => flush_acts hl
  | cpuSync addr n => exact finished_acts h fun _ _ hl => cpuSync_acts hl
  | build pages table =>
    exact hostCall_acts h fun c l _ hl => by
      obtain ⟨⟨r, sh'⟩, hbuild, hdone⟩ := andThen_eq_next.mp hl
      simp only at hdone
      split at hdone
      · cases hdone
      · obtain rfl := Outcome.next.inj hdone
        exact build_acts hbuild _
  | installTables =>
    exact hostCall_acts h fun c l _ hl => by
      obtain ⟨r, hring, hstate, hinstall⟩ := withRing_eq_next.mp hl
      obtain ⟨l₁, hl₁, hdone⟩ := andThen_eq_next.mp hinstall
      obtain rfl := Outcome.next.inj hdone
      exact installTables_acts ((withRing_at hring hstate _).trans hl₁) _
  | init n size => exact hostCall_acts h fun _ _ hfree hl => init_acts hfree hl
  | teardown => exact hostCall_acts h fun _ _ hfree hl => teardown_acts hfree hl
  | reset => exact onChannel_acts h fun _ _ hl => reset_acts hl
  | currentWriteIndex => exact finished_acts h fun _ _ hl => currentWriteIndex_acts hl
  | readSlot k => exact finished_acts h fun _ _ hl => readSlot_acts hl
  | start pitch lines => exact onChannel_acts h fun _ _ hl => start_acts hl
  | stop => exact onChannel_acts h fun _ _ hl => stop_acts hl
  | scan slot known =>
    exact onChannel_acts (show execScan slot known s = .next t from h) fun c l hl => by
      obtain rfl := Outcome.next.inj hl
      exact .answers _ _ _ _
  | align slot off stage =>
    exact onChannel_acts (show execAlign slot off stage s = .next t from h) fun c l hl => by
      obtain rfl := Outcome.next.inj hl
      exact .answers _ _ _ _
  | sinkWrite bytes =>
    exact onChannel_acts (show execSinkWrite bytes s = .next t from h) fun c l hl => by
      obtain rfl := Outcome.next.inj hl
      exact sinkWrite_acts bytes _
  | capByte => exact agent_acts h fun _ _ he hl => capByte_acts he hl
  | capLand => exact agent_acts h fun _ _ _ hl => capLand_acts hl
  | rstDone =>
    exact agent_acts h fun _ _ he hl => by
      obtain rfl := Outcome.next.inj hl
      exact .resets he
  | irq =>
    exact agent_acts h fun c _ he hl => by
      obtain rfl := Outcome.next.inj hl
      exact .interrupts ((irqEnabled_iff c).mp he).2.2
  | drainBegin => exact agent_acts h fun _ _ he hl => drainBegin_acts he hl
  | drainSlot => exact agent_acts h fun _ _ he hl => drainSlot_acts he hl
  | drainEnd =>
    exact agent_acts h fun c _ he hl => by
      obtain rfl := Outcome.next.inj hl
      have hboth : c.drainRunning = true ∧ c.drainLeft = 0 := by simpa [drainEndEnabled] using he
      exact .ends hboth.1 hboth.2

end Changes

end Sys2Proof.Machine
end

section
/-! SUPPORT. What a turn can do: every step is one of the changes of `Stepped` (`step_stepped`), and a composite turn runs a composite
operation; and what the reset request leaves, whatever the ring. -/

namespace Sys2Proof.Machine

open Host (Outcome)

/-! ### The next turn -/

@[simp] theorem nextTurn_chans (s : State) : (nextTurn s).2.chans = s.chans := by
  unfold nextTurn; split <;> rfl

@[simp] theorem nextTurn_cfg (s : State) : (nextTurn s).2.cfg = s.cfg := by
  unfold nextTurn; split <;> rfl

/-- Taking a turn from the environment draws, and does nothing else to the shared state. -/
theorem nextTurn_shared (s : State) : ∃ n, (nextTurn s).2.shared = { s.shared with draws := n } := by
  unfold nextTurn
  split
  · exact ⟨s.shared.draws, rfl⟩
  · exact ⟨s.shared.draws + 1, rfl⟩

theorem nextTurn_quiet (s : State) : s.shared.Quiet (nextTurn s).2.shared := by
  obtain ⟨n, hn⟩ := nextTurn_shared s
  rw [hn]
  exact draws_quiet s.shared n

@[simp] theorem nextTurn_allocated (s : State) : (nextTurn s).2.shared.allocated = s.shared.allocated := by
  obtain ⟨n, hn⟩ := nextTurn_shared s
  rw [hn]

/-! ### What a turn can do -/

/-- All a turn can do: run an operation on a channel (`turnCall` says which), make a raw access of a channel's HOST that names no
register, or copy between the views. -/
inductive Stepped (s : State) : State → Prop
  | runs {k i c c' sh'} (hcall : turnCall s (nextTurn s).1 = some (k, i)) (hat : s.chans[k]? = some c)
      (hacts : Acts s.cfg i c (nextTurn s).2.shared c' sh') : Stepped s (((nextTurn s).2.select k).put ⟨c', sh'⟩)
  | accesses {k c sh'} (res) (hat : s.chans[k]? = some c) (hform : (nextTurn s).2.shared.Form → sh'.Form)
      (halloc : sh'.allocated = s.shared.allocated)
      (hquiet : compositeTurn (nextTurn s).1 = true → (nextTurn s).2.shared.Quiet sh') :
      Stepped s (((nextTurn s).2.select k).put ⟨{ c with result := res }, sh'⟩)
  | copies {sh'} (hquiet : (nextTurn s).2.shared.Quiet sh') : Stepped s ((nextTurn s).2.withShared sh')

/-- The turn runs operation `i` of channel `k`. -/
theorem stepped_of_exec {s t : State} {k : Nat} {i : Instr} (hcall : turnCall s (nextTurn s).1 = some (k, i))
    (h : exec i ((nextTurn s).2.select k) = .next t) : Stepped s t := by
  obtain ⟨c, c', sh', hat, hacts, rfl⟩ := exec_acts h
  rw [State.At, State.select_chans, nextTurn_chans] at hat
  rw [State.select_cfg, nextTurn_cfg] at hacts
  exact .runs hcall hat hacts

/-- The turn ends a call of the HOST of channel `k` that leaves the shared state as `f` says. -/
theorem stepped_of_access {s t : State} {k : Nat} {res : Local → Result} {f : Shared → Shared}
    (h : onChannel ((nextTurn s).2.select k) (hostCall fun l => .next (finish (res l) (l.withShared (f l.shared)))) = .next t)
    (hform : (nextTurn s).2.shared.Form → (f (nextTurn s).2.shared).Form)
    (halloc : ∀ sh, (f sh).allocated = sh.allocated)
    (hquiet : compositeTurn (nextTurn s).1 = true → (nextTurn s).2.shared.Quiet (f (nextTurn s).2.shared)) : Stepped s t := by
  obtain ⟨c, l, hat, hl, rfl⟩ := onChannel_eq_next.mp h
  obtain ⟨-, hdone⟩ := hostCall_eq_next.mp hl
  obtain rfl := Outcome.next.inj hdone
  rw [State.At, State.select_chans, nextTurn_chans] at hat
  exact .accesses _ hat hform ((halloc _).trans (nextTurn_allocated s)) hquiet

/-- A turn that leaves the shared state alone. -/
theorem stepped_of_answer {s t : State} {k : Nat} {res : Local → Result}
    (h : onChannel ((nextTurn s).2.select k) (hostCall fun l => .next (finish (res l) l)) = .next t) : Stepped s t :=
  stepped_of_access (f := id) h id (fun _ => rfl) fun _ => .refl _

/-- Every step is one of the changes of `Stepped`. -/
theorem step_stepped {s t : State} (h : step s = .next t) : Stepped s t := by
  unfold step takeTurn at h
  split at h
  case h_1 c bytes hturn =>
    unfold takeOp at h
    split at h
    · rename_i i rest hdecode
      exact stepped_of_exec (by simp [hturn, turnCall, hdecode]) h
    · cases h
  case h_2 c hturn =>
    unfold resumeHost at h
    simp only [State.select_chans, State.select_cur, nextTurn_chans] at h
    split at h
    · cases h
    · rename_i ch hat
      split at h
      · cases h
      · rename_i w hhost
        exact stepped_of_exec (by simp [hturn, turnCall, hat, hhost]) h
  case h_3 write address width data hturn =>
    unfold busAccess at h
    simp only [nextTurn_cfg] at h
    split at h
    · cases h
    · split at h
      · rename_i r hreg
        exact stepped_of_exec (by simp [hturn, turnCall, hreg]) h
      · exact stepped_of_answer h
  case h_4 c addr bytes hturn =>
    unfold cpuWrite at h
    split at h
    · cases h
    · rename_i hinside
      split at h
      · cases h
      · exact stepped_of_access (f := fun sh => writeCpu sh addr.toNat bytes) h
          (fun hf => writeCpu_form hf (not_lt.mp hinside)) (fun _ => rfl) fun hc => by
            rw [hturn] at hc; cases hc
  case h_5 c addr n hturn =>
    unfold cpuRead at h
    split at h
    · cases h
    · exact stepped_of_answer h
  case h_6 addr hturn =>
    unfold writeBackByte at h
    split at h
    · rename_i hallowed
      obtain rfl := Outcome.next.inj h
      simp only [Bool.and_eq_true, List.contains_iff_mem] at hallowed
      exact .copies (publish_quiet (rangeAllocated_one hallowed.1))
    · cases h
  case h_7 addr hturn =>
    unfold refillByte at h
    split at h
    · rename_i hallowed
      obtain rfl := Outcome.next.inj h
      simp only [Bool.and_eq_true, List.contains_iff_mem] at hallowed
      exact .copies (refilled_quiet hallowed.1)
    · cases h

/-- The operation that a composite turn runs is a composite operation. -/
theorem compositeOp_of_turnCall {s : State} {turn : Turn} {k : Nat} {i : Instr} (hc : compositeTurn turn = true)
    (hcall : turnCall s turn = some (k, i)) : compositeOp i = true := by
  cases turn with
  | op c bytes =>
    cases hdecode : decode bytes with
    | error e => simp [turnCall, hdecode] at hcall
    | ok parsed =>
      obtain ⟨j, rest⟩ := parsed
      simp only [turnCall, hdecode, Option.some.injEq, Prod.mk.injEq] at hcall
      simp only [compositeTurn, hdecode] at hc
      exact hcall.2 ▸ hc
  | resume c =>
    simp only [turnCall, Option.bind_eq_some_iff, Option.map_eq_some_iff, Prod.mk.injEq] at hcall
    obtain ⟨-, -, w, -, -, rfl⟩ := hcall
    cases w <;> rfl
  | bus write address width data =>
    simp only [compositeTurn, Bool.not_eq_true'] at hc
    simp only [turnCall, hc, Bool.false_eq_true, if_false, Option.map_eq_some_iff, Prod.mk.injEq] at hcall
    obtain ⟨r, -, -, rfl⟩ := hcall
    cases r <;> rfl
  | cpuWrite c addr bytes => cases hcall
  | cpuRead c addr n => cases hcall
  | writeBack addr => cases hcall
  | refill addr => cases hcall

/-! ### The reset request -/

/-- What the write of 0 to `DMA_ENABLE` leaves (45 R220): the unit stopped, and where it ran its queue landed and a reset due. -/
theorem writeEnable_zero_cases {c : Chan} {sh : Shared} {l : Local} (h : writeEnable 0 ⟨c, sh⟩ = .next l) :
    (c.en = true → ∀ e ∈ c.inflight, pageOf e.addr.toNat ∈ sh.allocated) ∧
      l = ⟨{ c with en := false, inflight := if c.en then [] else c.inflight, needsReset := c.en || c.needsReset },
        if c.en then landed c.inflight sh else sh⟩ := by
  obtain ⟨hoff, rfl⟩ | ⟨hon, -⟩ | ⟨-, hen, hqueue, rfl⟩ := writeEnable_cases h
  · have hen : c.en = false := hoff.symm
    refine ⟨fun hon => absurd (hen.symm.trans hon) Bool.false_ne_true, ?_⟩
    cases c
    cases hen
    rfl
  · cases hon
  · have hen : c.en = true := hen
    exact ⟨fun _ => hqueue, by simp [hen]⟩

/-- All the reset request leaves, whatever the ring: its channel stopped with the tables installed, its tables published. -/
theorem resetRequest_cases {c c₁ : Chan} {sh sh' : Shared} (h : resetRequest ⟨c, sh⟩ = .next ⟨c₁, sh'⟩) :
    ∃ r count rst, c.ring = some r ∧ (c.ringState = .idle ∨ c.ringState = .armed) ∧ c.drainRunning = false ∧
      (c.en = true → ∀ e ∈ c.inflight, pageOf e.addr.toNat ∈ sh.allocated) ∧
      (∀ t ∈ r.table, rangeAllocated sh t.toNat Config.pageSize = true) ∧
      (1 ≤ r.nSlots ∧ r.nSlots ≤ 8 → count = BitVec.ofNat 3 (r.nSlots - 1)) ∧
      c₁ = { installedChan 0 r.table c with
        en := false, inflight := if c.en then [] else c.inflight, needsReset := c.en || c.needsReset,
        slotCountM1 := count, rst := rst, trackDirty := false } ∧
      sh' = published r.table (if c.en then landed c.inflight sh else sh) := by
  unfold resetRequest at h
  split at h
  case isFalse => cases h
  case isTrue hpre =>
    simp only [Bool.and_eq_true, Bool.not_eq_true', idleOrArmed_iff] at hpre
    obtain ⟨hstate, hquiet⟩ := hpre
    obtain ⟨r, hring, -, hwrites⟩ := withRing_eq_next.mp h
    obtain ⟨l₁, henable, hwrites⟩ := andThen_eq_next.mp hwrites
    obtain ⟨l₂, hmode, hwrites⟩ := andThen_eq_next.mp hwrites
    obtain ⟨l₃, hinstall, hrequest⟩ := andThen_eq_next.mp hwrites
    obtain ⟨hqueue, rfl⟩ := writeEnable_zero_cases henable
    obtain ⟨-, rfl⟩ := writeBufferMode_eq_next.mp hmode
    obtain ⟨-, -, hpages, rfl⟩ := installTables_eq_next.mp hinstall
    obtain ⟨-, hlast⟩ := writeBufferMode_eq_next.mp hrequest
    obtain ⟨hchan, hshared⟩ := Local.mk.inj hlast
    refine ⟨r, slotCountField (0x40#32 ||| BitVec.ofNat 32 (r.nSlots - 1)),
      rstField (0x40#32 ||| BitVec.ofNat 32 (r.nSlots - 1)), hring, hstate, hquiet, hqueue, fun t ht => ?_,
      fun hn => (resetWord_fields (by omega)).1, hchan, hshared⟩
    have hrange := hpages t ht
    cases hen : c.en <;> simpa [rangeAllocated, hen] using hrange

end Sys2Proof.Machine
end

section
/-! SUPPORT. The invariant `State.Inv` (10_state.md R46) through every change of `Acts`: the form of the shared state and the
bounds of the working registers. -/

namespace Sys2Proof.Machine

open Host (Outcome)

section Changes

variable {cfg : HwConfig} {i : Instr} {c c' : Chan} {sh sh' : Shared}

/-! ### Form -/

/-- A queue's landing, where there is one, keeps the form. -/
theorem landedIf_form {q : List InFlight} {on : Bool} (h : sh.Form) : (if on then landed q sh else sh).Form := by
  cases on
  · exact h
  · exact landed_form h

theorem landedIf_allocated (q : List InFlight) (on : Bool) (sh : Shared) :
    (if on then landed q sh else sh).allocated = sh.allocated := by
  cases on
  · rfl
  · exact landed_allocated q sh

/-- The range test reads `allocated` alone. -/
theorem rangeAllocated_congr (h : sh'.allocated = sh.allocated) (a n : Nat) :
    rangeAllocated sh' a n = rangeAllocated sh a n := by
  rw [rangeAllocated, rangeAllocated, h]

theorem acts_form (h : Acts cfg i c sh c' sh') (hf : sh.Form) : sh'.Form := by
  cases h with
  | answers | enables | writesMode | writesFrozen | writesInterrupt | validates | writesSizes | startsClock | startsUnit
  | streams | stops | joins | finds | closes | sinks | resets | interrupts | ends => exact hf
  | readsMode | confirms | pollsAgain | timesOut | captures | rereads | begins => exact draws_form hf _
  | copies res hquiet => exact hquiet.form hf
  | drains out rejected log hrunning hring hoffset hstage hquiet => exact hquiet.form hf
  | builds res hform halloc => exact hform hf
  | disables | halts => exact landed_form hf
  | installs res hring hstopped hpages => exact published_form hf hpages
  | initializes habsent hfree hen hnew => exact hnew.form hf
  | tearsDown => exact freePages_form hf _
  | requests hplace hrequest =>
    obtain ⟨r, -, -, -, -, -, -, hpages, -, -, rfl⟩ := resetRequest_cases hrequest
    refine published_form (landedIf_form hf) fun t ht => ?_
    rw [rangeAllocated_congr (landedIf_allocated _ _ _)]
    exact hpages t ht
  | lands hqueue hpage => exact writeDev_form hf (hf.range_bound (rangeAllocated_one hpage))

/-! ### Bounds -/

theorem Chan.Bounds.requested (hb : c.Bounds) (hstate : c.ringState = .idle ∨ c.ringState = .armed) (w : HostWork)
    {low high q needs count rst dirty} :
    Chan.Bounds { c with
      tableLow := low, tableHigh := high, en := false, inflight := q, needsReset := needs, slotCountM1 := count, rst := rst,
      trackDirty := dirty, host := some w } :=
  { hb with hostHasRing := fun _ => ringState_ne_absent hstate }

/-- A HOST inside an operation has a ring. -/
theorem Chan.Bounds.ring_of_host (hb : c.Bounds) {w : HostWork} (h : c.host = some w) : c.ringState ≠ .absent :=
  hb.hostHasRing (by simp [h])

/-- The bounds do not read the registers and the capture unit's fields. -/
theorem Chan.Bounds.readChan (hb : c.Bounds) (x : SlotIx) (sp : List Nat) : (readChan cfg x sp c).Bounds := { hb with }

/-- The state of a ring that is there may change, as long as it is there. -/
theorem Chan.Bounds.withState (hb : c.Bounds) {state : RingState} {host : Option HostWork} {res : Result}
    (hring : c.ringState ≠ .absent) (hstate : state ≠ .absent) :
    Chan.Bounds { c with ringState := state, host := host, result := res } :=
  { hb with
    ringPresent := ⟨fun _ => hstate, fun _ => hb.ringPresent.mpr hring⟩
    quietAbsent := fun h => absurd h hstate
    hostHasRing := fun _ => hstate }

/-- Clearing the working registers keeps them in bounds. -/
theorem Chan.Bounds.clearWorking (hb : c.Bounds) : (clearWorking c).Bounds :=
  { hb with
    pendingCap := Nat.zero_le _
    stageShort := Nat.zero_le _
    offsetShort := nofun
    quietAbsent := fun h => ⟨rfl, (hb.quietAbsent h).2⟩
    ringFits := fun r hr => by
      obtain ⟨hshape, -, hleft⟩ := hb.ringFits r hr
      exact ⟨hshape, hshape.slots.1, hleft⟩ }

theorem acts_bounds (h : Acts cfg i c sh c' sh') (hb : c.Bounds) : c'.Bounds := by
  cases h with
  | answers | copies | builds | enables | disables | writesMode | writesFrozen | writesInterrupt | readsMode | installs
  | sinks | lands | resets | rereads => exact { hb with }
  | captures => unfold advanceCapture; split <;> exact { hb with }
  | initializes habsent hfree hen hnew =>
    obtain ⟨-, hidle⟩ := hb.quietAbsent habsent
    exact {
      ringPresent := by simp [initializedChan]
      pendingCap := Nat.zero_le _
      stageShort := Nat.zero_le _
      offsetShort := nofun
      quietDrain := hb.quietDrain
      quietAbsent := nofun
      hostHasRing := fun _ => nofun
      ringFits := fun r hr => by
        obtain rfl := Option.some.inj hr
        exact ⟨hnew.shape, hnew.shape.slots.1, (hb.quietDrain hidle).symm ▸ hnew.shape.slots.1⟩ }
  | tearsDown res hfree hallowed hring =>
    obtain ⟨-, hidle, hpending, -, -⟩ := (teardownAllowed_iff c).mp hallowed
    exact { hb with
      ringPresent := by simp
      quietAbsent := fun _ => ⟨hpending, hidle⟩
      hostHasRing := fun h => absurd hfree h
      ringFits := nofun }
  | requests hplace hrequest =>
    obtain ⟨r, count, rst, -, hstate, -, -, -, -, rfl, -⟩ := resetRequest_cases hrequest
    exact hb.requested hstate _
  | confirms sp n res hplace hhost hread =>
    exact (hb.readChan _ sp).clearWorking.withState (hb.ring_of_host hhost) nofun
  | pollsAgain sp n hplace hhost hread =>
    exact { hb with hostHasRing := fun _ => hb.ring_of_host hhost }
  | timesOut sp n res hplace hhost hread =>
    exact (hb.readChan _ sp).withState (hb.ring_of_host hhost) nofun
  | validates hfree hstate =>
    exact { hb with hostHasRing := fun _ => ringState_ne_absent ((idleOrArmed_iff c).mp hstate) }
  | writesSizes hhost | startsClock hhost | startsUnit hhost | finds hhost | halts hhost =>
    exact { hb with hostHasRing := fun _ => hb.ring_of_host hhost }
  | streams res hhost =>
    have hstreaming := hb.withState (hb.ring_of_host hhost) (state := .streaming) (host := none) (res := res) nofun
    exact { hstreaming with }
  | stops hfree hstate => exact { hb with hostHasRing := fun _ => by rw [hstate]; nofun }
  | joins hhost hquiet =>
    exact { hb with
      pendingCap := Nat.zero_le _
      quietAbsent := fun h => ⟨rfl, (hb.quietAbsent h).2⟩
      hostHasRing := fun _ => hb.ring_of_host hhost }
  | closes res hhost =>
    have hidle := hb.withState (hb.ring_of_host hhost) (state := .idle) (host := none) (res := res) nofun
    exact { hidle with }
  | interrupts hring =>
    exact { hb with
      pendingCap := Nat.min_le_left _ _
      quietAbsent := fun h => absurd h hring }
  | begins sp n log hpending hstate hring hread hleft =>
    exact { hb with
      quietDrain := nofun
      quietAbsent := fun h => absurd h hstate
      ringFits := fun r hr => by
        obtain rfl : _ = r := Option.some.inj (hring.symm.trans hr)
        obtain ⟨hshape, hread, -⟩ := hb.ringFits _ hring
        exact ⟨hshape, hread, hleft hshape.slots.1⟩ }
  | drains out rejected log hrunning hring hoffset hstage hquiet =>
    exact { hb with
      stageShort := hstage
      offsetShort := hoffset hb.offsetShort
      quietDrain := fun h => absurd (hrunning.symm.trans h) nofun
      ringFits := fun r hr => by
        obtain rfl : _ = r := Option.some.inj (hring.symm.trans hr)
        obtain ⟨hshape, -, hleft⟩ := hb.ringFits _ hring
        exact ⟨hshape, Nat.mod_lt _ hshape.slots.1, lt_of_le_of_lt (Nat.sub_le _ _) hleft⟩ }
  | ends hrunning hleft =>
    exact { hb with
      pendingCap := (Nat.sub_le _ _).trans hb.pendingCap
      quietDrain := fun _ => hleft
      quietAbsent := fun h => ⟨by rw [(hb.quietAbsent h).1], rfl⟩ }

end Changes

end Sys2Proof.Machine
end

section
/-! SUPPORT. The capture position and the ownership of pages through every change of `Acts`, and the statement that every step keeps
the invariant. -/

namespace Sys2Proof.Machine

open Host (Outcome)

section Changes

variable {cfg : HwConfig} {i : Instr} {c c' : Chan} {sh sh' : Shared}

/-! ### The capture position -/

/-- A stopped unit's position is its empty pipeline, and the start of slot 0 unless it needs a reset. -/
theorem Chan.Position.of_stopped (hen : c.en = false) (hempty : c.inflight = [])
    (hfresh : c.needsReset = false → c.fillPos = 0 ∧ c.writeIndex = 0) : c.Position where
  runningNeedsNoReset hon := absurd (hen.symm.trans hon) Bool.false_ne_true
  runningNoReset hon := absurd (hen.symm.trans hon) Bool.false_ne_true
  runningSize hon := absurd (hen.symm.trans hon) Bool.false_ne_true
  runningTotal hon := absurd (hen.symm.trans hon) Bool.false_ne_true
  runningFill hon := absurd (hen.symm.trans hon) Bool.false_ne_true
  runningIndex hon := absurd (hen.symm.trans hon) Bool.false_ne_true
  stoppedEmpty _ := hempty
  stoppedFresh _ := hfresh

/-- An enable that the rule admits starts at the start of slot 0 with legal sizes (45 R220). -/
theorem Chan.Position.enabled (hp : c.Position) (hen : c.en = false) (hlegal : enableRefusal c = none) :
    Chan.Position { c with en := true } := by
  obtain ⟨hreset, hrst, hpositive, hfits, htotal⟩ := enableRefusal_eq_none.mp hlegal
  obtain ⟨hfill, hindex⟩ := hp.stoppedFresh hen hreset
  exact {
    runningNeedsNoReset := fun _ => hreset
    runningNoReset := fun _ => hrst
    runningSize := fun _ => hfits
    runningTotal := fun _ => htotal
    runningFill := fun _ => by
      show c.fillPos < c.blockSize.toNat
      omega
    runningIndex := fun _ => by
      show c.writeIndex.toNat < modeSlots c
      rw [hindex]
      exact Nat.succ_pos _
    stoppedEmpty := nofun
    stoppedFresh := nofun }

theorem Chan.ReadsIndex.lt_modeSlots {x : SlotIx} (h : c.ReadsIndex cfg x) (hp : c.Position) (hen : c.en = true) :
    x.toNat < modeSlots c := by
  by_cases hunpaired : cfg.erratumRewrite = true ∧ c.en = true ∧ c.trackDirty = true
  · exact Nat.lt_succ_of_le (h.spoiled hunpaired)
  · rw [h.paired hunpaired]
    exact hp.runningIndex hen

/-- A read of a stopped unit finds the register's own index. -/
theorem Chan.ReadsIndex.of_stopped {x : SlotIx} (h : c.ReadsIndex cfg x) (hen : c.en = false) : x = c.writeIndex :=
  h.paired fun hunpaired => absurd (hen.symm.trans hunpaired.2.1) Bool.false_ne_true

/-- A read of `DMA_BUFFER_MODE` leaves a position, whatever becomes of `RST` and `track_dirty`. -/
theorem Chan.Position.withIndex (hp : c.Position) {x : SlotIx} (h : c.ReadsIndex cfg x) {rst : Bool}
    (hrst : c.rst = false → rst = false) {sp dirty} :
    Chan.Position { c with writeIndex := x, spoilIn := sp, rst := rst, trackDirty := dirty } :=
  { hp with
    runningNoReset := fun hon => hrst (hp.runningNoReset hon)
    runningIndex := fun hon => h.lt_modeSlots hp hon
    stoppedFresh := fun hoff hreset => by
      obtain ⟨hfill, hindex⟩ := hp.stoppedFresh hoff hreset
      exact ⟨hfill, (h.of_stopped hoff).trans hindex⟩ }

theorem Chan.Position.readChan (hp : c.Position) {x : SlotIx} (h : c.ReadsIndex cfg x) (sp : List Nat) :
    (readChan cfg x sp c).Position :=
  hp.withIndex h fun hoff => hoff

/-- The next index is below the number of slots and fits the register. -/
theorem advancedIndex_lt (c : Chan) : advancedIndex c < modeSlots c := Nat.mod_lt _ (Nat.succ_pos _)

theorem modeSlots_le (c : Chan) : modeSlots c ≤ 8 := by
  have := c.slotCountM1.isLt
  simp only [modeSlots]; omega

theorem advancedIndex_toNat (c : Chan) : (BitVec.ofNat 3 (advancedIndex c)).toNat = advancedIndex c := by
  have := advancedIndex_lt c
  have := modeSlots_le c
  rw [BitVec.toNat_ofNat, Nat.mod_eq_of_lt (by omega)]

/-- Taking a byte moves a running unit's position on inside its sizes (45 R240). -/
theorem Chan.Position.captured (hp : c.Position) (hen : c.en = true) {waiting q} :
    (advanceCapture { c with portIn := waiting, inflight := q }).Position := by
  have hstopped {P : Prop} : c.en = false → P := fun hoff => absurd (hoff.symm.trans hen) Bool.false_ne_true
  unfold advanceCapture
  split
  · exact { hp with
      runningFill := fun _ => (Nat.zero_le _).trans_lt (hp.runningFill hen)
      runningIndex := fun _ => (advancedIndex_toNat c).trans_lt (advancedIndex_lt c)
      stoppedEmpty := hstopped
      stoppedFresh := hstopped }
  · rename_i hinside
    have hfill : c.fillPos + 1 < c.blockSize.toNat := by simpa [lastOfSlot] using hinside
    exact { hp with
      runningFill := fun _ => hfill
      stoppedEmpty := hstopped
      stoppedFresh := hstopped }

/-- A disable leaves an empty pipeline: it lands a running unit's queue, and a stopped unit has none. -/
theorem Chan.Position.queue_after_disable (hp : c.Position) : (if c.en then [] else c.inflight) = [] := by
  cases hen : c.en with
  | true => rfl
  | false => exact hp.stoppedEmpty hen

theorem acts_position (h : Acts cfg i c sh c' sh') (hp : c.Position) : c'.Position := by
  cases h with
  | answers | copies | builds | writesInterrupt | installs | tearsDown | validates | startsClock | streams | stops | joins
  | finds | closes | sinks | interrupts | drains | ends => exact { hp with }
  | enables res hen hlegal =>
    have henabled := hp.enabled hen hlegal
    exact { henabled with }
  | startsUnit hhost hlegal =>
    cases hen : c.en with
    | false =>
      have henabled := hp.enabled hen (hlegal hen)
      exact { henabled with }
    | true =>
      rw [← hen]
      exact { hp with }
  | disables | halts => exact .of_stopped rfl rfl nofun
  | writesMode res hrunning =>
    exact { hp with
      runningNoReset := fun hon => (hrunning hon).1
      runningTotal := fun hon => by
        rw [modeSlots, (hrunning hon).2]
        exact hp.runningTotal hon
      runningIndex := fun hon => by
        rw [modeSlots, (hrunning hon).2]
        exact hp.runningIndex hon }
  | writesFrozen low high block total res hraw hen => exact .of_stopped hen (hp.stoppedEmpty hen) (hp.stoppedFresh hen)
  | writesSizes hhost hring hen => exact .of_stopped hen (hp.stoppedEmpty hen) (hp.stoppedFresh hen)
  | initializes habsent hfree hen hnew => exact .of_stopped hen (hp.stoppedEmpty hen) (hp.stoppedFresh hen)
  | readsMode sp n res hread =>
    have hpos := hp.readChan hread sp
    exact { hpos with }
  | confirms sp n res hplace hhost hread =>
    have hpos := hp.readChan hread sp
    exact { hpos with }
  | pollsAgain sp n hplace hhost hread =>
    have hpos := hp.readChan hread sp
    exact { hpos with }
  | timesOut sp n res hplace hhost hread =>
    have hpos := hp.readChan hread sp
    exact { hpos with }
  | requests hplace hrequest =>
    obtain ⟨r, count, rst, -, -, -, -, -, -, rfl, -⟩ := resetRequest_cases hrequest
    refine .of_stopped rfl hp.queue_after_disable fun hreset => ?_
    obtain ⟨hoff, hneeds⟩ := Bool.or_eq_false_iff.mp hreset
    exact hp.stoppedFresh hoff hneeds
  | captures b waiting n henabled haddr =>
    simp only [capByteEnabled, Bool.and_eq_true] at henabled
    exact hp.captured henabled.1.1
  | lands hqueue hpage =>
    exact { hp with
      stoppedEmpty := fun hoff => absurd ((hp.stoppedEmpty hoff).symm.trans hqueue) (List.cons_ne_nil _ _).symm }
  | resets hrst =>
    have hoff : c.en = false := Bool.eq_false_iff.mpr fun hon =>
      Bool.false_ne_true ((hp.runningNoReset hon).symm.trans hrst)
    exact .of_stopped hoff rfl fun _ => ⟨rfl, rfl⟩
  | rereads sp n res hread =>
    have hpos := hp.withIndex hread (rst := c.rst && !cfg.erratumRewrite) (fun h => by simp [h]) (sp := sp)
      (dirty := c.trackDirty && !cfg.erratumRewrite)
    exact { hpos with }
  | begins sp n log hpending hstate hring hread hleft =>
    have hpos := hp.withIndex hread (rst := c.rst && !cfg.erratumRewrite) (fun h => by simp [h]) (sp := sp)
      (dirty := c.trackDirty && !cfg.erratumRewrite)
    exact { hpos with }

/-! ### Ownership -/

/-- What an operation does to the pages of its channel's ring and to `allocated`: it lets go of pages the ring owned and takes pages
that no ring owned. -/
structure TradesPages (c : Chan) (sh : Shared) (c' : Chan) (sh' : Shared) : Prop where
  distinct : (chanPages c').Nodup
  fresh : ∀ p ∈ chanPages c', p ∈ sh.allocated → p ∈ chanPages c
  allocated : ∀ p, p ∈ sh'.allocated ↔ (p ∈ sh.allocated ∧ p ∉ chanPages c) ∨ p ∈ chanPages c'

/-- A channel that keeps its ring keeps its pages. -/
theorem TradesPages.of_same (hnodup : (chanPages c).Nodup) (howned : ∀ p ∈ chanPages c, p ∈ sh.allocated)
    (hring : c'.ring = c.ring) (halloc : ∀ p, p ∈ sh'.allocated ↔ p ∈ sh.allocated) : TradesPages c sh c' sh' := by
  have hpages : chanPages c' = chanPages c := by simp only [chanPages, hring]
  refine ⟨hpages ▸ hnodup, fun p hp _ => hpages ▸ hp, fun p => ?_⟩
  rw [halloc, hpages]
  have := howned p
  tauto

theorem acts_trades (h : Acts cfg i c sh c' sh') (hb : c.Bounds) (hnodup : (chanPages c).Nodup)
    (howned : ∀ p ∈ chanPages c, p ∈ sh.allocated) : TradesPages c sh c' sh' := by
  cases h with
  | answers | enables | writesMode | writesFrozen | writesInterrupt | validates | writesSizes | startsClock | startsUnit
  | streams | stops | joins | finds | closes | sinks | resets | interrupts | ends | readsMode | confirms | pollsAgain | timesOut
  | rereads | begins | lands => exact .of_same hnodup howned rfl fun _ => Iff.rfl
  | captures =>
    refine .of_same hnodup howned ?_ fun _ => Iff.rfl
    unfold advanceCapture
    split <;> rfl
  | copies res hquiet => exact .of_same hnodup howned rfl hquiet.allocated
  | drains out rejected log hrunning hring hoffset hstage hquiet => exact .of_same hnodup howned rfl hquiet.allocated
  | builds res hform halloc => exact .of_same hnodup howned rfl fun p => by rw [halloc]
  | disables | halts => exact .of_same hnodup howned rfl fun p => by rw [landed_allocated]
  | installs => exact .of_same hnodup howned rfl fun p => by rw [published_allocated]
  | requests hplace hrequest =>
    obtain ⟨r, count, rst, -, -, -, -, -, -, rfl, rfl⟩ := resetRequest_cases hrequest
    exact .of_same hnodup howned rfl fun p => by rw [published_allocated, landedIf_allocated]
  | @initializes n size c sh sh' r habsent hfree hen hnew =>
    have hnone : c.ring = none := by
      have := hb.ringPresent
      rw [habsent] at this
      simpa using this
    have hold : chanPages c = [] := by simp only [chanPages, hnone]
    have hpages : chanPages (initializedChan r c) = (ringPages r).map BitVec.toNat := rfl
    refine ⟨hpages ▸ hnew.distinct, fun p hp hin => ?_, fun p => ?_⟩
    · rw [hpages] at hp
      obtain ⟨q, hq, rfl⟩ := List.mem_map.mp hp
      exact absurd hin (hnew.fresh q hq)
    · rw [hnew.allocated, hold, hpages]
      simp
  | @tearsDown c sh r res hfree hallowed hring =>
    have hold : chanPages c = (ringPages r).map BitVec.toNat := by simp only [chanPages, hring]
    refine ⟨List.nodup_nil, fun p hp => absurd hp (List.not_mem_nil), fun p => ?_⟩
    rw [mem_freePages, hold]
    simp [chanPages]

/-- The channels before, at and after the selected one. -/
theorem State.At.split {s : State} (h : s.At c) :
    ∃ before after, s.chans = before ++ c :: after ∧ ∀ l : Local, (s.put l).chans = before ++ l.chan :: after := by
  obtain ⟨hlt, hget⟩ := List.getElem?_eq_some_iff.mp h
  refine ⟨s.chans.take s.cur, s.chans.drop (s.cur + 1), ?_, fun l => ?_⟩
  · rw [← hget, List.getElem_cons_drop, List.take_append_drop]
  · rw [State.put_chans, List.set_eq_take_append_cons_drop, if_pos hlt]

/-- The pages of one ring are distinct, allocated, and no other ring's. -/
theorem State.Ownership.of_mem {s : State} (h : s.Ownership) (hc : c ∈ s.chans) :
    (chanPages c).Nodup ∧ ∀ p ∈ chanPages c, p ∈ s.shared.allocated :=
  ⟨(List.nodup_flatMap.mp h.1).1 c hc, fun p hp => (h.2 p).mpr (List.mem_flatMap.mpr ⟨c, hc, hp⟩)⟩

/-- Ownership stays exact where one channel trades pages. -/
theorem State.Ownership.put {s : State} (h : s.Ownership) (ha : s.At c) (ht : TradesPages c s.shared c' sh') :
    (s.put ⟨c', sh'⟩).Ownership := by
  obtain ⟨before, after, hold, hnew⟩ := ha.split
  obtain ⟨hnodup, howned⟩ := h
  have hold' : s.owned = before.flatMap chanPages ++ (chanPages c ++ after.flatMap chanPages) := by
    rw [State.owned, hold, List.flatMap_append, List.flatMap_cons]
  have hnew' : (s.put ⟨c', sh'⟩).owned = before.flatMap chanPages ++ (chanPages c' ++ after.flatMap chanPages) := by
    rw [State.owned, hnew, List.flatMap_append, List.flatMap_cons]
  rw [hold'] at hnodup howned
  simp only [List.mem_append] at howned
  simp only [List.nodup_append, List.mem_append] at hnodup
  obtain ⟨hbefore, ⟨-, hafter, hcAfter⟩, hothers⟩ := hnodup
  have hforeign : ∀ p ∈ chanPages c', ∀ q, (q ∈ before.flatMap chanPages ∨ q ∈ after.flatMap chanPages) → p ≠ q := by
    rintro p hp q hq rfl
    have hown : p ∈ chanPages c := ht.fresh p hp ((howned p).mpr (by tauto))
    rcases hq with hq | hq
    · exact hothers p hq p (.inl hown) rfl
    · exact hcAfter p hown p hq rfl
  rw [State.Ownership, hnew']
  refine ⟨?_, fun p => ?_⟩
  · simp only [List.nodup_append, List.mem_append]
    exact ⟨hbefore, ⟨ht.distinct, hafter, fun p hp q hq => hforeign p hp q (.inr hq)⟩, fun p hp q hq => hq.elim
      (fun hq => (hforeign q hq p (.inl hp)).symm) fun hq => hothers p hp q (.inr hq)⟩
  · rw [State.put_shared, ht.allocated, howned]
    simp only [List.mem_append]
    have h₁ : p ∈ before.flatMap chanPages → p ∉ chanPages c := fun hp hc => hothers p hp p (.inl hc) rfl
    have h₂ : p ∈ after.flatMap chanPages → p ∉ chanPages c := fun hp hc => hcAfter p hc p hp rfl
    tauto

/-! ### The invariant -/

/-- What every channel has, every channel of the machine after an operation has. -/
theorem forall_put {P : Chan → Prop} {s : State} {l : Local} (h : ∀ x ∈ s.chans, P x) (hnew : P l.chan) :
    ∀ x ∈ (s.put l).chans, P x := fun x hx => by
  rcases List.mem_or_eq_of_mem_set hx with hx | rfl
  · exact h x hx
  · exact hnew

theorem acts_inv {s : State} (hinv : s.Inv) (ha : s.At c) (h : Acts cfg i c s.shared c' sh') : (s.put ⟨c', sh'⟩).Inv := by
  have hc := at_mem ha
  obtain ⟨hnodup, howned⟩ := hinv.ownership.of_mem hc
  exact {
    form := acts_form h hinv.form
    bounds := forall_put hinv.bounds (acts_bounds h (hinv.bounds c hc))
    position := forall_put hinv.position (acts_position h (hinv.position c hc))
    ownership := hinv.ownership.put ha (acts_trades h (hinv.bounds c hc) hnodup howned) }

/-- A change of the shared state that no ring notices keeps the invariant. -/
theorem State.Inv.withShared {s t : State} (hinv : s.Inv) (hchans : t.chans = s.chans) (hform : t.shared.Form)
    (halloc : ∀ p, p ∈ t.shared.allocated ↔ p ∈ s.shared.allocated) : t.Inv where
  form := hform
  bounds := hchans ▸ hinv.bounds
  position := hchans ▸ hinv.position
  ownership := by
    have howned : t.owned = s.owned := by rw [State.owned, State.owned, hchans]
    rw [State.Ownership, howned]
    exact ⟨hinv.ownership.1, fun p => (halloc p).trans (hinv.ownership.2 p)⟩

/-- Taking the next turn keeps the invariant. -/
theorem nextTurn_inv {s : State} (hinv : s.Inv) (k : Nat) : ((nextTurn s).2.select k).Inv :=
  hinv.withShared (nextTurn_chans s) ((nextTurn_quiet s).form hinv.form) (nextTurn_quiet s).allocated

/-- The channel of a turn's operation, in the state that the operation starts from. -/
theorem at_nextTurn {s : State} {k : Nat} (h : s.chans[k]? = some c) : ((nextTurn s).2.select k).At c := by
  rw [State.At, State.select_chans, nextTurn_chans]
  exact h

end Changes

/-- Settles O54: every turn is one of the changes of `Stepped`, and every operation's change keeps the form, the bounds, the position
and the ownership of pages. -/
theorem stepKeepsInvariant : Obligations.StepKeepsInvariant := by
  intro s t hinv hstep
  cases step_stepped hstep with
  | runs hcall hat hacts => exact acts_inv (nextTurn_inv hinv _) (at_nextTurn hat) hacts
  | @accesses k c sh' res hat hform halloc hquiet =>
    have hstart := nextTurn_inv hinv k
    have hanswered := acts_inv hstart (at_nextTurn hat) (.answers (cfg := s.cfg) .rdDmaEnable c _ res)
    exact hanswered.withShared rfl (hform hstart.form) fun p => by
      rw [State.put_shared, halloc]
      exact ((nextTurn_quiet s).allocated p).symm
  | copies hquiet =>
    have hstart := nextTurn_inv hinv 0
    exact hstart.withShared rfl (hquiet.form hstart.form) hquiet.allocated

end Sys2Proof.Machine
end

section
/-! SUPPORT. Proofs of the statements about every operation and every step that speak of one channel: what an operation leaves of the
others (60 R278), the discipline of hosts without raw accesses (10 R46), the drain's cursors (44 R208), and the distance of the
queue from the write index (20 R83). -/

namespace Sys2Proof.Machine

open Host (Outcome)

/-! ### Other channels (60 R278) -/

/-- Settles O56: an operation puts back its own channel and the shared state (`exec_onChannel`), and nothing else. -/
theorem channelsIndependent : Obligations.ChannelsIndependent := by
  intro i s t h
  obtain ⟨f, hf⟩ := exec_onChannel i s
  obtain ⟨c, l, -, -, rfl⟩ := onChannel_eq_next.mp (hf.symm.trans h)
  exact ⟨fun k hk => put_other s l hk, by simp, rfl, rfl, rfl⟩

/-! ### The discipline of composite operations (10 R46, 42 R175) -/

section Discipline

variable {cfg : HwConfig} {i : Instr} {c c' : Chan} {sh sh' : Shared}

/-- In Idle and in Armed the unit is stopped, but between START's steps 5 and 6. -/
theorem Chan.Disciplined.stopped (hd : c.Disciplined) (hstate : c.ringState = .idle ∨ c.ringState = .armed)
    (hhost : ∀ p n, c.host ≠ some (.start p n .irq)) : c.en = false := by
  refine Bool.eq_false_iff.mpr fun hon => ?_
  obtain ⟨-, hstreaming | ⟨-, p, n, hirq⟩⟩ := hd.running hon
  · rw [hstreaming] at hstate
    simp at hstate
  · exact hhost p n hirq

/-- Inside a poll the ring is Idle or Armed and the unit is stopped. -/
theorem Chan.Disciplined.polling (hd : c.Disciplined) {w again : HostWork} {after : Option HostWork}
    (hplace : PollPlace i w again after) (hhost : c.host = some w) :
    (c.ringState = .idle ∨ c.ringState = .armed) ∧ c.en = false := by
  cases hplace with
  | reset k =>
    have hstate := hd.resetPlace k hhost
    exact ⟨hstate, hd.stopped hstate fun p n h => by rw [hhost] at h; cases h⟩
  | start pitch lines k =>
    have hstate : c.ringState = .idle ∨ c.ringState = .armed := hd.startPlace _ _ _ hhost
    exact ⟨hstate, hd.stopped hstate fun p n h => by rw [hhost] at h; cases h⟩

/-- After the reset request the HOST stands before the first read of a poll. -/
theorem RequestPlace.polls {host : Option HostWork} {w : HostWork} (h : RequestPlace i host w) :
    w = .reset 1 ∨ ∃ p n, w = .start p n (.poll 1) := by
  cases h with
  | reset => exact .inl rfl
  | start p n => exact .inr ⟨p, n, rfl⟩

/-- A stopped unit with its HOST outside every operation is disciplined. -/
theorem Chan.Disciplined.of_stopped_free (hen : c.en = false) (hfree : c.host = none) : c.Disciplined where
  running hon := absurd (hen.symm.trans hon) Bool.false_ne_true
  resetPlace k h := by rw [hfree] at h; cases h
  startPlace p n ph h := by rw [hfree] at h; cases h
  stopPlace ph h := by rw [hfree] at h; cases h

/-- A stopped unit of an Idle or Armed ring is disciplined while its HOST waits for a reset. -/
theorem Chan.Disciplined.of_resetting (hen : c.en = false) (hstate : c.ringState = .idle ∨ c.ringState = .armed)
    (hhost : (∃ k, c.host = some (.reset k)) ∨ (∃ p n, c.host = some (.start p n .reset)) ∨
      ∃ p n k, c.host = some (.start p n (.poll k))) : c.Disciplined where
  running hon := absurd (hen.symm.trans hon) Bool.false_ne_true
  resetPlace _ _ := hstate
  startPlace p n ph h := by
    obtain ⟨k, hk⟩ | ⟨p', n', hk⟩ | ⟨p', n', k, hk⟩ := hhost <;> rw [hk] at h <;> cases h <;> exact hstate
  stopPlace ph h := by
    obtain ⟨k, hk⟩ | ⟨p', n', hk⟩ | ⟨p', n', k, hk⟩ := hhost <;> rw [hk] at h <;> cases h

theorem acts_disciplined (h : Acts cfg i c sh c' sh') (hc : compositeOp i = true) (hd : c.Disciplined) : c'.Disciplined := by
  cases h with
  | answers | copies | writesInterrupt | readsMode | installs | sinks | lands | resets | interrupts | rereads | begins | drains
  | ends => exact { hd with }
  | captures => unfold advanceCapture; split <;> exact { hd with }
  | builds | enables | disables | writesMode => cases hc
  | writesFrozen low high block total res hraw => rw [hc] at hraw; cases hraw
  | initializes habsent hfree hen hnew => exact .of_stopped_free hen hfree
  | tearsDown res hfree hallowed hring =>
    obtain ⟨-, -, -, hen, -⟩ := (teardownAllowed_iff c).mp hallowed
    exact .of_stopped_free hen hfree
  | requests hplace hrequest =>
    obtain ⟨r, count, rst, -, hstate, -, -, -, -, rfl, -⟩ := resetRequest_cases hrequest
    refine .of_resetting rfl hstate ?_
    obtain rfl | ⟨p, n, rfl⟩ := hplace.polls
    · exact .inl ⟨1, rfl⟩
    · exact .inr (.inr ⟨p, n, 1, rfl⟩)
  | confirms sp n res hplace hhost hread =>
    obtain ⟨-, hen⟩ := hd.polling hplace hhost
    cases hplace with
    | reset k => exact .of_stopped_free hen rfl
    | start pitch lines k =>
      exact {
        running := fun hon => absurd (hen.symm.trans hon) Bool.false_ne_true
        resetPlace := fun _ h => by cases h
        startPlace := fun p n ph h => by cases h; rfl
        stopPlace := fun _ h => by cases h }
  | pollsAgain sp n hplace hhost hread =>
    obtain ⟨hstate, hen⟩ := hd.polling hplace hhost
    refine .of_resetting hen hstate ?_
    cases hplace with
    | reset k => exact .inl ⟨k + 1, rfl⟩
    | start pitch lines k => exact .inr (.inr ⟨pitch, lines, k + 1, rfl⟩)
  | timesOut sp n res hplace hhost hread => exact .of_stopped_free (hd.polling hplace hhost).2 rfl
  | @validates pitch lines c sh hfree hstate =>
    have hidle := (idleOrArmed_iff c).mp hstate
    exact .of_resetting (hd.stopped hidle fun p n h => by rw [hfree] at h; cases h) hidle (.inr (.inl ⟨pitch, lines, rfl⟩))
  | writesSizes hhost hring hen =>
    exact {
      running := fun hon => absurd (hen.symm.trans hon) Bool.false_ne_true
      resetPlace := fun _ h => by cases h
      startPlace := fun p n ph h => by cases h; exact hd.startPlace _ _ _ hhost
      stopPlace := fun _ h => by cases h }
  | startsClock hhost =>
    have harmed : c.ringState = .armed := hd.startPlace _ _ _ hhost
    have hen := hd.stopped (.inr harmed) fun p n h => by rw [hhost] at h; cases h
    exact {
      running := fun hon => absurd (hen.symm.trans hon) Bool.false_ne_true
      resetPlace := fun _ h => by cases h
      startPlace := fun p n ph h => by cases h; exact ⟨harmed, rfl⟩
      stopPlace := fun _ h => by cases h }
  | @startsUnit pitch lines c sh hhost hlegal =>
    obtain ⟨harmed, hclock⟩ : c.ringState = .armed ∧ c.clockMode = .external := hd.startPlace _ _ _ hhost
    exact {
      running := fun _ => ⟨hclock, .inr ⟨harmed, pitch, lines, rfl⟩⟩
      resetPlace := fun _ h => by cases h
      startPlace := fun p n ph h => by cases h; exact ⟨harmed, hclock⟩
      stopPlace := fun _ h => by cases h }
  | streams res hhost =>
    obtain ⟨-, hclock⟩ : c.ringState = .armed ∧ c.clockMode = .external := hd.startPlace _ _ _ hhost
    exact { running := fun _ => ⟨hclock, .inl rfl⟩, resetPlace := nofun, startPlace := nofun, stopPlace := nofun }
  | stops hfree hstate =>
    exact {
      running := fun hon => ⟨(hd.running hon).1, .inl hstate⟩
      resetPlace := fun _ h => by cases h
      startPlace := fun _ _ _ h => by cases h
      stopPlace := fun ph h => by cases h; exact ⟨hstate, nofun⟩ }
  | joins hhost hquiet =>
    obtain ⟨hstate, -⟩ := hd.stopPlace _ hhost
    exact {
      running := fun hon => ⟨(hd.running hon).1, .inl hstate⟩
      resetPlace := fun _ h => by cases h
      startPlace := fun _ _ _ h => by cases h
      stopPlace := fun ph h => by cases h; exact ⟨hstate, nofun⟩ }
  | finds hhost hen =>
    obtain ⟨hstate, -⟩ := hd.stopPlace _ hhost
    exact {
      running := fun hon => absurd (hen.symm.trans hon) Bool.false_ne_true
      resetPlace := fun _ h => by cases h
      startPlace := fun _ _ _ h => by cases h
      stopPlace := fun ph h => by cases h; exact ⟨hstate, fun _ => hen⟩ }
  | halts hhost hen hqueue =>
    obtain ⟨hstate, -⟩ := hd.stopPlace _ hhost
    exact {
      running := nofun
      resetPlace := fun _ h => by cases h
      startPlace := fun _ _ _ h => by cases h
      stopPlace := fun ph h => by cases h; exact ⟨hstate, fun _ => rfl⟩ }
  | closes res hhost => exact .of_stopped_free ((hd.stopPlace _ hhost).2 rfl) rfl

end Discipline

/-- What every operation of a turn keeps of its own channel, and no result of a call touches, every step keeps of every channel. -/
theorem step_forall {P : Chan → Prop} {s t : State} (hstep : step s = .next t) (hs : ∀ x ∈ s.chans, P x)
    (hresult : ∀ x res, P x → P { x with result := res })
    (hacts : ∀ k i c c' sh', turnCall s (nextTurn s).1 = some (k, i) → s.chans[k]? = some c → P c →
      Acts s.cfg i c (nextTurn s).2.shared c' sh' → P c') : ∀ x ∈ t.chans, P x := by
  have hstart : ∀ k, ∀ x ∈ ((nextTurn s).2.select k).chans, P x := fun k x hx => by
    rw [State.select_chans, nextTurn_chans] at hx
    exact hs x hx
  cases step_stepped hstep with
  | @runs k i c c' sh' hcall hat h =>
    exact forall_put (hstart k) (hacts k i c c' sh' hcall hat (hs c (List.mem_of_getElem? hat)) h)
  | @accesses k c sh' res hat => exact forall_put (hstart k) (hresult c res (hs c (List.mem_of_getElem? hat)))
  | copies => exact hstart 0

/-- Settles O58: a composite turn runs a composite operation, whose every change keeps the discipline. -/
theorem compositeHostsDisciplined : Obligations.CompositeHostsDisciplined := by
  intro s t hturn hd hstep
  exact step_forall hstep hd (fun x res h => { h with }) fun k i c c' sh' hcall _ hc h =>
    acts_disciplined h (compositeOp_of_turnCall hturn hcall) hc

/-! ### The drain's cursors (44 R208) -/

section Cursors

variable {cfg : HwConfig} {i : Instr} {c c' : Chan} {sh sh' : Shared}

/-- Outside Absent, Idle and Armed only DRAIN_SLOT writes the cursors: INIT needs Absent, and the polls of RESET and START, which
clear them, stand in Idle or Armed. -/
theorem acts_cursors (h : Acts cfg i c sh c' sh') (hd : c.Disciplined) (hstate : c.ringState = .streaming) (hi : i ≠ .drainSlot) :
    c'.readIndex = c.readIndex ∧ c'.resyncOffset = c.resyncOffset ∧ c'.stage = c.stage := by
  cases h with
  | answers | copies | builds | enables | disables | writesMode | writesFrozen | writesInterrupt | readsMode | installs
  | tearsDown | pollsAgain | timesOut | validates | writesSizes | startsClock | startsUnit | streams | stops | joins | finds
  | halts | closes | sinks | lands | resets | interrupts | rereads | begins | ends => exact ⟨rfl, rfl, rfl⟩
  | captures => unfold advanceCapture; split <;> exact ⟨rfl, rfl, rfl⟩
  | initializes habsent => rw [hstate] at habsent; cases habsent
  | requests hplace hrequest =>
    obtain ⟨r, count, rst, -, -, -, -, -, -, rfl, -⟩ := resetRequest_cases hrequest
    exact ⟨rfl, rfl, rfl⟩
  | confirms sp n res hplace hhost hread =>
    obtain ⟨hidle, -⟩ := hd.polling hplace hhost
    rw [hstate] at hidle
    simp at hidle
  | drains => exact absurd rfl hi

end Cursors

/-- Settles O57: the operation's change is one of `Acts`. -/
theorem onlyDrainMovesCursors : Obligations.OnlyDrainMovesCursors := by
  intro i s t c c' ha ha' hd hstate hexec hi
  obtain ⟨c₀, c₁, sh', hat, h, rfl⟩ := exec_acts hexec
  obtain rfl : c₀ = c := Option.some.inj (hat.symm.trans ha)
  obtain rfl : c₁ = c' := Option.some.inj ((put_at hat ⟨c₁, sh'⟩).symm.trans ha')
  exact acts_cursors h hd hstate hi

/-! ### The queue's distance from the write index (20 R83) -/

section Queue

variable {cfg : HwConfig} {i : Instr} {c c' : Chan} {sh sh' : Shared}

theorem distance_self (a n : Nat) (hn : 0 < n) : distance a a n = 0 := by
  have := Nat.mod_lt a hn
  rw [distance, Nat.add_sub_cancel_left, Nat.mod_self]

theorem distance_next {a n : Nat} (hn : 0 < n) : distance (nextIndex a n) a n ≤ 1 := by
  have ha := Nat.mod_lt a hn
  rw [distance, nextIndex, Nat.mod_mod]
  by_cases hlast : a % n + 1 < n
  · have hnext : (a + 1) % n = a % n + 1 := by rw [Nat.add_mod, Nat.mod_eq_of_lt (a := 1) (by omega), Nat.mod_eq_of_lt hlast]
    rw [hnext, show a % n + 1 + n - a % n = 1 + n by omega, Nat.add_mod_right]
    exact Nat.mod_le _ _
  · have hnext : (a + 1) % n = 0 := by
      rw [Nat.add_mod]
      obtain rfl | hone := Nat.eq_or_lt_of_le hn
      · exact Nat.mod_one _
      · rw [Nat.mod_eq_of_lt (a := 1) hone, show a % n + 1 = n by omega, Nat.mod_self]
    rw [hnext, show 0 + n - a % n = 1 by omega]
    exact Nat.mod_le _ _

theorem margin_slots_pos (m : Margin) : 1 ≤ m.slots := by cases m <;> simp [Margin.slots]

/-- An empty queue is near. -/
theorem Chan.NearQueue.of_empty {margin : Margin} (h : c.inflight = []) : c.NearQueue margin := by
  intro e he
  rw [h] at he
  cases he

/-- A byte that joins the queue belongs to the slot the write index names; where the index moves on, the landing condition keeps the
others near, and the new byte lies one slot behind. -/
theorem Chan.NearQueue.captured {margin : Margin} (hn : c.NearQueue margin) (henabled : capByteEnabled margin c = true)
    {waiting addr b} :
    (advanceCapture { c with portIn := waiting, inflight := c.inflight ++ [⟨c.writeIndex, addr, b⟩] }).NearQueue margin := by
  have hpos : 0 < modeSlots c := Nat.succ_pos _
  have hone := margin_slots_pos margin
  simp only [capByteEnabled, Bool.and_eq_true, Bool.or_eq_true, Bool.not_eq_true'] at henabled
  obtain ⟨-, hadmits⟩ := henabled
  unfold advanceCapture
  split
  · rename_i hlast
    have hlanding : landingCondition margin c = true := hadmits.resolve_left fun h => Bool.false_ne_true (h.symm.trans hlast)
    simp only [landingCondition, List.all_eq_true, decide_eq_true_eq] at hlanding
    intro e he
    show distance (BitVec.ofNat 3 (advancedIndex c)).toNat e.slot.toNat (modeSlots c) ≤ margin.slots
    rw [advancedIndex_toNat]
    rcases List.mem_append.mp he with he | he
    · exact hlanding e he
    · obtain rfl := List.mem_singleton.mp he
      exact (distance_next hpos).trans hone
  · intro e he
    rcases List.mem_append.mp he with he | he
    · exact hn e he
    · obtain rfl := List.mem_singleton.mp he
      show distance c.writeIndex.toNat c.writeIndex.toNat (modeSlots c) ≤ margin.slots
      rw [distance_self _ _ hpos]
      exact Nat.zero_le _

/-- A read that breaks no pairing finds the register's own index. -/
theorem Chan.ReadsIndex.of_paired {x : SlotIx} (h : c.ReadsIndex cfg x)
    (hpaired : cfg.erratumRewrite = true → c.en = true → c.trackDirty = false) : x = c.writeIndex :=
  h.paired fun ⟨herratum, hon, hdirty⟩ => Bool.false_ne_true ((hpaired herratum hon).symm.trans hdirty)

theorem acts_near {margin : Margin} (hmargin : cfg.margin = margin) (h : Acts cfg i c sh c' sh') (hp : c.Position)
    (hpaired : readsBufferMode i = true → cfg.erratumRewrite = true → c.en = true → c.trackDirty = false)
    (hn : c.NearQueue margin) : c'.NearQueue margin := by
  cases h with
  | answers | copies | builds | enables | writesFrozen | writesInterrupt | installs | tearsDown | validates | writesSizes
  | startsClock | startsUnit | streams | stops | joins | finds | closes | sinks | interrupts | drains | ends => exact hn
  | disables | halts => exact .of_empty rfl
  | resets => exact .of_empty rfl
  | initializes habsent hfree hen hnew => exact .of_empty (hp.stoppedEmpty hen)
  | requests hplace hrequest =>
    obtain ⟨r, count, rst, -, -, -, -, -, -, rfl, -⟩ := resetRequest_cases hrequest
    exact .of_empty hp.queue_after_disable
  | writesMode res hrunning =>
    cases hen : c.en with
    | false => exact .of_empty (hp.stoppedEmpty hen)
    | true =>
      rw [(hrunning hen).2]
      exact hn
  | readsMode sp n res hread => rw [hread.of_paired (hpaired rfl)]; exact hn
  | rereads sp n res hread => rw [hread.of_paired (hpaired rfl)]; exact hn
  | begins sp n log hpending hstate hring hread hleft => rw [hread.of_paired (hpaired rfl)]; exact hn
  | confirms sp n res hplace hhost hread =>
    rw [hread.of_paired (hpaired (by cases hplace <;> rfl))]; exact hn
  | pollsAgain sp n hplace hhost hread =>
    rw [hread.of_paired (hpaired (by cases hplace <;> rfl))]; exact hn
  | timesOut sp n res hplace hhost hread =>
    rw [hread.of_paired (hpaired (by cases hplace <;> rfl))]; exact hn
  | captures b waiting n henabled haddr =>
    rw [hmargin] at henabled
    exact hn.captured henabled
  | lands hqueue hpage => exact fun e he => hn e (hqueue ▸ List.mem_cons_of_mem _ he)

/-- A composite operation other than the plain read of `DMA_BUFFER_MODE` leaves no read unpaired: the polls stand at a stopped unit,
and CURRENT_WRITE_INDEX writes the register again. -/
theorem acts_trackDirty (h : Acts cfg i c sh c' sh') (hc : compositeOp i = true) (hi : i ≠ .rdDmaBufferMode)
    (hd : c.Disciplined) (hclean : c.trackDirty = false) : c'.trackDirty = false := by
  cases h with
  | answers | copies | builds | enables | disables | writesFrozen | writesInterrupt | installs | tearsDown | validates
  | writesSizes | startsClock | startsUnit | streams | stops | joins | finds | halts | closes | sinks | interrupts | lands
  | drains | ends => exact hclean
  | writesMode | initializes | resets => rfl
  | readsMode => exact absurd rfl hi
  | captures => unfold advanceCapture; split <;> exact hclean
  | requests hplace hrequest =>
    obtain ⟨r, count, rst, -, -, -, -, -, -, rfl, -⟩ := resetRequest_cases hrequest
    rfl
  | confirms sp n res hplace hhost => simp [clearWorking, readChan, hclean, (hd.polling hplace hhost).2]
  | pollsAgain sp n hplace hhost => simp [readChan, hclean, (hd.polling hplace hhost).2]
  | timesOut sp n res hplace hhost => simp [readChan, hclean, (hd.polling hplace hhost).2]
  | rereads => simp [hclean]
  | begins => simp [hclean]

end Queue

/-- Settles O55: a byte joins the queue in the slot the write index names and the index moves on under the landing condition
(`acts_near`); hosts without raw accesses pair every read (`acts_trackDirty`). -/
theorem pipelineStaysNear : Obligations.PipelineStaysNear := by
  refine ⟨fun s t hinv hpaired hnear hstep => ?near, fun s t hd hclean hturn hread hstep => ?clean⟩
  case near =>
    have hcfg : t.cfg = s.cfg := by
      cases step_stepped hstep <;> simp [State.put, State.select, State.withShared]
    refine ⟨hcfg, hcfg ▸ ?_⟩
    have hboth := step_forall (P := fun x => x.Position ∧ x.NearQueue s.cfg.margin) hstep
      (fun x hx => ⟨hinv.position x hx, hnear x hx⟩) (fun x res h => ⟨{ h.1 with }, h.2⟩)
      fun k i c c' sh' hcall hat hc h => ⟨acts_position h hc.1, acts_near rfl h hc.1
        (fun hreads herratum hon => hpaired herratum k i c hcall hreads hat hon) hc.2⟩
    exact fun x hx => (hboth x hx).2
  case clean =>
    refine ⟨fun _ k i c _ _ hat _ => hclean c (List.mem_of_getElem? hat), ?_⟩
    have hboth := step_forall (P := fun x => x.Disciplined ∧ x.trackDirty = false) hstep
      (fun x hx => ⟨hd x hx, hclean x hx⟩) (fun x res h => ⟨{ h.1 with }, h.2⟩)
      fun k i c c' sh' hcall _ hc h => by
        have hcomposite := compositeOp_of_turnCall hturn hcall
        exact ⟨acts_disciplined h hcomposite hc.1,
          acts_trackDirty h hcomposite (fun hi => hread k (hi ▸ hcall)) hc.1 hc.2⟩
    exact fun x hx => (hboth x hx).2

end Sys2Proof.Machine
end

section
/-! SUPPORT. Proofs of the statements about landings (20 R83), translation (20 R80), and about every step of hosts without raw accesses:
the tables, the registers and the queue stay as the rings want them, and no byte lands outside the rings' pages. -/

namespace Sys2Proof.Machine

open Host (Outcome)

/-! ### Landings -/

theorem landed_sameBooks (q : List InFlight) (sh : Shared) : sh.SameBooks (landed q sh) := by
  induction q generalizing sh with
  | nil => exact ⟨rfl, rfl, rfl, rfl⟩
  | cons e q ih => exact ih (writeDev sh e.addr.toNat [e.byte])

/-- The youngest byte queued for an address is the one that stays there. -/
theorem byteAt_landed_dev (q : List InFlight) (sh : Shared) (a : Nat) :
    byteAt (landed q sh) .dev a =
      match q.reverse.find? (fun e => e.addr.toNat == a) with
      | some e => e.byte
      | none => byteAt sh .dev a := by
  induction q generalizing sh with
  | nil => rfl
  | cons e q ih =>
    have hcons : landed (e :: q) sh = landed q (writeDev sh e.addr.toNat [e.byte]) := rfl
    rw [hcons, ih, List.reverse_cons, List.find?_append]
    cases hyounger : q.reverse.find? (fun e => e.addr.toNat == a) with
    | some y => simp
    | none =>
      by_cases hhere : a = e.addr.toNat
      · simp [byteAt_writeDev_one, hhere]
      · simp [byteAt_writeDev_one, hhere, Ne.symm hhere]

theorem byteAt_landed_cpu (q : List InFlight) (sh : Shared) (a : Nat) : byteAt (landed q sh) .cpu a = byteAt sh .cpu a := by
  obtain ⟨-, hage, -, -⟩ := landed_sameBooks q sh
  rw [byteAt_def, byteAt_def, Shared.view_cpu, Shared.view_cpu, landed_memCpu, freshByteAt_congr hage]

/-- Settles O10: by induction over the queue, the youngest byte of an address is the last written there. -/
theorem landingsInOrder : Obligations.LandingsInOrder := by
  intro q sh
  exact ⟨landed_memCpu q sh, landed_dirty q sh, landed_sameBooks q sh, byteAt_landed_dev q sh⟩

/-- A byte for which nothing is queued stays in both views. -/
theorem byteAt_landed_other {q : List InFlight} (sh : Shared) {a : Nat} (ha : ∀ e ∈ q, e.addr.toNat ≠ a) (v : View) :
    byteAt (landed q sh) v a = byteAt sh v a := by
  cases v with
  | cpu => exact byteAt_landed_cpu q sh a
  | dev =>
    have hnone : q.reverse.find? (fun e => e.addr.toNat == a) = none := by simpa using ha
    rw [byteAt_landed_dev, hnone]

/-! ### Translation through a built table (20 R80) -/

/-- A device read of four bytes that are the bytes of a number, from byte `j` of it on. -/
theorem readDevWord_of_bytes {sh : Shared} (hd : Memory.wf sh.memDev) {a v : Nat}
    (h : ∀ k, k < 4 → byteAt sh .dev (a + k) = BitVec.ofNat 8 (v / 256 ^ k)) : readDevWord sh a = BitVec.ofNat 32 v := by
  have hbytes : readBytes sh .dev a 4 = leBytes 4 v := by
    refine List.ext_getElem? fun k => ?_
    by_cases hk : k < 4
    · rw [readBytes_getElem? (v := .dev) hd hk, leBytes_getElem? hk, h k hk]
    · rw [List.getElem?_eq_none (by simp; omega), List.getElem?_eq_none (by simp; omega)]
  rw [readDevWord, hbytes, leNat_leBytes]
  apply BitVec.eq_of_toNat_eq
  simp

/-- Byte `j` of entry `e` of a table is byte `j` of the entry's page. -/
theorem tableByte_entry (pages : List Addr) {e j : Nat} (hj : j < 8) :
    tableByte pages (8 * e + j) = BitVec.ofNat 8 ((pages.getD (min e (pages.length - 1)) 0).toNat / 256 ^ j) := by
  rw [tableByte, show (8 * e + j) / 8 = e by omega, show (8 * e + j) % 8 = j by omega]

/-- The page an entry of a built table names. -/
theorem translate_built {l : Local} {i : Fin 8} {pages : List Addr} {b : Nat} (hd : Memory.wf l.shared.memDev)
    (hne : pages ≠ []) (haligned : ∀ p ∈ pages, p.toNat % 4096 = 0)
    (htable : ∀ k, k < 4096 → byteAt l.shared .dev ((tableBase l.chan i).toNat + k) = tableByte pages k)
    (hb : b < 2097152) :
    ∃ p ∈ pages, p = pages.getD (min (b / 4096) (pages.length - 1)) 0 ∧
      translateOffset l i b = .next (p + BitVec.ofNat 64 (b % 4096)) := by
  have hentry : b / Config.pageSize < Config.entriesPerTable := by unfold Config.pageSize Config.entriesPerTable; omega
  have hpos := List.length_pos_iff.mpr hne
  have hlt : min (b / 4096) (pages.length - 1) < pages.length := by omega
  obtain ⟨p, hp⟩ : ∃ p, pages.getD (min (b / 4096) (pages.length - 1)) 0 = p := ⟨_, rfl⟩
  have hmem : p ∈ pages := by
    rw [← hp, List.getD_eq_getElem _ _ hlt]
    exact List.getElem_mem hlt
  refine ⟨p, hmem, hp.symm, ?_⟩
  have hbyte (j : Nat) (hj : j < 8) :
      byteAt l.shared .dev ((tableBase l.chan i).toNat + 8 * (b / 4096) + j) = BitVec.ofNat 8 (p.toNat / 256 ^ j) := by
    rw [Nat.add_assoc, htable _ (by omega), tableByte_entry pages hj, hp]
  have hlow : readDevWord l.shared ((tableBase l.chan i).toNat + 8 * (b / 4096)) = lowHalf p := by
    rw [readDevWord_of_bytes hd (v := p.toNat) fun k hk => hbyte k (by omega)]
    exact BitVec.eq_of_toNat_eq (by rw [BitVec.toNat_ofNat, lowHalf_toNat])
  have hhigh : readDevWord l.shared ((tableBase l.chan i).toNat + 8 * (b / 4096) + 4) = highHalf p := by
    rw [readDevWord_of_bytes hd (v := p.toNat / 256 ^ 4) fun k hk => ?_]
    · refine BitVec.eq_of_toNat_eq ?_
      rw [BitVec.toNat_ofNat, highHalf_toNat]
      have := p.isLt
      omega
    · rw [Nat.add_assoc, hbyte _ (by omega), Nat.div_div_eq_div_mul, ← pow_add]
  rw [translateOffset]
  simp only [if_pos hentry]
  rw [hlow, hhigh, pageAddress_halves (haligned p hmem)]

/-- A byte of an aligned page has the address the sum says. -/
theorem page_add_toNat {p : Addr} (haligned : p.toNat % 4096 = 0) (b : Nat) :
    (p + BitVec.ofNat 64 (b % 4096)).toNat = p.toNat + b % 4096 := by
  have := p.isLt
  rw [BitVec.toNat_add, BitVec.toNat_ofNat]
  omega

theorem translate_past_table (l : Local) (i : Fin 8) {b : Nat} (hb : 2097152 ≤ b) :
    translateOffset l i b = .refused .entryOutOfTable := by
  have hentry : ¬b / Config.pageSize < Config.entriesPerTable := by unfold Config.pageSize Config.entriesPerTable; omega
  rw [translateOffset]
  simp only [if_neg hentry]

/-- Settles O23: the two device reads give the halves of the entry's page (`translate_built`). -/
theorem translateBuiltTable : Obligations.TranslateBuiltTable := by
  intro l i pages b hd hne haligned htable
  refine ⟨fun hb => ?_, fun hb => ⟨_, translate_past_table l i hb⟩⟩
  obtain ⟨p, hmem, hp, htranslate⟩ := translate_built hd hne haligned htable hb
  exact ⟨_, htranslate, by rw [page_add_toNat (haligned p hmem), hp]⟩

end Sys2Proof.Machine
end

section
/-! SUPPORT. Proofs of the statements about every step of hosts without raw accesses (70 R316, 60 R281): the tables of every ring, the
registers that name them and the queue stay as the ring wants them, and no byte lands outside the rings' pages. -/

namespace Sys2Proof.Machine

open Host (Outcome)

section Tables

variable {cfg : HwConfig} {i : Instr} {c c' x : Chan} {sh sh' : Shared} {r : Ring}

/-! ### Bytes that no operation changes -/

/-- A byte of an allocated page that both views agree on, and that no byte of the queue is on its way to, stays through every composite
operation. -/
theorem acts_settled (h : Acts cfg i c sh c' sh') (hc : compositeOp i = true) (hf : sh.Form) {a : Nat} {b : Byte}
    (hpage : pageOf a ∈ sh.allocated) (hqueue : ∀ e ∈ c.inflight, e.addr.toNat ≠ a) (hb : ∀ v, byteAt sh v a = b) :
    ∀ v, byteAt sh' v a = b := by
  cases h with
  | answers | enables | writesMode | writesFrozen | writesInterrupt | validates | writesSizes | startsClock | startsUnit
  | streams | stops | joins | finds | closes | sinks | resets | interrupts | ends => exact hb
  | readsMode | confirms | pollsAgain | timesOut | captures | rereads | begins =>
    exact (draws_quiet sh _).settled hf a b hpage hb
  | copies res hquiet => exact hquiet.settled hf a b hpage hb
  | drains out rejected log hrunning hring hoffset hstage hquiet => exact hquiet.settled hf a b hpage hb
  | builds => cases hc
  | disables | halts => exact fun v => (byteAt_landed_other sh hqueue v).trans (hb v)
  | installs res hring hstopped hpages => exact (published_quiet hpages).settled hf a b hpage hb
  | initializes habsent hfree hen hnew => exact fun v => (hnew.kept hf v a fun q hq he => hnew.fresh q hq (he ▸ hpage)).trans (hb v)
  | @tearsDown c sh r =>
    obtain ⟨-, hcpu, hdev, hage, -, -⟩ := freePages_rest sh (ringPages r)
    exact fun v => (byteAt_congr hcpu hdev hage v a).trans (hb v)
  | requests hplace hrequest =>
    obtain ⟨r, -, -, -, -, -, -, hpages, -, -, rfl⟩ := resetRequest_cases hrequest
    refine (published_quiet fun t ht => ?_).settled (landedIf_form hf) a b ?_ fun v => ?_
    · rw [rangeAllocated_congr (landedIf_allocated _ _ _)]
      exact hpages t ht
    · rw [landedIf_allocated]
      exact hpage
    · split
      · exact (byteAt_landed_other sh hqueue v).trans (hb v)
      · exact hb v
  | @lands c sh e rest hq hpage' =>
    intro v
    have hother : a ≠ e.addr.toNat := (hqueue e (by simp [hq])).symm
    rw [byteAt_writeDev_one, if_neg fun h => hother h.2]
    exact hb v

/-! ### The pages of a ring -/

theorem chanPages_eq (hring : c.ring = some r) : chanPages c = (ringPages r).map BitVec.toNat := by
  simp only [chanPages, hring]

theorem mem_chanPages_of_data (hring : c.ring = some r) {p : Addr} (hp : p ∈ r.pages.flatten) : p.toNat ∈ chanPages c := by
  rw [chanPages_eq hring]
  exact List.mem_map_of_mem (List.mem_append_left _ hp)

theorem mem_chanPages_of_table (hring : c.ring = some r) {t : Addr} (ht : t ∈ r.table) : t.toNat ∈ chanPages c := by
  rw [chanPages_eq hring]
  exact List.mem_map_of_mem (List.mem_append_right _ (List.mem_append_left _ ht))

theorem Ring.Shape.table_aligned (h : r.Shape) {t : Addr} (ht : t ∈ r.table) : t.toNat % 4096 = 0 := by
  have hmem : t ∈ ringPages r := List.mem_append_right _ (List.mem_append_left _ ht)
  simpa [pageAligned, Config.pageSize] using h.aligned t hmem

/-- In a ring whose pages are distinct no data page is a table page. -/
theorem data_ne_table (hring : c.ring = some r) (hnodup : (chanPages c).Nodup) {p t : Addr} (hp : p ∈ r.pages.flatten)
    (ht : t ∈ r.table) : p.toNat ≠ t.toNat := by
  rw [chanPages_eq hring, ringPages, List.map_append, List.nodup_append] at hnodup
  obtain ⟨-, -, hapart⟩ := hnodup
  exact hapart _ (List.mem_map_of_mem hp) _ (List.mem_map_of_mem (List.mem_append_left _ ht))

/-! ### What a channel's tables need of memory -/

/-- A channel whose table bytes stay has its tables as before, whatever else becomes of the shared state. -/
theorem Chan.Installed.of_settled (h : x.Installed sh)
    (hkeeps : ∀ r, x.ring = some r → ∀ t ∈ r.table, ∀ k, k < Config.pageSize → ∀ b,
      (∀ v, byteAt sh v (t.toNat + k) = b) → ∀ v, byteAt sh' v (t.toNat + k) = b) : x.Installed sh' :=
  { h with
    tables := fun r hr i ps t hps ht => by
      obtain ⟨hbase, hbytes⟩ := h.tables r hr i ps t hps ht
      exact ⟨hbase, fun v k hk => hkeeps r hr t (List.mem_of_getElem? ht) k hk _ (fun v => hbytes v k hk) v⟩ }

/-- A channel's tables stay through a composite operation of any channel whose queue is on its way to other pages. -/
theorem Chan.Installed.through (hx : x.Installed sh) (hbx : x.Bounds) (howned : ∀ p ∈ chanPages x, p ∈ sh.allocated)
    (h : Acts cfg i c sh c' sh') (hc : compositeOp i = true) (hf : sh.Form)
    (hqueue : ∀ e ∈ c.inflight, ∀ r, x.ring = some r → ∀ t ∈ r.table, pageOf e.addr.toNat ≠ t.toNat) : x.Installed sh' := by
  refine hx.of_settled fun r hr t ht k hk b hb => ?_
  have hpage : pageOf (t.toNat + k) = t.toNat := pageOf_within ((hbx.ringFits r hr).1.table_aligned ht) hk
  refine acts_settled h hc hf ?_ (fun e he heq => ?_) hb
  · rw [hpage]
    exact howned _ (mem_chanPages_of_table hr ht)
  · exact hqueue e he r hr t ht (by rw [heq, hpage])

/-! ### What an operation does to its own channel's tables -/

/-- A stopped channel whose HOST has not yet written the sizes needs of them only its registers and its slot count. -/
theorem Chan.Installed.of_stopped
    (htables : ∀ r, c.ring = some r → ∀ (i : Fin 8) (ps : List Addr) (t : Addr),
      r.pages[i.val]? = some ps → r.table[i.val]? = some t →
        tableBase c i = t ∧ ∀ v k, k < Config.pageSize → byteAt sh v (t.toNat + k) = tableByte ps k)
    (hcount : ∀ r, c.ring = some r → modeSlots c = r.nSlots) (hen : c.en = false) (hempty : c.inflight = [])
    (hhost : ∀ p n, c.host ≠ some (.start p n .clock) ∧ c.host ≠ some (.start p n .enable) ∧
      c.host ≠ some (.start p n .irq)) : c.Installed sh where
  tables := htables
  slotCount := hcount
  size r _ h := by
    rcases h with hon | ⟨p, n, h | h | h⟩
    · exact absurd (hen.symm.trans hon) Bool.false_ne_true
    · exact absurd h (hhost p n).1
    · exact absurd h (hhost p n).2.1
    · exact absurd h (hhost p n).2.2
  queue e he := by rw [hempty] at he; cases he

/-- Once the block size is the slot size it does not matter where the HOST stands. -/
theorem Chan.Installed.sized (h : c.Installed sh) (hsize : ∀ r, c.ring = some r → c.blockSize.toNat = r.slotSize)
    {en host clock state int res} :
    Chan.Installed sh { c with
      en := en, host := host, clockMode := clock, ringState := state, intEnable := int, result := res } :=
  { h with size := fun r hr _ => hsize r hr }

/-- The HOST moves to a place where the sizes are not yet due. -/
theorem Chan.Installed.moved (h : c.Installed sh) {host : Option HostWork}
    (hhost : ∀ p n, host ≠ some (.start p n .clock) ∧ host ≠ some (.start p n .enable) ∧ host ≠ some (.start p n .irq)) :
    Chan.Installed sh { c with host := host } :=
  { h with
    size := fun r hr hdue => h.size r hr <| .inl <| by
      rcases hdue with hon | ⟨p, n, hat | hat | hat⟩
      · exact hon
      · exact absurd hat (hhost p n).1
      · exact absurd hat (hhost p n).2.1
      · exact absurd hat (hhost p n).2.2 }

/-- Installing a ring's tables once more leaves the registers naming them (40 R135). -/
theorem Chan.Installed.reinstalled (h : c.Installed sh) (hring : c.ring = some r) (hshape : r.Shape) (k : Fin 8)
    (ps : List Addr) (t : Addr) (hps : r.pages[k.val]? = some ps) (ht : r.table[k.val]? = some t) :
    tableBase (installedChan 0 r.table c) k = t ∧
      ∀ v j, j < Config.pageSize → byteAt sh v (t.toNat + j) = tableByte ps j :=
  ⟨tableBase_installed ht (hshape.table_aligned (List.mem_of_getElem? ht)), (h.tables r hring k ps t hps ht).2⟩

/-- The slot count INIT and RESET write is the ring's (30 R104). -/
theorem modeSlots_ofNat {n : Nat} (hn : 1 ≤ n ∧ n ≤ 8) (hcount : c.slotCountM1 = BitVec.ofNat 3 (n - 1)) : modeSlots c = n := by
  rw [modeSlots, hcount, BitVec.toNat_ofNat]
  omega

/-- A captured byte is on its way to a data page of the slot that the write index names. -/
theorem captured_page (hk : c.Installed sh) (hb : c.Bounds) (hp : c.Position) (hd : c.Disciplined) (hf : sh.Form)
    (hen : c.en = true) {addr : Addr} (haddr : translateOffset ⟨c, sh⟩ c.writeIndex.toFin c.fillPos = .next addr) :
    ∃ r, c.ring = some r ∧ ∃ p ∈ r.pages.flatten, pageOf addr.toNat = p.toNat := by
  have hexists : c.ringState ≠ .absent := by
    obtain ⟨-, h | ⟨h, -⟩⟩ := hd.running hen <;> simp [h]
  obtain ⟨r, hring⟩ := Option.isSome_iff_exists.mp (hb.ringPresent.mpr hexists)
  obtain ⟨hshape, -, -⟩ := hb.ringFits r hring
  have hindex : c.writeIndex.toNat < r.nSlots := hk.slotCount r hring ▸ hp.runningIndex hen
  obtain ⟨ps, hps⟩ : ∃ ps, r.pages[c.writeIndex.toNat]? = some ps :=
    ⟨_, List.getElem?_eq_getElem (hshape.pagesCount.symm ▸ hindex)⟩
  obtain ⟨t, ht⟩ : ∃ t, r.table[c.writeIndex.toNat]? = some t :=
    ⟨_, List.getElem?_eq_getElem (hshape.tableCount.symm ▸ hindex)⟩
  have hslot := List.mem_of_getElem? hps
  have hne : ps ≠ [] := by
    refine List.length_pos_iff.mp ?_
    have := hshape.size.1
    rw [hshape.pagesEach ps hslot, hshape.perSlot, pagesFor_eq]
    omega
  obtain ⟨hbase, hbytes⟩ := hk.tables r hring c.writeIndex.toFin ps t hps ht
  have hoffset : c.fillPos < 2097152 := (hp.runningFill hen).trans_le (hp.runningSize hen)
  obtain ⟨p, hmem, -, htranslate⟩ := translate_built (l := ⟨c, sh⟩) (i := c.writeIndex.toFin) hf.dev hne
    (hshape.slot_aligned hslot) (fun k hk => hbase.symm ▸ hbytes .dev k hk) hoffset
  obtain rfl := Outcome.next.inj (htranslate.symm.trans haddr)
  refine ⟨r, hring, p, List.mem_flatten.mpr ⟨ps, hslot, hmem⟩, ?_⟩
  rw [page_add_toNat (hshape.slot_aligned hslot p hmem)]
  exact pageOf_within (hshape.slot_aligned hslot p hmem) (Nat.mod_lt _ (by omega))

theorem acts_installed (h : Acts cfg i c sh c' sh') (hc : compositeOp i = true) (hf : sh.Form) (hb : c.Bounds)
    (hp : c.Position) (hd : c.Disciplined) (hk : c.Installed sh) (hk' : c.Installed sh') : c'.Installed sh' := by
  cases h with
  | answers | copies | writesInterrupt | readsMode | sinks | interrupts | rereads | begins | drains | ends => exact { hk' with }
  | builds | enables | disables | writesMode => cases hc
  | writesFrozen low high block total res hraw => rw [hc] at hraw; cases hraw
  | installs res hring hstopped hpages =>
    exact { hk' with
      tables := fun r hr => by
        obtain rfl : _ = r := Option.some.inj (hring.symm.trans hr)
        exact hk'.reinstalled hring (hb.ringFits _ hring).1 }
  | initializes habsent hfree hen hnew =>
    refine .of_stopped (fun r hr k ps t hps ht => ?_) (fun r hr => ?_) hen (hp.stoppedEmpty hen) fun p n => ?_
    · obtain rfl := Option.some.inj hr
      exact ⟨tableBase_installed ht (hnew.shape.table_aligned (List.mem_of_getElem? ht)), hnew.tables hf k ps t hps ht⟩
    · obtain rfl := Option.some.inj hr
      exact modeSlots_ofNat hnew.shape.slots rfl
    · simp [initializedChan, installedChan, hfree]
  | tearsDown res hfree hallowed hring =>
    obtain ⟨-, -, -, hen, -⟩ := (teardownAllowed_iff c).mp hallowed
    exact .of_stopped nofun nofun hen (hp.stoppedEmpty hen) fun p n => by simp [hfree]
  | requests hplace hrequest =>
    obtain ⟨r, count, rst, hring, -, -, -, -, hcount, rfl, -⟩ := resetRequest_cases hrequest
    obtain ⟨hshape, -, -⟩ := hb.ringFits r hring
    refine .of_stopped (fun r' hr => ?_) (fun r' hr => ?_) rfl hp.queue_after_disable fun p n => ?_
    · obtain rfl : r = r' := Option.some.inj (hring.symm.trans hr)
      exact hk'.reinstalled hring hshape
    · obtain rfl : r = r' := Option.some.inj (hring.symm.trans hr)
      exact modeSlots_ofNat hshape.slots (hcount hshape.slots)
    · obtain rfl | ⟨p', n', rfl⟩ := hplace.polls <;> simp
  | confirms sp n res hplace hhost hread =>
    obtain ⟨-, hen⟩ := hd.polling hplace hhost
    refine .of_stopped hk'.tables hk'.slotCount hen (hp.stoppedEmpty hen) fun p n => ?_
    cases hplace <;> simp
  | pollsAgain sp n hplace hhost hread =>
    obtain ⟨-, hen⟩ := hd.polling hplace hhost
    refine .of_stopped hk'.tables hk'.slotCount hen (hp.stoppedEmpty hen) fun p n => ?_
    cases hplace <;> simp
  | timesOut sp n res hplace hhost hread =>
    obtain ⟨-, hen⟩ := hd.polling hplace hhost
    exact .of_stopped hk'.tables hk'.slotCount hen (hp.stoppedEmpty hen) fun p n => by simp
  | validates hfree hstate => exact hk'.moved fun p n => by simp
  | writesSizes hhost hring hen =>
    exact { hk' with
      size := fun r hr _ => by
        obtain rfl : _ = r := Option.some.inj (hring.symm.trans hr)
        obtain ⟨hshape, -, -⟩ := hb.ringFits _ hring
        have hfits : _ ≤ 2097152 := hshape.size.2
        exact (BitVec.toNat_ofNat _ _).trans (Nat.mod_eq_of_lt (by omega)) }
  | startsClock hhost => exact hk'.sized fun r hr => hk'.size r hr (.inr ⟨_, _, .inl hhost⟩)
  | startsUnit hhost hlegal => exact hk'.sized fun r hr => hk'.size r hr (.inr ⟨_, _, .inr (.inl hhost)⟩)
  | streams res hhost => exact hk'.sized fun r hr => hk'.size r hr (.inr ⟨_, _, .inr (.inr hhost)⟩)
  | stops hfree hstate =>
    have hmoved := hk'.moved (host := some (.stop .join)) fun p n => by simp
    exact { hmoved with }
  | joins hhost hquiet =>
    have hmoved := hk'.moved (host := some (.stop .disable)) fun p n => by simp
    exact { hmoved with }
  | finds hhost hen => exact hk'.moved fun p n => by simp
  | halts hhost hen hqueue => exact .of_stopped hk'.tables hk'.slotCount rfl rfl fun p n => by simp
  | closes res hhost =>
    have hmoved := hk'.moved (host := none) fun p n => by simp
    exact { hmoved with }
  | @captures c sh addr b waiting n henabled haddr =>
    simp only [capByteEnabled, Bool.and_eq_true] at henabled
    have hnew := captured_page hk hb hp hd hf henabled.1.1 haddr
    have hqueue : ∀ e ∈ c.inflight ++ [⟨c.writeIndex, addr, b⟩], ∃ r, c.ring = some r ∧
        ∃ p ∈ r.pages.flatten, pageOf e.addr.toNat = p.toNat := fun e he => by
      rcases List.mem_append.mp he with he | he
      · exact hk.queue e he
      · obtain rfl := List.mem_singleton.mp he
        exact hnew
    unfold advanceCapture
    split <;> exact { hk' with queue := hqueue }
  | lands hq hpage => exact { hk' with queue := fun e he => hk'.queue e (hq ▸ List.mem_cons_of_mem _ he) }
  | resets hrst => exact { hk' with queue := nofun }

end Tables

/-! ### All channels -/

/-- The pages of two channels' rings are different pages. -/
theorem State.Ownership.apart {s : State} (h : s.Ownership) {j k : Nat} (hjk : j ≠ k) {x y : Chan} (hx : s.chans[j]? = some x)
    (hy : s.chans[k]? = some y) : ∀ p ∈ chanPages x, p ∉ chanPages y := by
  intro p hpx hpy
  have hpairwise := (List.nodup_flatMap.mp h.1).2
  rw [List.pairwise_iff_getElem] at hpairwise
  obtain ⟨hj, rfl⟩ := List.getElem?_eq_some_iff.mp hx
  obtain ⟨hk, rfl⟩ := List.getElem?_eq_some_iff.mp hy
  rcases Nat.lt_or_gt_of_ne hjk with hlt | hlt
  · exact hpairwise j k hj hk hlt hpx hpy
  · exact hpairwise k j hk hj hlt hpy hpx

/-- A byte in flight is on its way to no table page, of its own ring or of another. -/
theorem queue_clear_of_tables {s : State} (hinv : s.Inv) {j k : Nat} {c x : Chan} (hc : s.chans[k]? = some c)
    (hx : s.chans[j]? = some x) (hinstalled : c.Installed s.shared) :
    ∀ e ∈ c.inflight, ∀ r, x.ring = some r → ∀ t ∈ r.table, pageOf e.addr.toNat ≠ t.toNat := by
  intro e he r hr t ht heq
  obtain ⟨rc, hrc, p, hp, hpage⟩ := hinstalled.queue e he
  have hsame : p.toNat = t.toNat := hpage.symm.trans heq
  by_cases hjk : j = k
  · subst hjk
    obtain rfl : x = c := Option.some.inj (hx.symm.trans hc)
    obtain rfl : rc = r := Option.some.inj (hrc.symm.trans hr)
    exact data_ne_table hrc (hinv.ownership.of_mem (List.mem_of_getElem? hc)).1 hp ht hsame
  · exact hinv.ownership.apart hjk hx hc t.toNat (mem_chanPages_of_table hr ht) (hsame ▸ mem_chanPages_of_data hrc hp)

/-- A composite operation leaves every channel's tables as its ring wants them. -/
theorem acts_keepTables {s : State} {cfg : HwConfig} {i : Instr} {c c' : Chan} {sh' : Shared} (hinv : s.Inv)
    (hs : ∀ x ∈ s.chans, x.Disciplined ∧ x.Installed s.shared) (ha : s.At c) (hc : compositeOp i = true)
    (h : Acts cfg i c s.shared c' sh') : ∀ x ∈ (s.put ⟨c', sh'⟩).chans, x.Installed sh' := by
  have hmem := at_mem ha
  obtain ⟨hd, hinstalled⟩ := hs c hmem
  have hkept : ∀ x ∈ s.chans, x.Installed sh' := fun x hx => by
    obtain ⟨j, hj⟩ := List.getElem?_of_mem hx
    exact (hs x hx).2.through (hinv.bounds x hx) (hinv.ownership.of_mem hx).2 h hc hinv.form
      (queue_clear_of_tables hinv ha hj hinstalled)
  exact forall_put hkept
    (acts_installed h hc hinv.form (hinv.bounds c hmem) (hinv.position c hmem) hd hinstalled (hkept c hmem))

/-- A change that no ring notices leaves every channel's tables. -/
theorem Shared.Quiet.installed {s : State} {sh' : Shared} (hquiet : s.shared.Quiet sh') (hinv : s.Inv) {x : Chan}
    (hx : x ∈ s.chans) (h : x.Installed s.shared) : x.Installed sh' := by
  refine h.of_settled fun r hr t ht k hk b hb => hquiet.settled hinv.form _ b ?_ hb
  rw [pageOf_within (((hinv.bounds x hx).ringFits r hr).1.table_aligned ht) hk]
  exact (hinv.ownership.of_mem hx).2 _ (mem_chanPages_of_table hr ht)

/-- Settles O59: each composite operation leaves its own tables right (`acts_installed`) and the others' bytes alone
(`Chan.Installed.through`); copies and reads are changes that no ring notices. -/
theorem compositeHostsKeepTables : Obligations.CompositeHostsKeepTables := by
  intro s t hturn hinv hs hstep
  have hstart (k : Nat) : ∀ x ∈ ((nextTurn s).2.select k).chans,
      x.Disciplined ∧ x.Installed ((nextTurn s).2.select k).shared := fun x hx => by
    rw [State.select_chans, nextTurn_chans] at hx
    exact ⟨(hs x hx).1, (nextTurn_quiet s).installed hinv hx (hs x hx).2⟩
  cases step_stepped hstep with
  | @runs k i c c' sh' hcall hat h =>
    exact acts_keepTables (nextTurn_inv hinv k) (hstart k) (at_nextTurn hat) (compositeOp_of_turnCall hturn hcall) h
  | @accesses k c sh' res hat hform halloc hquiet =>
    have hkept : ∀ x ∈ ((nextTurn s).2.select k).chans, x.Installed sh' := fun x hx =>
      Shared.Quiet.installed (s := (nextTurn s).2.select k) (hquiet hturn) (nextTurn_inv hinv k) hx (hstart k x hx).2
    have hanswered := hkept c (at_mem (at_nextTurn hat))
    exact forall_put hkept { hanswered with }
  | @copies sh' hquiet =>
    exact fun x hx => Shared.Quiet.installed (s := (nextTurn s).2.select 0) hquiet (nextTurn_inv hinv 0) hx (hstart 0 x hx).2

end Sys2Proof.Machine
end

section
/-! SUPPORT. Where a step can fault on a page that no ring owns (70 R316): only in a landing, and only where a byte in flight is on its
way there; and the settled statement that hosts without raw accesses never come to it. -/

namespace Sys2Proof.Machine

open Host (Outcome)

/-! ### Steps that do not fault -/

/-- The operation answers a next state or is refused. -/
def Sound {α : Type} (x : Out α) : Prop := ∀ e, x ≠ .fault e

theorem sound_next {α : Type} (a : α) : Sound (.next a : Out α) := nofun

theorem sound_refused {α : Type} (r : Refusal) : Sound (.refused r : Out α) := nofun

theorem Sound.andThen {α β : Type} {x : Out α} {f : α → Out β} (hx : Sound x) (hf : ∀ a, Sound (f a)) :
    Sound (andThen x f) := by
  intro e h
  rcases andThen_eq_fault.mp h with h | ⟨a, -, h⟩
  · exact hx e h
  · exact hf a e h

theorem Sound.withRing {α : Type} {c : Chan} {f : Ring → Out α} (hf : ∀ r, Sound (f r)) : Sound (withRing c f) := by
  unfold Machine.withRing
  split
  · exact sound_refused _
  · split
    · exact hf _
    · exact sound_refused _

theorem Sound.hostCall {f : Local → Out Local} {l : Local} (hf : Sound (f l)) : Sound (hostCall f l) := by
  intro e h
  exact hf e (hostCall_eq_fault.mp h).2

/-- A test before a step that does not fault. -/
theorem Sound.ite {α : Type} {p : Prop} [Decidable p] {x : Out α} {r : Refusal} (hx : Sound x) :
    Sound (if p then x else .refused r) := by
  split
  · exact hx
  · exact sound_refused _

theorem writeBufferMode_sound (v : Word) (l : Local) : Sound (writeBufferMode v l) := by
  unfold writeBufferMode
  split
  · exact sound_refused _
  · exact sound_next _

theorem whileStopped_sound (l : Local) (c : Chan) : Sound (whileStopped l c) := by
  unfold whileStopped
  split
  · exact sound_refused _
  · exact sound_next _

theorem flushRange_sound (a n : Nat) (l : Local) : Sound (flushRange a n l) := (sound_next _).ite

theorem syncRange_sound (a n : Nat) (l : Local) : Sound (syncRange a n l) := (sound_next _).ite

theorem syncPages_sound (ps : List Addr) (l : Local) : Sound (syncPages ps l) := by
  induction ps generalizing l with
  | nil => exact sound_next _
  | cons p ps ih => exact (syncRange_sound _ _ l).andThen ih

theorem installFrom_sound (i : Nat) (ts : List Addr) (l : Local) : Sound (installFrom i ts l) := by
  induction ts generalizing i l with
  | nil => exact sound_next _
  | cons t ts ih =>
    unfold installFrom
    split
    · exact Sound.andThen ((flushRange_sound _ _ l).andThen fun _ =>
        (whileStopped_sound _ _).andThen fun _ => whileStopped_sound _ _) fun _ => ih _ _
    · exact sound_refused _

theorem installTables_sound (r : Ring) (l : Local) : Sound (installTables r l) := installFrom_sound 0 r.table l

theorem buildTable_sound (pages : List Addr) (table : Addr) (sh : Shared) : Sound (buildTable pages table sh) := by
  unfold buildTable
  split
  · exact sound_refused _
  · split <;> exact sound_next _

theorem buildAll_sound (ps : List (List Addr × Addr)) (sh : Shared) : Sound (buildAll ps sh) := by
  induction ps generalizing sh with
  | nil => exact sound_next _
  | cons x ps ih =>
    obtain ⟨pages, table⟩ := x
    refine (buildTable_sound pages table sh).andThen fun (r, sh') => ?_
    cases r
    case ok => exact ih sh'
    all_goals exact sound_next _

theorem initRing_sound (n size : Nat) (l : Local) : Sound (initRing n size l) := by
  unfold initRing
  split
  · split
    · exact sound_next _
    · refine (buildAll_sound _ _).andThen fun (r, sh') => ?_
      cases r
      case ok =>
        exact (installTables_sound _ _).andThen fun _ => (writeBufferMode_sound _ _).andThen fun _ => sound_next _
      all_goals exact sound_next _
  · exact sound_refused _

theorem currentWriteIndex_sound (cfg : HwConfig) (l : Local) : Sound (currentWriteIndex cfg l) :=
  .withRing fun _ => Sound.andThen (by split <;> [exact writeBufferMode_sound _ _; exact sound_next _]) fun _ => sound_next _

theorem readSlot_sound (i : Nat) (l : Local) : Sound (readSlot i l) :=
  .withRing fun r => by
    split
    · exact sound_refused _
    · exact (syncPages_sound _ _).andThen fun _ => sound_next _

theorem drainBegin_sound (cfg : HwConfig) (l : Local) : Sound (drainBegin cfg l) :=
  .withRing fun r => (currentWriteIndex_sound _ _).andThen fun (w, l') => by
    simp only
    split <;> exact sound_next _

theorem translateOffset_sound (l : Local) (i : Fin 8) (b : Nat) : Sound (translateOffset l i b) := (sound_next _).ite

/-! ### Landings that fault -/

/-- A byte in flight of the place's channel is on its way to a page that no ring owns. -/
def Local.Astray (l : Local) : Prop := ∃ e ∈ l.chan.inflight, pageOf e.addr.toNat ∉ l.shared.allocated

theorem disableUnit_astray {l : Local} {e : Fault} (h : disableUnit l = .fault e) : l.Astray := by
  by_contra hclear
  simp only [Local.Astray, not_exists, not_and, not_not] at hclear
  rw [disableUnit_landed hclear] at h
  cases h

theorem writeEnable_astray {v : Word} {l : Local} {e : Fault} (h : writeEnable v l = .fault e) : l.Astray := by
  unfold writeEnable at h
  split at h
  · unfold enableUnit at h
    split at h <;> cases h
  · split at h
    · exact disableUnit_astray h
    · cases h

/-- A write of `DMA_ENABLE` and then steps that do not fault. -/
theorem writeEnable_andThen_astray {v : Word} {l : Local} {α : Type} {f : Local → Out α} {e : Fault}
    (h : andThen (writeEnable v l) f = .fault e) (hf : ∀ l', Sound (f l')) : l.Astray := by
  rcases andThen_eq_fault.mp h with h | ⟨l', -, h⟩
  · exact writeEnable_astray h
  · exact absurd h (hf l' e)

theorem resetRequest_astray {l : Local} {e : Fault} (h : resetRequest l = .fault e) : l.Astray := by
  unfold resetRequest at h
  split at h
  · unfold withRing at h
    split at h
    · cases h
    · split at h
      · exact writeEnable_andThen_astray h fun _ => (writeBufferMode_sound _ _).andThen fun _ =>
          (installTables_sound _ _).andThen fun _ => writeBufferMode_sound _ _
      · cases h
  · cases h

theorem landOldest_astray {l : Local} {e : Fault} (h : landOldest l = .fault e) : l.Astray := by
  unfold landOldest at h
  split at h
  · cases h
  · rename_i x rest hqueue
    rcases andThen_eq_fault.mp h with h | ⟨_, -, h⟩
    · unfold landByte at h
      split at h
      · cases h
      · rename_i hpage
        exact ⟨x, by simp [hqueue], by simpa using hpage⟩
    · cases h

theorem resetStep_astray {cfg : HwConfig} {l : Local} {e : Fault} (h : resetStep cfg l = .fault e) : l.Astray := by
  unfold resetStep at h
  split at h
  · rcases andThen_eq_fault.mp h with h | ⟨_, -, h⟩
    · exact resetRequest_astray h
    · cases h
  · cases h
  · cases h

theorem startValidate_sound (pitch lines : Nat) (l : Local) : Sound (startValidate pitch lines l) :=
  Sound.ite <| .withRing fun r => by split <;> exact sound_next _

theorem startSizes_sound (l : Local) : Sound (startSizes l) :=
  .withRing fun _ => (whileStopped_sound _ _).andThen fun _ => whileStopped_sound _ _

theorem startPhase_astray {cfg : HwConfig} {pitch lines : Nat} {phase : StartPhase} {l : Local} {e : Fault}
    (h : startPhase cfg pitch lines phase l = .fault e) : l.Astray := by
  cases phase with
  | reset =>
    rcases andThen_eq_fault.mp h with h | ⟨_, -, h⟩
    · exact resetRequest_astray h
    · cases h
  | poll k => cases h
  | sizes => exact absurd h ((startSizes_sound l).andThen (fun _ => sound_next _) e)
  | clock => cases h
  | enable => exact writeEnable_andThen_astray h fun _ => sound_next _
  | irq => cases h

theorem startStep_astray {cfg : HwConfig} {pitch lines : Nat} {l : Local} {e : Fault}
    (h : startStep cfg pitch lines l = .fault e) : l.Astray := by
  unfold startStep at h
  split at h
  · exact absurd h (startValidate_sound pitch lines l e)
  · split at h
    · exact startPhase_astray h
    · cases h
  · cases h

theorem stopPhase_astray {phase : StopPhase} {l : Local} {e : Fault} (h : stopPhase phase l = .fault e) : l.Astray := by
  cases phase with
  | join => exact absurd h ((show Sound (stopPhase .join l) by
      rw [stopPhase]; split <;> [exact sound_refused _; exact sound_next _]) e)
  | disable => exact writeEnable_andThen_astray h fun _ => sound_next _
  | clock => cases h

theorem stopStep_astray {l : Local} {e : Fault} (h : stopStep l = .fault e) : l.Astray := by
  unfold stopStep at h
  split at h
  · split at h <;> cases h
  · exact stopPhase_astray h
  · cases h

/-! ### Every operation and every turn -/

/-- The operation on its channel does not fault where its function of the place does not. -/
theorem onChannel_sound {s : State} {f : Local → Out Local} (hf : ∀ l, Sound (f l)) : Sound (onChannel s f) := by
  intro e h
  obtain ⟨c, -, hl⟩ := onChannel_eq_fault.mp h
  exact hf _ e hl

theorem onChannel_astray {s : State} {f : Local → Out Local} {e : Fault} (h : onChannel s f = .fault e)
    (hf : ∀ l, f l = .fault e → l.Astray) : ∃ c, s.At c ∧ Local.Astray ⟨c, s.shared⟩ := by
  obtain ⟨c, hat, hl⟩ := onChannel_eq_fault.mp h
  exact ⟨c, hat, hf _ hl⟩

/-- The host call does not fault where its function of a place does not. -/
theorem hostCall_sound {s : State} {f : Local → Out Local} {e : Fault} (h : onChannel s (hostCall f) = .fault e) :
    ∃ l, f l = .fault e := by
  obtain ⟨c, -, hl⟩ := onChannel_eq_fault.mp h
  exact ⟨_, (hostCall_eq_fault.mp hl).2⟩

/-- The agent's step does not fault where its function of a place does not. -/
theorem agent_sound {s : State} {enabled : Chan → Bool} {f : Local → Out Local} {e : Fault}
    (h : onChannel s (whenEnabled enabled f) = .fault e) : ∃ l, f l = .fault e := by
  obtain ⟨c, -, hl⟩ := onChannel_eq_fault.mp h
  unfold whenEnabled at hl
  split at hl
  · exact ⟨_, hl⟩
  · cases hl

/-- A call on a channel that ends with a result. -/
theorem call_sound {α : Type} {s : State} {f : Local → Out α} {g : α → Local} (hf : ∀ l, Sound (f l)) :
    Sound (onChannel s (hostCall fun l => andThen (f l) fun a => .next (g a))) :=
  onChannel_sound fun l => .hostCall ((hf l).andThen fun _ => sound_next _)

theorem plain_sound {s : State} {f : Local → Local} : Sound (onChannel s (hostCall fun l => .next (f l))) :=
  onChannel_sound fun _ => .hostCall (sound_next _)

/-- An operation faults only where a byte in flight of its channel is on its way to a page that no ring owns. -/
theorem exec_astray {i : Instr} {s : State} {e : Fault} (h : exec i s = .fault e) :
    ∃ c, s.At c ∧ Local.Astray ⟨c, s.shared⟩ := by
  cases i with
  | wrDmaEnable v =>
    exact onChannel_astray h fun l hl => writeEnable_andThen_astray (hostCall_eq_fault.mp hl).2 fun _ => sound_next _
  | reset => exact onChannel_astray h fun _ => resetStep_astray
  | start pitch lines => exact onChannel_astray h fun _ => startStep_astray
  | stop => exact onChannel_astray h fun _ => stopStep_astray
  | capLand =>
    refine onChannel_astray h fun l hl => ?_
    unfold whenEnabled at hl
    split at hl
    · exact landOldest_astray hl
    · cases hl
  | wrDmaBufferMode v => exact absurd h (call_sound (writeBufferMode_sound v) e)
  | wrDmaPageTableAddrLow k v => exact absurd h (call_sound (fun _ => whileStopped_sound _ _) e)
  | wrDmaPageTableAddrHigh k v => exact absurd h (call_sound (fun _ => whileStopped_sound _ _) e)
  | wrDmaBlockSize v => exact absurd h (call_sound (fun _ => whileStopped_sound _ _) e)
  | wrDmaTotalSize v => exact absurd h (call_sound (fun _ => whileStopped_sound _ _) e)
  | wrIntEnable | wrIntStatus | wrIntClear | rdDmaEnable | rdDmaBufferMode | rdDmaPageTableAddrLow | rdDmaPageTableAddrHigh
  | rdDmaBlockSize | rdDmaTotalSize | rdIntEnable | rdIntStatus | rdIntClear => exact absurd h (plain_sound e)
  | flush addr n => exact absurd h (call_sound (flushRange_sound _ _) e)
  | cpuSync addr n => exact absurd h (call_sound (syncRange_sound _ _) e)
  | build pages table =>
    obtain ⟨l, hl⟩ := hostCall_sound h
    refine absurd hl ((buildTable_sound _ _ _).andThen (fun (r, sh) => ?_) e)
    simp only
    split
    · exact sound_refused _
    · exact sound_next _
  | installTables =>
    obtain ⟨l, hl⟩ := hostCall_sound h
    exact absurd hl (Sound.withRing (fun r => (installTables_sound r l).andThen fun _ => sound_next _) e)
  | init n size =>
    obtain ⟨l, hl⟩ := hostCall_sound h
    exact absurd hl (initRing_sound n size l e)
  | teardown =>
    obtain ⟨l, hl⟩ := hostCall_sound h
    exact absurd hl (Sound.ite (.withRing fun _ => sound_next _) e)
  | currentWriteIndex => exact absurd h (call_sound (currentWriteIndex_sound _) e)
  | readSlot k => exact absurd h (call_sound (readSlot_sound k) e)
  | scan slot known => exact absurd (show execScan slot known s = _ from h) (onChannel_sound (fun _ => sound_next _) e)
  | align slot off stage =>
    exact absurd (show execAlign slot off stage s = _ from h) (onChannel_sound (fun _ => sound_next _) e)
  | sinkWrite bytes => exact absurd (show execSinkWrite bytes s = _ from h) (onChannel_sound (fun _ => sound_next _) e)
  | capByte =>
    obtain ⟨l, hl⟩ := agent_sound h
    exact absurd hl ((translateOffset_sound _ _ _).andThen (fun _ => sound_next _) e)
  | rstDone | irq | drainEnd =>
    obtain ⟨l, hl⟩ := agent_sound h
    cases hl
  | drainBegin =>
    obtain ⟨l, hl⟩ := agent_sound h
    exact absurd hl (drainBegin_sound _ l e)
  | drainSlot =>
    obtain ⟨l, hl⟩ := agent_sound h
    exact absurd hl (Sound.withRing (fun r => (readSlot_sound _ l).andThen fun _ => sound_next _) e)

/-- A step faults on a page that no ring owns only where a byte in flight is on its way there. -/
theorem step_astray {s : State} (h : step s = .fault .dmaToFreedPage) :
    ∃ c ∈ s.chans, ∃ e ∈ c.inflight, pageOf e.addr.toNat ∉ s.shared.allocated := by
  have hrun : ∀ i k, exec i ((nextTurn s).2.select k) = .fault .dmaToFreedPage →
      ∃ c ∈ s.chans, ∃ e ∈ c.inflight, pageOf e.addr.toNat ∉ s.shared.allocated := fun i k hexec => by
    obtain ⟨c, hat, e, he, hpage⟩ := exec_astray hexec
    have hmem := at_mem hat
    rw [State.select_chans, nextTurn_chans] at hmem
    rw [State.select_shared, nextTurn_allocated] at hpage
    exact ⟨c, hmem, e, he, hpage⟩
  unfold step takeTurn at h
  split at h
  case h_1 c bytes hturn =>
    unfold takeOp at h
    split at h
    · exact hrun _ _ h
    · cases h
  case h_2 c hturn =>
    unfold resumeHost at h
    split at h
    · cases h
    · split at h
      · cases h
      · exact hrun _ _ h
  case h_3 write address width data hturn =>
    unfold busAccess at h
    simp only at h
    split at h
    · cases h
    · split at h
      · exact hrun _ _ h
      · exact absurd h (plain_sound _)
  case h_4 c addr bytes hturn =>
    unfold cpuWrite at h
    split at h
    · cases h
    · split at h
      · cases h
      · exact absurd h (plain_sound _)
  case h_5 c addr n hturn =>
    unfold cpuRead at h
    split at h
    · cases h
    · exact absurd h (plain_sound _)
  case h_6 addr hturn => exact absurd h ((sound_next _).ite _)
  case h_7 addr hturn => exact absurd h ((sound_next _).ite _)

/-- Settles O60: a byte in flight is on its way to a data page of its ring, and the pages of rings are allocated, so no landing
faults (`step_astray`). -/
theorem compositeHostsNeverFault : Obligations.CompositeHostsNeverFault := by
  intro s _ hinv hs hfault
  obtain ⟨c, hc, e, he, hfreed⟩ := step_astray hfault
  obtain ⟨r, hring, p, hp, hpage⟩ := (hs c hc).2.queue e he
  exact hfreed (hpage ▸ (hinv.ownership.of_mem hc).2 _ (mem_chanPages_of_data hring hp))

end Sys2Proof.Machine
end

section
/-! SUPPORT. What each reader of operands gives on the bytes its writer made, and the settled statement that decoding undoes
encoding (30 R112, R113; log 2). -/

namespace Sys2Proof

open Machine (leBytes_length leNat_leBytes)

/-- The reader takes exactly these bytes from the front of any sequence and gives the value. -/
def Reads {α : Type} (p : List Byte → Parsed α) (bs : List Byte) (a : α) : Prop := ∀ rest, p (bs ++ rest) = .ok (a, rest)

theorem reads_ok {α : Type} (a : α) : Reads (fun bs => .ok (a, bs)) [] a := fun _ => rfl

/-- Two readers one after the other take the two parts. -/
theorem Reads.andThen {α β : Type} {p : List Byte → Parsed α} {f : α → List Byte → Parsed β} {bs bs' : List Byte} {a : α}
    {b : β} (hp : Reads p bs a) (hf : Reads (f a) bs' b) : Reads (fun x => thenTake (p x) f) (bs ++ bs') b := fun rest => by
  simp only [List.append_assoc, hp (bs' ++ rest)]
  exact hf rest

/-- A reader and then a value made of what it gave. -/
theorem Reads.map {α β : Type} {p : List Byte → Parsed α} {bs : List Byte} {a : α} (hp : Reads p bs a) (g : α → β) :
    Reads (fun x => thenTake (p x) fun y rest => .ok (g y, rest)) bs (g a) := fun rest => by
  simp only [hp rest, thenTake]

/-! ### Single bytes -/

theorem takeTableNumber_reads (i : Fin 8) : Reads takeTableNumber [BitVec.ofNat 8 i.val] i := fun rest => by
  have hi : (BitVec.ofNat 8 i.val).toNat = i.val := by simp; omega
  simp [takeTableNumber, takeByte, thenTake, hi]

theorem offset_toNat {off : Nat} (h : okOffset off = true) : (BitVec.ofNat 8 off).toNat = off := by
  have hle : off ≤ 187 := by simpa [okOffset] using h
  simp; omega

theorem takeOffset_reads {off : Nat} (h : okOffset off = true) : Reads takeOffset [BitVec.ofNat 8 off] off := fun rest => by
  simp [takeOffset, takeByte, thenTake, offset_toNat h, h]

theorem takeKnown_reads {known : Option Nat} (h : okKnown known = true) : Reads takeKnown [knownByte known] known := fun rest => by
  cases known with
  | none => simp [takeKnown, takeByte, thenTake, knownByte]
  | some k =>
    have hk := offset_toNat h
    have hne : BitVec.ofNat 8 k ≠ 0xFF#8 := fun heq => by
      have hle : k ≤ 187 := by simpa [okKnown, okOffset] using h
      rw [heq] at hk
      simp at hk; omega
    rw [show okKnown (some k) = okOffset k from rfl] at h
    simp only [takeKnown, takeByte, thenTake, knownByte, List.cons_append, List.nil_append, hne, hk, h, if_true, if_false]

/-! ### Words and addresses -/

theorem takeLe_reads (k : Nat) {v : Nat} (h : v < 256 ^ k) : Reads (takeLe k) (leBytes k v) v := fun rest => by
  unfold takeLe
  rw [if_pos (by simp), List.take_left' (leBytes_length k v), List.drop_left' (leBytes_length k v), leNat_leBytes,
    Nat.mod_eq_of_lt h]

theorem takeWord_reads (v : Word) : Reads takeWord (wordBytes v) v := by
  have h := (takeLe_reads 4 (v := v.toNat) v.isLt).map (BitVec.ofNat 32)
  rwa [BitVec.ofNat_toNat, BitVec.setWidth_eq] at h

theorem takeAddr_reads (a : Addr) : Reads takeAddr (addrBytes a) a := by
  have h := (takeLe_reads 8 (v := a.toNat) a.isLt).map (BitVec.ofNat 64)
  rwa [BitVec.ofNat_toNat, BitVec.setWidth_eq] at h

/-! ### Natural numbers (log 2) -/

/-- The digits of a number are read back where there is fuel for all of them. -/
theorem takeNat_natDigits {fuel v : Nat} (h : v < 128 ^ (fuel + 1)) : Reads takeNat (natDigits fuel v) v := by
  induction fuel generalizing v with
  | zero =>
    intro rest
    rw [Nat.zero_add, pow_one] at h
    have hv : (BitVec.ofNat 8 v).toNat = v := by simp; omega
    simp [natDigits, takeNat, Nat.mod_eq_of_lt h, hv, h]
  | succ fuel ih =>
    intro rest
    unfold natDigits
    split
    next hlt =>
      have hv : (BitVec.ofNat 8 v).toNat = v := by simp; omega
      simp [takeNat, hv, hlt]
    next hge =>
      have hb : (BitVec.ofNat 8 (v % 128 + 128)).toNat = v % 128 + 128 := by simp; omega
      have hrest := ih (v := v / 128) (Nat.div_lt_of_lt_mul (by rwa [← pow_succ'])) rest
      simp only [List.cons_append, takeNat, hb, hrest, thenTake]
      rw [if_neg (by omega), show v % 128 + 128 - 128 + 128 * (v / 128) = v by omega]

theorem takeNat_reads (v : Nat) : Reads takeNat (natBytes v) v :=
  takeNat_natDigits (Nat.lt_log2_self.trans_le (Nat.pow_le_pow_left (by omega) _))

/-! ### Lists -/

theorem takeBytes_reads (bs : List Byte) : Reads takeBytes (listBytes bs) bs :=
  (takeNat_reads bs.length).andThen (f := fun k rest => if k ≤ rest.length then .ok (rest.take k, rest.drop k) else .error .truncated)
    fun rest => by simp

theorem takeStage_reads {stage : List Byte} (h : okStage stage = true) : Reads takeStage (listBytes stage) stage := fun rest => by
  simp only [takeStage, takeBytes_reads stage rest, thenTake, h, if_true]

theorem takeAddrs_reads (as : List Addr) : Reads (takeAddrs as.length) (as.flatMap addrBytes) as := by
  induction as with
  | nil => exact reads_ok []
  | cons a as ih => exact (takeAddr_reads a).andThen (ih.map (a :: ·))

theorem flatMap_addrBytes_length (as : List Addr) : (as.flatMap addrBytes).length = 8 * as.length := by
  simp [List.length_flatMap, addrBytes, Nat.mul_comm]

theorem takeAddrList_reads (as : List Addr) : Reads takeAddrList (addrsBytes as) as :=
  (takeNat_reads as.length).andThen (f := fun k rest => if 8 * k ≤ rest.length then takeAddrs k rest else .error .truncated)
    fun rest => by
      simp only
      rw [if_pos (by rw [List.length_append, flatMap_addrBytes_length]; omega), takeAddrs_reads]

/-! ### Operands and operations -/

theorem withNone_reads (i : Instr) : Reads (withNone i) [] i := reads_ok i

theorem withWord_reads (f : Word → Instr) (v : Word) : Reads (withWord f) (wordBytes v) (f v) := (takeWord_reads v).map f

theorem withTable_reads (f : Fin 8 → Instr) (i : Fin 8) : Reads (withTable f) [BitVec.ofNat 8 i.val] (f i) :=
  (takeTableNumber_reads i).map f

theorem withTableWord_reads (f : Fin 8 → Word → Instr) (i : Fin 8) (v : Word) :
    Reads (withTableWord f) (BitVec.ofNat 8 i.val :: wordBytes v) (f i v) :=
  (takeTableNumber_reads i).andThen ((takeWord_reads v).map (f i))

theorem withRange_reads (f : Addr → Nat → Instr) (a : Addr) (n : Nat) :
    Reads (withRange f) (addrBytes a ++ natBytes n) (f a n) :=
  (takeAddr_reads a).andThen ((takeNat_reads n).map (f a))

theorem withTwoNats_reads (f : Nat → Nat → Instr) (a b : Nat) : Reads (withTwoNats f) (natBytes a ++ natBytes b) (f a b) :=
  (takeNat_reads a).andThen ((takeNat_reads b).map (f a))

/-- The reader that a tag selects takes the operands of that tag's operation. -/
theorem decodeOperands_reads {i : Instr} (h : wellFormed i = true) :
    Reads (decodeOperands (tagOf i)) (operandBytes i) i := by
  cases i with
  | wrDmaEnable v | wrDmaBufferMode v | wrDmaBlockSize v | wrDmaTotalSize v | wrIntEnable v | wrIntStatus v | wrIntClear v =>
    exact withWord_reads _ v
  | wrDmaPageTableAddrLow k v | wrDmaPageTableAddrHigh k v => exact withTableWord_reads _ k v
  | rdDmaPageTableAddrLow k | rdDmaPageTableAddrHigh k => exact withTable_reads _ k
  | rdDmaEnable | rdDmaBufferMode | rdDmaBlockSize | rdDmaTotalSize | rdIntEnable | rdIntStatus | rdIntClear | installTables
  | teardown | reset | currentWriteIndex | stop | capByte | capLand | rstDone | irq | drainBegin | drainSlot | drainEnd =>
    exact withNone_reads _
  | flush a n | cpuSync a n => exact withRange_reads _ a n
  | build pages table => exact (takeAddrList_reads pages).andThen ((takeAddr_reads table).map (Instr.build pages))
  | init n size => exact withTwoNats_reads _ n size
  | readSlot k => exact (takeNat_reads k).map Instr.readSlot
  | start pitch lines => exact withTwoNats_reads _ pitch lines
  | scan slot known => exact (takeBytes_reads slot).andThen ((takeKnown_reads h).map (Instr.scan slot))
  | align slot off stage =>
    obtain ⟨hoff, hstage⟩ := Bool.and_eq_true_iff.mp h
    exact (takeBytes_reads slot).andThen
      ((takeOffset_reads hoff).andThen ((takeStage_reads hstage).map (Instr.align slot off)))
  | sinkWrite bytes => exact (takeBytes_reads bytes).map Instr.sinkWrite

theorem tagOf_lt (i : Instr) : tagOf i < 256 := by cases i <;> simp [tagOf]

/-- Settles O1: the tag selects the reader of the operation's own operand form, which takes exactly the bytes that were written. -/
theorem decodeEncodeAgree : Obligations.DecodeEncodeAgree := by
  intro i rest h
  have htag : (BitVec.ofNat 8 (tagOf i)).toNat = tagOf i := by
    rw [BitVec.toNat_ofNat, Nat.mod_eq_of_lt (tagOf_lt i)]
  simp only [encode, List.cons_append, decode, htag]
  exact decodeOperands_reads h rest

end Sys2Proof
end

section
/-! SUPPORT. Proofs of the statements about turns (30 R112, R114; 45 R243), about power-on (10 R47), about the read of
`DMA_BUFFER_MODE` (45 R223) and about raw accesses to host memory (20 R72). -/

namespace Sys2Proof

/-! ### The tags of the table (30 R112) -/

/-- One operation of each tag of the table. -/
def tagExamples : List Instr :=
  [.wrDmaEnable 0, .wrDmaBufferMode 0, .wrDmaPageTableAddrLow 0 0, .wrDmaPageTableAddrHigh 0 0, .wrDmaBlockSize 0, .wrDmaTotalSize 0,
   .wrIntEnable 0, .wrIntStatus 0, .wrIntClear 0, .rdDmaEnable, .rdDmaBufferMode, .rdDmaPageTableAddrLow 0,
   .rdDmaPageTableAddrHigh 0, .rdDmaBlockSize, .rdDmaTotalSize, .rdIntEnable, .rdIntStatus, .rdIntClear, .flush 0 1, .cpuSync 0 1,
   .build [] 0, .installTables, .init 1 1, .teardown, .reset, .currentWriteIndex, .readSlot 0, .start 0 0, .stop, .scan [] none,
   .align [] 0 [], .sinkWrite [], .capByte, .capLand, .rstDone, .irq, .drainBegin, .drainSlot, .drainEnd]

/-- A tag that is none of the table's selects no reader. -/
theorem decodeOperands_unknown {tag : Nat} (h : tag ∉ tagExamples.map tagOf) (bs : List Byte) :
    decodeOperands tag bs = .error .unknownTag := by
  unfold decodeOperands
  split
  case h_40 => rfl
  all_goals simp [tagExamples, tagOf] at h

/-- Settles O2: the decoder is run on each of the words. -/
theorem tableWordsDecode : Obligations.TableWordsDecode := by
  unfold Obligations.TableWordsDecode
  decide

namespace Machine

open Host (Outcome)

/-! ### Turns that run an operation -/

theorem step_op {s : State} {c : Nat} {bytes : List Byte} {ts : List Turn} (h : s.schedule = .op c bytes :: ts) :
    step s = takeOp bytes ((s.withSchedule ts).select c) := step_of_schedule h

/-- Settles O3: the first byte selects no reader, so the decoder answers that the tag is unknown. -/
theorem unknownTagsRefused : Obligations.UnknownTagsRefused := by
  intro s c t rest ts hs htag
  have hunknown : decode (t :: rest) = .error .unknownTag :=
    decodeOperands_unknown (by simpa using fun i _ => htag i) rest
  rw [step_op hs, takeOp, hunknown]

/-- Settles O4: an operation turn decodes its bytes, a resume turn reads off the channel which operation its HOST is inside. -/
theorem stepRunsDecodedInstruction : Obligations.StepRunsDecodedInstruction := by
  refine ⟨fun s c bytes rest ts i hs hdecode => ?op, fun s c ts ch w hs hch hhost => ?resume⟩
  case op => rw [step_op hs, takeOp, hdecode]
  case resume =>
    rw [step_of_schedule hs]
    simp only [takeTurn, resumeHost, State.select_chans, State.withSchedule_chans, State.select_cur, hch, hhost]

/-- Settles O6: the access is tested for width and alignment first, and only then looked up in the map. -/
theorem unmappedRegisterAccess : Obligations.UnmappedRegisterAccess := by
  intro s write address width v ts hs
  rw [step_of_schedule hs]
  refine ⟨fun hbad => ?refused, fun c hwidth halign hunmapped hat hfree => ?unmapped⟩
  case refused => exact if_pos hbad
  case unmapped =>
    have hgood : ¬(width ≠ 32 ∨ address % s.cfg.regMap.stride % 4 ≠ 0) := by simp [hwidth, halign]
    simp only [takeTurn, busAccess, State.withSchedule_cfg, hunmapped]
    rw [if_neg hgood]
    exact call_at (s := (s.withSchedule ts).select (address / s.cfg.regMap.stride)) hat hfree _

/-! ### Power-on (10 R47) -/

/-- What holds of every channel as it is after power-on. -/
theorem forall_reset {P : Chan → Prop} (h : ∀ k, P (Chan.reset k)) : ∀ c ∈ State.reset.chans, P c := by
  intro c hc
  obtain ⟨k, rfl⟩ := mem_resetChans hc
  exact h k

/-- Settles O7: every channel is `Chan.reset`, whose fields are these. -/
theorem powerOnState : Obligations.PowerOnState := by
  refine ⟨forall_reset fun k => ?_, rfl, rfl, fun v a => ?_⟩
  · simp [Chan.reset, Vector.get]
  · cases v <;> rfl

theorem reset_form : Shared.reset.Form where
  cpu := nil_wf
  dev := nil_wf
  dirtyRising := .nil
  dirtyInside := nofun
  allocatedRising := .nil
  allocatedPages := nofun

theorem reset_bounds (k : Nat) : (Chan.reset k).Bounds where
  ringPresent := by simp [Chan.reset]
  pendingCap := Nat.zero_le _
  stageShort := Nat.zero_le _
  offsetShort := nofun
  quietDrain := fun _ => rfl
  quietAbsent := fun _ => ⟨rfl, rfl⟩
  hostHasRing := fun h => absurd rfl h
  ringFits := nofun

theorem reset_position (k : Nat) : (Chan.reset k).Position where
  runningNeedsNoReset := nofun
  runningNoReset := nofun
  runningSize := nofun
  runningTotal := nofun
  runningFill := nofun
  runningIndex := nofun
  stoppedEmpty := fun _ => rfl
  stoppedFresh := fun _ _ => ⟨rfl, rfl⟩

theorem reset_owned : State.reset.owned = [] :=
  List.flatMap_eq_nil_iff.mpr (forall_reset fun _ => rfl)

theorem reset_installed (k : Nat) (sh : Shared) : (Chan.reset k).Installed sh where
  tables := nofun
  slotCount := nofun
  size := nofun
  queue := nofun

/-- Settles O8: after power-on there is no ring, no running unit and no byte in flight, and no page is allocated. -/
theorem powerOnInvariant : Obligations.PowerOnInvariant := by
  refine ⟨⟨reset_form, forall_reset reset_bounds, forall_reset reset_position, ?_, fun p => ?_⟩, forall_reset fun k =>
    ⟨Chan.Disciplined.of_stopped_free rfl rfl, reset_installed k _, Chan.NearQueue.of_empty rfl⟩⟩
  · rw [reset_owned]
    exact .nil
  · rw [reset_owned]
    exact Iff.rfl

/-! ### RD_DMA_BUFFER_MODE (45 R223) -/

/-- The fields of the word stand at their places of 30 R104. -/
theorem bufferModeWord_places (rst : Bool) (w n : SlotIx) :
    bufferModeWord rst w n = (BitVec.ofBool rst).setWidth 32 <<< 6 ||| w.setWidth 32 <<< 3 ||| n.setWidth 32 := by
  revert rst w n
  decide

theorem exec_rdDmaBufferMode_at {s : State} {c : Chan} (ha : s.At c) (hh : c.host = none) :
    exec .rdDmaBufferMode s =
      .next (s.put (finish (.word (readBufferMode s.cfg ⟨c, s.shared⟩).1) (readBufferMode s.cfg ⟨c, s.shared⟩).2)) :=
  call_at ha hh _

/-- A slot number of the count goes through three bits and the reduction by the count unchanged (log 5, log 14). -/
theorem slotIx_mod {c : Chan} {x : SlotIx} (h : x.toNat ≤ c.slotCountM1.toNat) : BitVec.ofNat 3 (x.toNat % modeSlots c) = x := by
  rw [Nat.mod_eq_of_lt (by unfold modeSlots; omega), BitVec.ofNat_toNat, BitVec.setWidth_eq]

/-- The unpaired read with a waiting draw. -/
theorem readBufferMode_unpaired {cfg : HwConfig} {c : Chan} {sh : Shared} {x : SlotIx} {waiting : List Nat}
    (haffected : cfg.erratumRewrite = true) (hen : c.en = true) (htrack : c.trackDirty = true)
    (hx : x.toNat ≤ c.slotCountM1.toNat) (hwaiting : c.spoilIn = x.toNat :: waiting) :
    readBufferMode cfg ⟨c, sh⟩ =
      (bufferModeWord c.rst x c.slotCountM1, ⟨{ c with writeIndex := x, spoilIn := waiting }, sh⟩) := by
  simp [readBufferMode, drawSpoiledIndex, haffected, hen, htrack, hwaiting, slotIx_mod hx, Local.withChan]

/-- Settles O15: the read without its side effect, after a write, and after an unpaired read (`readBufferMode_cases`); in the last
case every value of the range is what a waiting draw gives. -/
theorem bufferModeRead : Obligations.BufferModeRead := by
  refine ⟨rfl, regAt_eq_some_of_mem default_offsets_nodup ((mem_default_entries_iff _ _).mpr (by simp)), fun s c ha hh => ?_⟩
  intro word
  have hword (w : SlotIx) : bufferModeWord c.rst w c.slotCountM1 = word w := bufferModeWord_places _ _ _
  rw [exec_rdDmaBufferMode_at ha hh]
  refine ⟨fun hplain => ?plain, fun haffected hen htrack => ?tracked, fun haffected hen htrack => ⟨?spoils, ?draws⟩⟩
  case plain => rw [readBufferMode_plain hplain.symm, hword]; rfl
  case tracked => rw [readBufferMode_tracked hen haffected htrack, hword]; rfl
  case spoils =>
    obtain ⟨x, waiting, draws, -, hx, hread⟩ := readBufferMode_cases s.cfg ⟨c, s.shared⟩
    refine ⟨x, waiting, draws, hx ⟨haffected, hen, htrack⟩, ?_⟩
    rw [hread, hword]
    simp [finish, Local.withChan, htrack]
  case draws =>
    intro x waiting hx hwaiting
    rw [readBufferMode_unpaired haffected hen htrack hx hwaiting, hword]; rfl

/-! ### Raw accesses to host memory (20 R72) -/

theorem cpuWrite_past {s : State} {addr : Addr} {bytes : List Byte} (h : 2 ^ 64 < addr.toNat + bytes.length) :
    cpuWrite addr bytes s = .fault .outsideAddressSpace := if_pos h

theorem cpuWrite_inside {s : State} {addr : Addr} {bytes : List Byte} (h : addr.toNat + bytes.length ≤ 2 ^ 64) :
    cpuWrite addr bytes s =
      if touchesFrozenTable s.chans addr.toNat bytes.length then .refused .tableFrozen
      else onChannel s (hostCall fun l => .next (finish .ok (l.withShared (writeCpu l.shared addr.toNat bytes)))) :=
  if_neg (by omega)

/-- Settles O19: the write is held against the end of the address space, then against the tables of running units. -/
theorem rawMemoryAccess : Obligations.RawMemoryAccess := by
  intro s k c addr ts hat hfree
  have hplace : ((s.withSchedule ts).select k).At c := hat
  refine ⟨fun bytes hs => ?write, fun n hs => ?read⟩
  case write =>
    have hstep : step s = cpuWrite addr bytes ((s.withSchedule ts).select k) := step_of_schedule hs
    rw [hstep]
    refine ⟨cpuWrite_past, fun hin hne hfrozen => ?frozen, fun hin hclear => ?free⟩
    case frozen =>
      have hpos : 0 < bytes.length := List.length_pos_iff.mpr hne
      exact (cpuWrite_inside hin).trans (if_pos ((touchesFrozenTable_iff _ _ _).mpr ⟨hpos, hfrozen⟩))
    case free =>
      have hfree' : ¬touchesFrozenTable s.chans addr.toNat bytes.length = true := fun htouch => by
        obtain ⟨hpos, x, hx, hen, r, hr, t, ht, hlow, hhigh⟩ := (touchesFrozenTable_iff _ _ _).mp htouch
        rcases hclear with rfl | hclear
        · simp at hpos
        · rcases hclear x hx hen r hr t ht with h | h <;> omega
      refine ⟨.ok, writeCpu s.shared addr.toNat bytes, ?_, writeCpu_sameBooks _ _ _, mem_addRange _ _ _, fun v a => ?_⟩
      · exact (cpuWrite_inside hin).trans ((if_neg hfree').trans (call_at hplace hfree _))
      · rw [byteAt_writeCpu, List.getD_eq_getElem?_getD]
  case read =>
    have hstep : step s = cpuRead addr n ((s.withSchedule ts).select k) := step_of_schedule hs
    rw [hstep]
    refine ⟨fun hpast => if_pos hpast, fun hin hwf => ?_⟩
    rw [← readBytes_eq (v := .cpu) hwf]
    exact (if_neg (by omega)).trans (call_at hplace hfree _)

end Machine

end Sys2Proof
end

section
/-! SUPPORT. Proofs of the statements about RESET, START and STOP (41 R143, R144; 42 R170 to R173): what each of their steps leaves,
and what the steps of one call leave together (70 R303, R304). -/

namespace Sys2Proof.Machine

open Host (Outcome)

section
variable {s : State} {c : Chan} {r : Ring}

/-! ### The request of RESET and of START (41 R143) -/

theorem exec_reset_at (ha : s.At c) :
    exec .reset s = andThen (resetStep s.cfg ⟨c, s.shared⟩) fun l => .next (s.put l) := onChannel_at ha _

theorem exec_start_at (ha : s.At c) (pitch lines : Nat) :
    exec (.start pitch lines) s = andThen (startStep s.cfg pitch lines ⟨c, s.shared⟩) fun l => .next (s.put l) :=
  onChannel_at ha _

theorem exec_stop_at (ha : s.At c) : exec .stop s = andThen (stopStep ⟨c, s.shared⟩) fun l => .next (s.put l) :=
  onChannel_at ha _

/-- The memory after the request: the queue of a running unit has landed and the tables are published. -/
def requestedShared (r : Ring) (c : Chan) (sh : Shared) : Shared :=
  published r.table (if c.en then landed c.inflight sh else sh)

/-- Where the request is allowed it leaves `requestedChan`. -/
theorem resetRequest_taken {sh : Shared} (hring : c.ring = some r) (hshape : r.Shape)
    (hstate : c.ringState = .idle ∨ c.ringState = .armed) (hdrain : c.drainRunning = false)
    (htables : ∀ t ∈ r.table, t.toNat ∈ sh.allocated)
    (hqueue : c.en = true → ∀ e ∈ c.inflight, pageOf e.addr.toNat ∈ sh.allocated) :
    resetRequest ⟨c, sh⟩ = .next ⟨requestedChan r c, requestedShared r c sh⟩ := by
  have hcount : r.table.length ≤ 8 := by rw [hshape.tableCount]; exact hshape.slots.2
  have hpages : ∀ t ∈ r.table, rangeAllocated sh t.toNat Config.pageSize = true := fun t ht =>
    rangeAllocated_page (hshape.table_aligned ht) (htables t ht)
  exact (resetRequest_eq_next hring hshape.slots).mpr
    ⟨(idleOrArmed_iff c).mpr hstate, hdrain, hqueue, hcount, hpages, rfl⟩

theorem exec_reset_requests (ha : s.At c) (hh : c.host = none) (hring : c.ring = some r) (hshape : r.Shape)
    (hstate : c.ringState = .idle ∨ c.ringState = .armed) (hdrain : c.drainRunning = false)
    (htables : ∀ t ∈ r.table, t.toNat ∈ s.shared.allocated)
    (hqueue : c.en = true → ∀ e ∈ c.inflight, pageOf e.addr.toNat ∈ s.shared.allocated) :
    exec .reset s =
      .next (s.put ⟨{ requestedChan r c with host := some (.reset 1) }, requestedShared r c s.shared⟩) := by
  rw [exec_reset_at ha, resetStep, hh]
  simp only [resetRequest_taken hring hshape hstate hdrain htables hqueue, andThen_next, hostAt, Local.withChan]

/-! ### One read of the poll of a stopped unit (41 R144) -/

section
variable {cfg : HwConfig} {k : Nat} {l : Local} (hen : l.chan.en = false)
include hen

theorem pollRead_confirmed (hrst : l.chan.rst = false) : pollRead cfg k l = (.confirmed, l) := by
  rw [pollRead_off cfg k hen, if_neg (by simp [hrst])]

theorem pollRead_again (hrst : l.chan.rst = true) (hk : k < 100) : pollRead cfg k l = (.again, l) := by
  rw [pollRead_off cfg k hen, if_pos hrst, if_pos hk]

theorem pollRead_timedOut (hrst : l.chan.rst = true) (hk : 100 ≤ k) : pollRead cfg k l = (.timedOut, l) := by
  rw [pollRead_off cfg k hen, if_pos hrst, if_neg (Nat.not_lt.mpr hk)]

end

/-! ### The poll of RESET -/

section
variable {k : Nat} (ha : s.At c) (hh : c.host = some (.reset k))
include ha hh

theorem exec_reset_polls : exec .reset s = .next (s.put (resetPoll s.cfg k ⟨c, s.shared⟩)) := by
  rw [exec_reset_at ha, resetStep, hh]
  rfl

theorem exec_reset_confirmed (hen : c.en = false) (hrst : c.rst = false) :
    exec .reset s = .next (s.putChan { clearWorking c with ringState := .armed, host := none, result := .ok }) := by
  rw [exec_reset_polls ha hh, resetPoll, pollRead_confirmed (l := ⟨c, s.shared⟩) hen hrst]
  rfl

theorem exec_reset_again (hen : c.en = false) (hrst : c.rst = true) (hk : k < 100) :
    exec .reset s = .next (s.putChan { c with host := some (.reset (k + 1)) }) := by
  rw [exec_reset_polls ha hh, resetPoll, pollRead_again (l := ⟨c, s.shared⟩) hen hrst hk]
  rfl

theorem exec_reset_timedOut (hen : c.en = false) (hrst : c.rst = true) (hk : 100 ≤ k) :
    exec .reset s =
      .next (s.putChan { c with ringState := .idle, host := none, result := .error .hardwareResetFailed }) := by
  rw [exec_reset_polls ha hh, resetPoll, pollRead_timedOut (l := ⟨c, s.shared⟩) hen hrst hk]
  rfl

end

/-! ### The steps of START (42 R170, R171) -/

section
variable {pitch lines : Nat} (hh : c.host = none) (hring : c.ring = some r)
  (hstate : c.ringState = .idle ∨ c.ringState = .armed)
include hh hring hstate

theorem startStep_free {cfg : HwConfig} {sh : Shared} :
    startStep cfg pitch lines ⟨c, sh⟩ =
      if validParams r pitch lines then .next (hostAt (some (.start pitch lines .reset)) ⟨c, sh⟩)
      else .next (finish (.error .invalidParams) ⟨c, sh⟩) := by
  rw [startStep, hh, startValidate, if_pos ((idleOrArmed_iff c).mpr hstate), withRing_at hring (ringState_ne_absent hstate)]

theorem exec_start_validates (ha : s.At c) :
    exec (.start pitch lines) s =
      if validParams r pitch lines then .next (s.putChan { c with host := some (.start pitch lines .reset) })
      else .next (s.putChan { c with result := .error .invalidParams }) := by
  rw [exec_start_at ha, startStep_free hh hring hstate]
  split <;> rfl

end

/-- A START in progress takes the step of its phase. -/
theorem exec_start_phase {pitch lines : Nat} {phase : StartPhase} (ha : s.At c)
    (hh : c.host = some (.start pitch lines phase)) :
    exec (.start pitch lines) s =
      andThen (startPhase s.cfg pitch lines phase ⟨c, s.shared⟩) fun l => .next (s.put l) := by
  rw [exec_start_at ha, startStep, hh]
  simp

section
variable {pitch lines : Nat} (ha : s.At c)
include ha

theorem exec_start_requests (hh : c.host = some (.start pitch lines .reset)) (hring : c.ring = some r) (hshape : r.Shape)
    (hstate : c.ringState = .idle ∨ c.ringState = .armed) (hdrain : c.drainRunning = false)
    (htables : ∀ t ∈ r.table, t.toNat ∈ s.shared.allocated)
    (hqueue : c.en = true → ∀ e ∈ c.inflight, pageOf e.addr.toNat ∈ s.shared.allocated) :
    exec (.start pitch lines) s =
      .next (s.put ⟨{ requestedChan r c with host := some (.start pitch lines (.poll 1)) },
        requestedShared r c s.shared⟩) := by
  rw [exec_start_phase ha hh, startPhase]
  simp only [resetRequest_taken hring hshape hstate hdrain htables hqueue, andThen_next, hostAt, Local.withChan]

theorem exec_start_polls {k : Nat} (hh : c.host = some (.start pitch lines (.poll k))) :
    exec (.start pitch lines) s = .next (s.put (startPoll s.cfg pitch lines k ⟨c, s.shared⟩)) := by
  rw [exec_start_phase ha hh]
  rfl

theorem exec_start_confirmed {k : Nat} (hh : c.host = some (.start pitch lines (.poll k))) (hen : c.en = false)
    (hrst : c.rst = false) :
    exec (.start pitch lines) s =
      .next (s.putChan { clearWorking c with ringState := .armed, host := some (.start pitch lines .sizes) }) := by
  rw [exec_start_polls ha hh, startPoll, pollRead_confirmed (l := ⟨c, s.shared⟩) hen hrst]
  rfl

theorem exec_start_again {k : Nat} (hh : c.host = some (.start pitch lines (.poll k))) (hen : c.en = false)
    (hrst : c.rst = true) (hk : k < 100) :
    exec (.start pitch lines) s = .next (s.putChan { c with host := some (.start pitch lines (.poll (k + 1))) }) := by
  rw [exec_start_polls ha hh, startPoll, pollRead_again (l := ⟨c, s.shared⟩) hen hrst hk]
  rfl

theorem exec_start_timedOut {k : Nat} (hh : c.host = some (.start pitch lines (.poll k))) (hen : c.en = false)
    (hrst : c.rst = true) (hk : 100 ≤ k) :
    exec (.start pitch lines) s =
      .next (s.putChan { c with ringState := .idle, host := none, result := .error .hardwareResetFailed }) := by
  rw [exec_start_polls ha hh, startPoll, pollRead_timedOut (l := ⟨c, s.shared⟩) hen hrst hk]
  rfl

theorem exec_start_sizes (hh : c.host = some (.start pitch lines .sizes)) (hring : c.ring = some r)
    (hstate : c.ringState ≠ .absent) (hen : c.en = false) :
    exec (.start pitch lines) s = .next (s.putChan
      { c with
        blockSize := BitVec.ofNat 32 r.slotSize, totalSize := BitVec.ofNat 32 (r.nSlots * r.slotSize),
        host := some (.start pitch lines .clock) }) := by
  have hblock := (whileStopped_eq_next (l := ⟨c, s.shared⟩)
    (c := { c with blockSize := BitVec.ofNat 32 r.slotSize })).mpr ⟨hen, rfl⟩
  have htotal := (whileStopped_eq_next (l := ⟨{ c with blockSize := BitVec.ofNat 32 r.slotSize }, s.shared⟩)
    (c := { c with blockSize := BitVec.ofNat 32 r.slotSize, totalSize := BitVec.ofNat 32 (r.nSlots * r.slotSize) })).mpr
      ⟨hen, rfl⟩
  simp only [exec_start_phase ha hh, startPhase, startSizes, withRing_at hring hstate, writeBlockSize, writeTotalSize,
    Local.withChan] at hblock htotal ⊢
  simp only [hblock, htotal, andThen_next]
  rfl

theorem exec_start_clock (hh : c.host = some (.start pitch lines .clock)) :
    exec (.start pitch lines) s =
      .next (s.putChan { c with clockMode := .external, host := some (.start pitch lines .enable) }) := by
  rw [exec_start_phase ha hh]
  rfl

theorem exec_start_enables (hh : c.host = some (.start pitch lines .enable)) (hen : c.en = false)
    (hallowed : enableRefusal c = none) :
    exec (.start pitch lines) s = .next (s.putChan { c with en := true, host := some (.start pitch lines .irq) }) := by
  rw [exec_start_phase ha hh, startPhase, writeEnable_enable (by decide) hen, enableUnit_taken hallowed]
  rfl

theorem exec_start_irq (hh : c.host = some (.start pitch lines .irq)) :
    exec (.start pitch lines) s =
      .next (s.putChan { c with intEnable := true, ringState := .streaming, host := none, result := .ok }) := by
  rw [exec_start_phase ha hh]
  rfl

/-! ### The steps of STOP (42 R172, R173) -/

theorem exec_stop_phase {phase : StopPhase} (hh : c.host = some (.stop phase)) :
    exec .stop s = andThen (stopPhase phase ⟨c, s.shared⟩) fun l => .next (s.put l) := by
  rw [exec_stop_at ha, stopStep, hh]

omit ha in
theorem stopStep_streaming {sh : Shared} (hh : c.host = none) (hstate : c.ringState = .streaming) :
    stopStep ⟨c, sh⟩ = .next (hostAt (some (.stop .join)) (writeIntEnable 0 ⟨c, sh⟩)) := by
  rw [stopStep, hh, if_pos hstate]

theorem exec_stop_begins (hh : c.host = none) (hstate : c.ringState = .streaming) :
    exec .stop s = .next (s.putChan { c with intEnable := false, host := some (.stop .join) }) := by
  rw [exec_stop_at ha, stopStep_streaming hh hstate]
  rfl

theorem exec_stop_waits (hh : c.host = some (.stop .join)) (hdrain : c.drainRunning = true) :
    exec .stop s = .refused .joinWaits := by
  rw [exec_stop_phase ha hh, stopPhase, if_pos hdrain, andThen_refused]

theorem exec_stop_joins (hh : c.host = some (.stop .join)) (hdrain : c.drainRunning = false) :
    exec .stop s = .next (s.putChan { c with pending := 0, host := some (.stop .disable) }) := by
  rw [exec_stop_phase ha hh, stopPhase, if_neg (by simp [hdrain])]
  rfl

theorem exec_stop_disabled (hh : c.host = some (.stop .disable)) (hen : c.en = false) :
    exec .stop s = .next (s.putChan { c with host := some (.stop .clock) }) := by
  rw [exec_stop_phase ha hh, stopPhase, writeEnable_zero_off hen]
  rfl

theorem exec_stop_disables (hh : c.host = some (.stop .disable)) (hen : c.en = true)
    (hqueue : ∀ e ∈ c.inflight, pageOf e.addr.toNat ∈ s.shared.allocated) :
    exec .stop s = .next (s.put
      ⟨{ c with en := false, inflight := [], needsReset := true, host := some (.stop .clock) },
        landed c.inflight s.shared⟩) := by
  rw [exec_stop_phase ha hh, stopPhase, writeEnable_disable (by decide) hen, disableUnit_landed hqueue]
  rfl

theorem exec_stop_clock (hh : c.host = some (.stop .clock)) :
    exec .stop s =
      .next (s.putChan { c with clockMode := .internal, ringState := .idle, host := none, result := .ok }) := by
  rw [exec_stop_phase ha hh]
  simp only [stopPhase, setClock, hostAt, finish, Local.withChan, andThen_next, State.putChan]

end

end

/-! ### The settled statements about single steps -/

/-- Settles O27: the request's registers are those of `requestedChan`, its tables those `installedChan_spec` gives. -/
theorem resetRequestEffect : Obligations.ResetRequestEffect := by
  intro s c r ha hh hring hshape hstate hdrain htables hqueue
  obtain ⟨hinstalled, hkept⟩ := installedChan_spec r.table c
  rw [hshape.tableCount] at hkept
  exact ⟨_, _, exec_reset_requests ha hh hring hshape hstate hdrain htables hqueue, hinstalled, hkept⟩

/-- Settles O28: with the unit stopped the read of the poll shows `RST` as it is, and the count of reads decides the rest. -/
theorem resetPollOutcomes : Obligations.ResetPollOutcomes := fun _ _ _ ha hh hen =>
  ⟨exec_reset_confirmed ha hh hen, exec_reset_again ha hh hen, exec_reset_timedOut ha hh hen⟩

theorem validParams_iff (r : Ring) (pitch lines : Nat) :
    validParams r pitch lines = true ↔
      1 ≤ pitch ∧ 1 ≤ lines ∧ pitch * lines = r.slotSize ∧ pitch * lines % 188 = 0 := by
  simp [validParams, Config.packetSize, and_assoc]

/-- Settles O32: the four clauses are `validParams`. -/
theorem startValidation : Obligations.StartValidation := by
  intro s c r pitch lines ha hh hring hstate
  rw [← validParams_iff, exec_start_validates hh hring hstate ha]
  exact ⟨fun hvalid => if_pos hvalid, fun hinvalid => if_neg hinvalid⟩

/-- Settles O33: one lemma for each phase. -/
theorem startSteps : Obligations.StartSteps := by
  intro s c r pitch lines ha hring hstate
  refine ⟨fun k hh hen => ⟨exec_start_confirmed ha hh hen, exec_start_again ha hh hen, exec_start_timedOut ha hh hen⟩,
    fun hh hen => exec_start_sizes ha hh hring hstate hen, exec_start_clock ha, ?enable, exec_start_irq ha⟩
  intro hh hen hneeds hrst hnonzero hfits htotal
  exact exec_start_enables ha hh hen (enableRefusal_eq_none.mpr ⟨hneeds, hrst, hnonzero, hfits, htotal⟩)

/-- Settles O36: one lemma for each phase. -/
theorem stopSteps : Obligations.StopSteps := fun _ _ ha =>
  ⟨exec_stop_begins ha, fun hh => ⟨fun hdrain => ⟨_, exec_stop_waits ha hh hdrain⟩, exec_stop_joins ha hh⟩,
    fun hh => ⟨exec_stop_disabled ha hh, exec_stop_disables ha hh⟩, exec_stop_clock ha⟩

end Sys2Proof.Machine
end

section
/-! SUPPORT. Proofs of the statements about RESET, START and STOP as a whole (41 R143, R144; 70 R303, R304): their steps one after
the other, with RST_DONE where the hardware answers. -/

namespace Sys2Proof.Machine

open Host (Outcome)

/-! ### Operations one after the other -/

theorem runOps_cons {i : Instr} {is : List Instr} {s t : State} (h : exec i s = .next t) :
    runOps (i :: is) s = runOps is t := by
  rw [runOps, h, andThen_next]

/-- The next operation from a place that the ones before have left. -/
theorem runOps_put {i : Instr} {is : List Instr} {s : State} {l l' : Local}
    (h : exec i (s.put l) = .next ((s.put l).put l')) : runOps (i :: is) (s.put l) = runOps is (s.put l') := by
  rw [runOps_cons h, put_put]

/-! ### RESET as a whole -/

/-- The reads of a poll that no RST_DONE answers, from the `k`-th on. -/
theorem runOps_polls {s : State} {n k : Nat} {c : Chan} (hk : k + n = 100) (ha : s.At c) (hh : c.host = some (.reset k))
    (hen : c.en = false) (hrst : c.rst = true) :
    runOps (List.replicate (n + 1) .reset) s =
      .next (s.putChan { c with ringState := .idle, host := none, result := .error .hardwareResetFailed }) := by
  induction n generalizing s k c with
  | zero =>
    rw [List.replicate_succ, runOps_cons (exec_reset_timedOut ha hh hen hrst (by omega))]
    rfl
  | succ n ih =>
    rw [List.replicate_succ, runOps_cons (exec_reset_again ha hh hen hrst (by omega))]
    have hnext := put_at ha ⟨{ c with host := some (.reset (k + 1)) }, s.shared⟩
    refine (ih (by omega) hnext rfl hen hrst).trans ?_
    simp only [State.putChan, put_put, State.put_shared]

/-- A stopped channel whose reset is confirmed: the registers as the request and RST_DONE leave them (10 R47, second column), the
working registers anew. -/
def resetChan (r : Ring) (c : Chan) : Chan :=
  { clearWorking (resetDone (requestedChan r c)) with ringState := .armed }

section
variable {s : State} {c : Chan} {r : Ring} (ha : s.At c) (hh : c.host = none) (hring : c.ring = some r) (hshape : r.Shape)
  (hstate : c.ringState = .idle ∨ c.ringState = .armed) (hdrain : c.drainRunning = false)
  (htables : ∀ t ∈ r.table, t.toNat ∈ s.shared.allocated) (hen : c.en = false)
include hen

theorem requestedShared_stopped (sh : Shared) : requestedShared r c sh = published r.table sh := by
  simp [requestedShared, hen]

include ha hh hring hshape hstate hdrain htables

theorem runOps_reset_confirmed :
    runOps [.reset, .rstDone, .reset] s =
      .next (s.put ⟨{ resetChan r c with host := none, result := .ok }, published r.table s.shared⟩) := by
  have hrequest := exec_reset_requests ha hh hring hshape hstate hdrain htables (by simp [hen])
  rw [requestedShared_stopped hen] at hrequest
  have hrequested := put_at ha ⟨{ requestedChan r c with host := some (.reset 1) }, published r.table s.shared⟩
  have hdone := put_at ha ⟨resetDone { requestedChan r c with host := some (.reset 1) }, published r.table s.shared⟩
  calc runOps [.reset, .rstDone, .reset] s
    _ = _ := runOps_cons hrequest
    _ = _ := runOps_put (exec_rstDone_at hrequested rfl)
    _ = _ := runOps_put (exec_reset_confirmed hdone rfl rfl rfl)

theorem runOps_reset_timedOut :
    runOps (.reset :: List.replicate 100 .reset) s =
      .next (s.put ⟨{ requestedChan r c with ringState := .idle, host := none, result := .error .hardwareResetFailed },
        published r.table s.shared⟩) := by
  have hrequest := exec_reset_requests ha hh hring hshape hstate hdrain htables (by simp [hen])
  rw [requestedShared_stopped hen] at hrequest
  have hrequested := put_at ha ⟨{ requestedChan r c with host := some (.reset 1) }, published r.table s.shared⟩
  refine (runOps_cons hrequest).trans ((runOps_polls (k := 1) (n := 99) rfl hrequested rfl rfl rfl).trans ?_)
  simp only [State.putChan, put_put, State.put_shared]

end

/-- Settles O29: the request, then either RST_DONE and one read, or the hundred reads of `runOps_polls`. -/
theorem resetRuns : Obligations.ResetRuns := by
  intro s c r ha hh hring hshape hstate hdrain hen htables
  obtain ⟨hinstalled, hkept⟩ := installedChan_spec r.table c
  rw [hshape.tableCount] at hkept
  refine ⟨_, _, hinstalled, hkept, ?confirmed, ?timedOut⟩
  case confirmed =>
    rw [runOps_reset_confirmed ha hh hring hshape hstate hdrain htables hen]
    simp only [resetChan, clearWorking, resetDone, requestedChan, installedChan, hen, hh]
  case timedOut =>
    rw [runOps_reset_timedOut ha hh hring hshape hstate hdrain htables hen]
    simp only [requestedChan, installedChan, hen, hh, Bool.false_or, Bool.false_eq_true, if_false]

/-! ### START as a whole -/

/-- The total size of a ring fits its register: 8 slots of 2 MiB at the most. -/
theorem Ring.Shape.sizes_toNat {r : Ring} (h : r.Shape) :
    (BitVec.ofNat 32 r.slotSize).toNat = r.slotSize ∧
      (BitVec.ofNat 32 (r.nSlots * r.slotSize)).toNat = r.nSlots * r.slotSize := by
  obtain ⟨-, hslots⟩ := h.slots
  obtain ⟨-, hsize⟩ := h.size
  have hn : r.nSlots ≤ 8 := hslots
  have hs : r.slotSize ≤ 2097152 := hsize
  have htotal : r.nSlots * r.slotSize ≤ 8 * 2097152 := Nat.mul_le_mul hn hs
  constructor <;> rw [BitVec.toNat_ofNat, Nat.mod_eq_of_lt (by omega)]

/-- The sizes START writes are ones the unit can be enabled with. -/
theorem enableRefusal_sized {r : Ring} {c : Chan} (hshape : r.Shape) (hneeds : c.needsReset = false) (hrst : c.rst = false)
    (hcount : c.slotCountM1 = BitVec.ofNat 3 (r.nSlots - 1)) (hblock : c.blockSize = BitVec.ofNat 32 r.slotSize)
    (htotal : c.totalSize = BitVec.ofNat 32 (r.nSlots * r.slotSize)) : enableRefusal c = none := by
  obtain ⟨hblock', htotal'⟩ := hshape.sizes_toNat
  have hslots : modeSlots c = r.nSlots := modeSlots_ofNat hshape.slots hcount
  rw [enableRefusal_eq_none, hblock, htotal, hblock', htotal', hslots]
  exact ⟨hneeds, hrst, by have := hshape.size.1; omega, hshape.size.2, rfl⟩

/-- A channel that START has brought up, from one whose reset is confirmed. -/
def startedChan (r : Ring) (c : Chan) : Chan :=
  { c with
    blockSize := BitVec.ofNat 32 r.slotSize, totalSize := BitVec.ofNat 32 (r.nSlots * r.slotSize), clockMode := .external,
    en := true, intEnable := true, ringState := .streaming, host := none, result := .ok }

/-- The steps of START after its reset is confirmed. -/
theorem runOps_start_confirmed {s : State} {c : Chan} {r : Ring} {pitch lines : Nat} (ha : s.At c) (hring : c.ring = some r)
    (hshape : r.Shape) (hstate : c.ringState = .armed) (hen : c.en = false) (hneeds : c.needsReset = false)
    (hrst : c.rst = false) (hcount : c.slotCountM1 = BitVec.ofNat 3 (r.nSlots - 1))
    (hh : c.host = some (.start pitch lines .sizes)) :
    runOps [.start pitch lines, .start pitch lines, .start pitch lines, .start pitch lines] s =
      .next (s.putChan (startedChan r c)) := by
  have hsizes := exec_start_sizes ha hh hring (by simp [hstate]) hen
  have hsized := put_at ha ⟨{ c with
    blockSize := BitVec.ofNat 32 r.slotSize, totalSize := BitVec.ofNat 32 (r.nSlots * r.slotSize),
    host := some (.start pitch lines .clock) }, s.shared⟩
  have hclocked := put_at ha ⟨{ c with
    blockSize := BitVec.ofNat 32 r.slotSize, totalSize := BitVec.ofNat 32 (r.nSlots * r.slotSize), clockMode := .external,
    host := some (.start pitch lines .enable) }, s.shared⟩
  have henabled := put_at ha ⟨{ c with
    blockSize := BitVec.ofNat 32 r.slotSize, totalSize := BitVec.ofNat 32 (r.nSlots * r.slotSize), clockMode := .external,
    en := true, host := some (.start pitch lines .irq) }, s.shared⟩
  calc runOps [.start pitch lines, .start pitch lines, .start pitch lines, .start pitch lines] s
    _ = _ := runOps_cons hsizes
    _ = _ := runOps_put (exec_start_clock hsized rfl)
    _ = _ := runOps_put (exec_start_enables hclocked rfl hen (enableRefusal_sized hshape hneeds hrst hcount rfl rfl))
    _ = _ := runOps_put (exec_start_irq henabled rfl)

/-- Settles O34: the validation, the request, RST_DONE and the confirmed read, then the four steps of `runOps_start_confirmed`. -/
theorem bringUp : Obligations.BringUp := by
  intro s c r pitch lines ha hh hring hshape hstate hdrain hen htables hpitch hlines hproduct hpackets
  obtain ⟨hinstalled, hkept⟩ := installedChan_spec r.table c
  rw [hshape.tableCount] at hkept
  refine ⟨_, _, hinstalled, hkept, ?_⟩
  have hvalidated := exec_start_validates (pitch := pitch) (lines := lines) hh hring hstate ha
  rw [if_pos ((validParams_iff _ _ _).mpr ⟨hpitch, hlines, hproduct, hproduct ▸ hpackets⟩)] at hvalidated
  let c₁ : Chan := { c with host := some (.start pitch lines .reset) }
  have hat₁ : (s.put ⟨c₁, s.shared⟩).At c₁ := put_at ha _
  have hrequest := exec_start_requests hat₁ rfl hring hshape hstate hdrain htables (by simp [c₁, hen])
  rw [requestedShared_stopped (c := c₁) hen] at hrequest
  have hat₂ := put_at ha ⟨{ requestedChan r c₁ with host := some (.start pitch lines (.poll 1)) }, published r.table s.shared⟩
  have hat₃ := put_at ha
    ⟨resetDone { requestedChan r c₁ with host := some (.start pitch lines (.poll 1)) }, published r.table s.shared⟩
  have hat₄ := put_at ha
    ⟨{ resetChan r c₁ with host := some (.start pitch lines .sizes) }, published r.table s.shared⟩
  refine (runOps_cons hvalidated).trans ((runOps_put hrequest).trans ((runOps_put (exec_rstDone_at hat₂ rfl)).trans
    ((runOps_put (exec_start_confirmed hat₃ rfl rfl rfl)).trans
      ((runOps_start_confirmed hat₄ hring hshape rfl rfl rfl rfl rfl rfl).trans ?_))))
  simp only [State.putChan, put_put, State.put_shared, startedChan, resetChan, clearWorking, resetDone, requestedChan,
    installedChan, c₁, hh]

/-! ### STOP as a whole -/

/-- Settles O37: the four steps of STOP, the third with the queue's landing. -/
theorem shutDown : Obligations.ShutDown := by
  intro s c ha hh hstate hdrain hen hqueue
  have hat₁ := put_at ha ⟨{ c with intEnable := false, host := some (.stop .join) }, s.shared⟩
  have hat₂ := put_at ha ⟨{ c with intEnable := false, pending := 0, host := some (.stop .disable) }, s.shared⟩
  have hat₃ := put_at ha ⟨{ c with
    intEnable := false, pending := 0, en := false, inflight := [], needsReset := true, host := some (.stop .clock) },
    landed c.inflight s.shared⟩
  refine (runOps_cons (exec_stop_begins ha hh hstate)).trans ((runOps_put (exec_stop_joins hat₁ rfl hdrain)).trans
    ((runOps_put (exec_stop_disables hat₂ rfl hen hqueue)).trans ((runOps_put (exec_stop_clock hat₃ rfl)).trans ?_)))
  simp only [runOps, State.put_shared, hh]

end Sys2Proof.Machine
end

section
/-! SUPPORT. Proofs of the statements about INSTALL_TABLES and INIT (40 R135; 41 R141). -/

namespace Sys2Proof.Machine

open Host (Outcome)

/-! ### INSTALL_TABLES (40 R135) -/

/-- What answers no next state and does not fault is refused. -/
theorem Sound.refused {α : Type} {x : Out α} (h : Sound x) (hnext : ∀ a, x ≠ .next a) : ∃ r, x = .refused r := by
  cases x with
  | next a => exact absurd rfl (hnext a)
  | fault e => exact absurd rfl (h e)
  | refused r => exact ⟨r, rfl⟩

section
variable {s : State} {c : Chan} {r : Ring} (ha : s.At c) (hh : c.host = none)
include ha hh

theorem exec_installTables_at :
    exec .installTables s =
      andThen (withRing c fun r => andThen (installTables r ⟨c, s.shared⟩) fun l => .next (finish .ok l)) fun l =>
        .next (s.put l) := call_at ha hh _

theorem exec_installTables_refused
    (h : ∃ x, (withRing c fun r => andThen (installTables r ⟨c, s.shared⟩) fun l => .next (finish .ok l)) = .refused x) :
    ∃ x, exec .installTables s = .refused x := by
  obtain ⟨x, hx⟩ := h
  exact ⟨x, by rw [exec_installTables_at ha hh, hx, andThen_refused]⟩

variable (hring : c.ring = some r) (hstate : c.ringState ≠ .absent) (hshape : r.Shape)
include hring hstate hshape

theorem exec_installTables_taken (htables : ∀ t ∈ r.table, t.toNat ∈ s.shared.allocated) (hen : c.en = false) :
    exec .installTables s =
      .next (s.put ⟨{ installedChan 0 r.table c with result := .ok }, published r.table s.shared⟩) := by
  have hpages : ∀ t ∈ r.table, rangeAllocated s.shared t.toNat Config.pageSize = true := fun t ht =>
    rangeAllocated_page (hshape.table_aligned ht) (htables t ht)
  have hcount : r.table.length ≤ 8 := by rw [hshape.tableCount]; exact hshape.slots.2
  have hinstall := (installTables_eq_next (r := r) (l := ⟨c, s.shared⟩)).mpr ⟨fun _ => hen, hcount, hpages, rfl⟩
  rw [exec_installTables_at ha hh, withRing_at hring hstate, hinstall]
  rfl

theorem exec_installTables_running (hen : c.en = true) : ∃ x, exec .installTables s = .refused x := by
  refine exec_installTables_refused ha hh ?_
  rw [withRing_at hring hstate]
  refine Sound.refused ((installTables_sound r _).andThen fun _ => sound_next _) fun l hl => ?_
  obtain ⟨l', hinstall, -⟩ := andThen_eq_next.mp hl
  obtain ⟨hstopped, -⟩ := installTables_eq_next.mp hinstall
  simp [hen, hshape.table_ne_nil] at hstopped

end

/-- Settles O22: the registers are those `installedChan_spec` gives, the memory that of `published_spec`. -/
theorem installTablesEffect : Obligations.InstallTablesEffect := by
  intro s c ha hh
  refine ⟨fun r hring hstate hshape htables hform => ⟨fun hen => ?taken, exec_installTables_running ha hh hring hstate hshape⟩,
    fun habsent => ?absent⟩
  case taken =>
    obtain ⟨hinstalled, hkept⟩ := installedChan_spec r.table c
    rw [hshape.tableCount] at hkept
    exact ⟨_, _, _, _, exec_installTables_taken ha hh hring hstate hshape htables hen, hinstalled, hkept,
      published_spec (fun t ht => hform.page_bound (htables t ht)) hform⟩
  case absent =>
    exact exec_installTables_refused ha hh ⟨_, withRing_absent habsent _⟩

/-! ### INIT (41 R141) -/

theorem exec_init_at {s : State} {c : Chan} (ha : s.At c) (hh : c.host = none) (n size : Nat) :
    exec (.init n size) s = andThen (initRing n size ⟨c, s.shared⟩) fun l => .next (s.put l) := call_at ha hh _

/-- Freeing the pages just obtained gives back the same list of allocated pages. -/
theorem freed_allocated {k : Nat} {got : List Addr} {sh sh₁ : Shared} {ok : Bool} (hf : sh.Form)
    (h : allocPages k [] sh = (ok, got, sh₁)) : (freePages sh₁ got).allocated = sh.allocated := by
  obtain ⟨new, hgot, -, -, -, hpages, halloc, hform⟩ := allocPages_spec h
  obtain rfl : got = new := hgot
  have hquiet : sh.Quiet (freePages sh₁ got) :=
    freed_quiet halloc (fun p hp => (hpages p hp).2) rfl hform fun v _ ha => allocPages_bytes (new := got) h v ha
  exact (hquiet.form hf).allocatedRising.eq_of_mem_iff hf.allocatedRising hquiet.allocated

/-- The endings of INIT on its channel: with a ring, or with one of two errors and no page allocated. -/
theorem initRing_endings {c : Chan} {sh : Shared} {n size : Nat} (hf : sh.Form) (habsent : c.ringState = .absent)
    (hen : c.en = false) (hn : 1 ≤ n ∧ n ≤ 8) (hs : 1 ≤ size) :
    ∃ c' sh', initRing n size ⟨c, sh⟩ = .next ⟨c', sh'⟩ ∧
      ((c'.result = .ok ∧ c'.ringState = .idle ∧ ∃ r, c'.ring = some r ∧ r.nSlots = n ∧ r.slotSize = size) ∨
        (c' = { c with result := .error .allocationFailure } ∧ sh'.allocated = sh.allocated) ∨
        (c' = { c with result := .error .tableOverflow } ∧ sh'.allocated = sh.allocated ∧ 2097152 < size)) := by
  rcases hgiven : allocPages (initPages n size) [] sh with ⟨ok, got, sh₁⟩
  have hfreed := freed_allocated hf hgiven
  cases ok with
  | false => exact ⟨_, _, initRing_short habsent hn hs hgiven, .inr (.inl ⟨rfl, hfreed⟩)⟩
  | true =>
    by_cases hP : pagesFor size ≤ 512
    · exact ⟨_, _, initRing_done hen habsent hn.1 hn.2 hs hP hgiven, .inl ⟨rfl, rfl, _, rfl, rfl, rfl⟩⟩
    · have hlarge : 2097152 < size := by rw [pagesFor_eq] at hP; omega
      exact ⟨_, _, initRing_overflow habsent hn hs (not_le.mp hP) hgiven, .inr (.inr ⟨rfl, hfreed, hlarge⟩)⟩

/-- Settles O25: the endings are those of `initRing_endings`; any other operand or state fails INIT's one test. -/
theorem initEndings : Obligations.InitEndings := by
  intro s c n size ha hh hf
  rw [exec_init_at ha hh]
  refine ⟨fun habsent hen hn1 hn8 hs => ?ends, fun hbad => ?refused⟩
  case ends =>
    obtain ⟨c', sh', hinit, hending⟩ := initRing_endings hf habsent hen ⟨hn1, hn8⟩ hs
    exact ⟨c', sh', by rw [hinit, andThen_next], hending⟩
  case refused =>
    have hfails : ¬(c.ringState = .absent ∧ 1 ≤ n ∧ n ≤ Config.maxSlots ∧ 1 ≤ size) := by
      rintro ⟨habsent, hn1, hn8, hs⟩
      have hn8' : n ≤ 8 := hn8
      rcases hbad with h | h | h | h
      · exact h habsent
      all_goals omega
    exact ⟨_, by rw [initRing, if_neg hfails, andThen_refused]⟩

/-! ### INIT with an allocator that answers (41 R141, log 5, log 6) -/

theorem builtAll_allocIn (ps : List (List Addr × Addr)) (sh : Shared) : (builtAll ps sh).allocIn = sh.allocIn := by
  induction ps generalizing sh with
  | nil => rfl
  | cons x ps ih => exact ih _

section
variable {n size : Nat} {got : List Addr} {sh sh₁ : Shared}

/-- The memory as INIT leaves it. -/
def initShared (n size : Nat) (got : List Addr) (sh : Shared) : Shared :=
  published (ringOf n size got).table (builtAll ((ringOf n size got).pages.zip (ringOf n size got).table) sh)

/-- The spare page is the last page got. -/
theorem ringOf_spare (hlen : got.length = initPages n size) :
    got[n * pagesFor size + n]? = some (ringOf n size got).spare := by
  have hlt : n * pagesFor size + n < got.length := by rw [hlen, initPages]; omega
  rw [show (ringOf n size got).spare = got.getD (n * pagesFor size + n) 0 from rfl, List.getD_eq_getElem?_getD,
    List.getElem?_eq_getElem hlt, Option.getD_some]

/-- Slot `i` of the ring: pages and a table page of those got, at the places the order of roles gives them. -/
theorem ringOf_roles (hlen : got.length = initPages n size) {i : Nat} (hi : i < n) :
    ∃ ps t, (ringOf n size got).pages[i]? = some ps ∧ (ringOf n size got).table[i]? = some t ∧ ps.length = pagesFor size ∧
      (∀ j, j < pagesFor size → ps[j]? = got[i * pagesFor size + j]?) ∧ got[n * pagesFor size + i]? = some t := by
  obtain ⟨hpages, htable⟩ := ringOf_slot size got hi
  have hlt : n * pagesFor size + i < got.length := by rw [hlen, initPages]; omega
  have ht := List.getElem?_eq_getElem hlt
  exact ⟨_, _, hpages, htable.trans ht, slotPages_length hlen hi, fun j hj => slotPages_getElem? got i hj, ht⟩

variable (hgiven : allocPages (initPages n size) [] sh = (true, got, sh₁)) (hlen : got.length = initPages n size)
include hgiven hlen

/-- The memory once every table is built. -/
theorem builtTables_spec (hs : 1 ≤ size) (hP : pagesFor size ≤ 512) :
    (sh.Form → (builtAll ((ringOf n size got).pages.zip (ringOf n size got).table) sh₁).Form) ∧
    (∀ x ∈ (ringOf n size got).pages.zip (ringOf n size got).table, x.1.length ≤ 512) := by
  obtain ⟨new, hgot, -, -, hnd, hpg, hal, hform⟩ := allocPages_spec hgiven
  obtain rfl : got = new := hgot
  have hin : ∀ p ∈ got, p.toNat % 4096 = 0 ∧ p.toNat ∈ sh₁.allocated :=
    fun p hp => ⟨(hpg p hp).1, (hal _).mpr (.inr (List.mem_map_of_mem hp))⟩
  have hzip : ∀ x ∈ (ringOf n size got).pages.zip (ringOf n size got).table,
      buildAllowed sh₁ x.1 x.2 = true ∧ x.1.length ≤ 512 := fun x hx => by
    obtain ⟨hallowed, hlength⟩ := ringOf_zip_allowed hlen hs (List.Nodup.of_map _ hnd) hin hx
    exact ⟨hallowed, by rw [hlength]; exact hP⟩
  obtain ⟨hkeeps, -, -⟩ := buildAll_cases (buildAll_ok hzip)
  exact ⟨fun hf => hkeeps (hform hf), fun x hx => (hzip x hx).2⟩

theorem initShared_rest (hf : sh.Form) (hs : 1 ≤ size) (hP : pagesFor size ≤ 512) :
    (initShared n size got sh₁).allocIn = sh₁.allocIn ∧
    (∀ t ∈ (ringOf n size got).table, ∀ a, t.toNat ≤ a → a < t.toNat + 4096 → a ∉ (initShared n size got sh₁).dirty) ∧
    (∀ a, a ∈ (initShared n size got sh₁).dirty ↔ a ∈ sh.dirty ∧ ∀ q ∈ got, pageOf a ≠ q.toNat) := by
  obtain ⟨new, hgot, -, -, -, hpg, -, hform⟩ := allocPages_spec hgiven
  obtain rfl : got = new := hgot
  obtain ⟨hbuilt, hshort⟩ := builtTables_spec hgiven hlen hs hP
  have hpages : ∀ t ∈ (ringOf n size got).table, t.toNat % 4096 = 0 := fun t ht => (hpg t (ringOf_table_mem t ht)).1
  have hbound : ∀ t ∈ (ringOf n size got).table, t.toNat + 4096 ≤ 2 ^ 64 := fun t ht => by
    have := hpages t ht
    have := t.isLt
    omega
  obtain ⟨⟨-, -, hallocIn, -⟩, hdirty, -⟩ := published_spec hbound (hbuilt hf)
  refine ⟨hallocIn.trans ?_, fun t ht a hlow hhigh hmem => ((hdirty a).mp hmem).2 t ht ⟨hlow, hhigh⟩, fun a => ?_⟩
  · exact builtAll_allocIn _ _
  · refine (hdirty a).trans ?_
    rw [builtAll_dirty hshort, allocPages_dirty (got₀ := []) hgiven]
    have hmem : ∀ x ∈ (ringOf n size got).pages.zip (ringOf n size got).table, x.2 ∈ (ringOf n size got).table :=
      fun x hx => (List.of_mem_zip hx).2
    constructor
    · rintro ⟨hold | ⟨x, hx, hin⟩, hout⟩
      · exact hold
      · exact absurd hin (hout x.2 (hmem x hx))
    · rintro ⟨hold, hnew⟩
      exact ⟨.inl ⟨hold, hnew⟩, fun t ht hin => hnew t (ringOf_table_mem t ht) ((pageOf_eq_iff (hpages t ht) a).mpr hin)⟩

end

/-- Settles O24: the allocator gives exactly its answers, and what INIT makes of them is `initRing_done`; the roles of the pages,
the tables, the bytes and `dirty` are said by `ringOf_roles`, `ringOf_newRing` and `initShared_rest`. -/
theorem initMakesRing : Obligations.InitMakesRing := by
  intro s c n size got rest ha hh hf habsent hen hn1 hn8 hs hP hanswers hcount hnodup hfresh
  rw [← pagesFor_eq] at hP hcount
  obtain ⟨sh₁, hgiven, hrest⟩ := allocPages_given (got₀ := []) hanswers hnodup hfresh
  rw [List.nil_append, hcount] at hgiven
  have hnew : NewRing (ringOf n size got) s.shared (initShared n size got sh₁) := ringOf_newRing ⟨hn1, hn8⟩ hs hP hgiven
  obtain ⟨hallocIn, hclean, hdirty⟩ := initShared_rest hgiven hcount hf hs hP
  obtain ⟨hinstalled, hkept⟩ := installedChan_spec (ringOf n size got).table c
  have htables : (ringOf n size got).table.length = n := hnew.shape.tableCount
  have hpages : ringPages (ringOf n size got) = got := ringPages_ringOf hcount
  refine ⟨ringOf n size got, _, _, initShared n size got sh₁, ?ends, ⟨rfl, rfl, rfl, hnew.shape.pagesCount, htables⟩,
    fun i hi => ?slots, ringOf_spare hcount, fun k hk => hkept k (by rwa [htables]), fun p => ?allocated, hallocIn.trans hrest,
    hdirty, fun v a hout => hnew.kept hf v a (by rwa [hpages])⟩
  case ends =>
    rw [exec_init_at ha hh, initRing_done hen habsent hn1 hn8 hs hP hgiven]
    rfl
  case slots =>
    obtain ⟨ps, t, hps, ht, hlength, hdata, hrole⟩ := ringOf_roles hcount hi
    refine ⟨ps, t, hps, ht, hlength, hdata, hrole, fun k hk => hinstalled k t (by rw [hk]; exact ht), fun v a hlow hhigh =>
      ⟨?_, hclean t (List.mem_of_getElem? ht) a hlow hhigh⟩⟩
    have hbyte := hnew.tables hf i ps t hps ht v (a - t.toNat) (show a - t.toNat < 4096 by omega)
    rwa [Nat.add_sub_cancel' hlow] at hbyte
  case allocated =>
    rw [hnew.allocated, hpages]
    simp [eq_comm]

end Sys2Proof.Machine
end

section
/-! SUPPORT. Proofs of the statements about calls that have no step (93 section 3), about the slots of a pass (44 R203, R207; 10 R41),
about DRAIN_END (44 R205) and about CAP_BYTE (45 R240). -/

namespace Sys2Proof.Machine

open Host (Outcome)

/-! ### Calls while the HOST is inside an operation (log 10) -/

section
variable {s : State} {c : Chan} {w : HostWork} (ha : s.At c) (hh : c.host = some w)
include ha hh

theorem busy_at (f : Local → Out Local) : onChannel s (hostCall f) = .refused .hostBusy := by
  rw [onChannel_at ha, hostCall, if_neg (by simp [hh]), andThen_refused]

theorem exec_reset_busy (hw : workInstr w ≠ .reset) : exec .reset s = .refused .hostBusy := by
  rw [exec_reset_at ha, resetStep, hh]
  cases w with
  | reset k => exact absurd rfl hw
  | start p n phase => rfl
  | stop phase => rfl

theorem exec_start_busy {pitch lines : Nat} (hw : workInstr w ≠ .start pitch lines) :
    exec (.start pitch lines) s = .refused .hostBusy := by
  rw [exec_start_at ha, startStep, hh]
  cases w with
  | reset k => rfl
  | start p n phase =>
    have hother : ¬(p = pitch ∧ n = lines) := by
      rintro ⟨rfl, rfl⟩
      exact hw rfl
    simp only [if_neg hother, andThen_refused]
  | stop phase => rfl

theorem exec_stop_busy (hw : workInstr w ≠ .stop) : exec .stop s = .refused .hostBusy := by
  rw [exec_stop_at ha, stopStep, hh]
  cases w with
  | reset k => rfl
  | start p n phase => rfl
  | stop phase => exact absurd rfl hw

/-- A HOST inside an operation makes no other call. -/
theorem exec_host_busy {i : Instr} (hi : hostOp i = true) (hw : i ≠ workInstr w) : exec i s = .refused .hostBusy := by
  cases i with
  | wrDmaEnable | wrDmaBufferMode | wrDmaPageTableAddrLow | wrDmaPageTableAddrHigh | wrDmaBlockSize | wrDmaTotalSize
  | wrIntEnable | wrIntStatus | wrIntClear | rdDmaEnable | rdDmaBufferMode | rdDmaPageTableAddrLow | rdDmaPageTableAddrHigh
  | rdDmaBlockSize | rdDmaTotalSize | rdIntEnable | rdIntStatus | rdIntClear | flush | cpuSync | build | installTables | init
  | teardown | currentWriteIndex | readSlot => exact busy_at ha hh _
  | reset => exact exec_reset_busy ha hh hw.symm
  | start pitch lines => exact exec_start_busy ha hh hw.symm
  | stop => exact exec_stop_busy ha hh hw.symm
  | scan | align | sinkWrite | capByte | capLand | rstDone | irq | drainBegin | drainSlot | drainEnd => cases hi

end

/-! ### Calls that their own rules refuse -/

theorem exec_no_channel {s : State} (h : s.chans[s.cur]? = none) (i : Instr) : exec i s = .refused .noSuchChannel := by
  obtain ⟨f, hf⟩ := exec_onChannel i s
  rw [hf, onChannel, h]

theorem resetRequest_refused {l : Local} (h : ¬(idleOrArmed l.chan && !l.chan.drainRunning) = true) :
    resetRequest l = .refused .resetPrecondition := by
  rw [resetRequest, if_neg h]

section
variable {s : State} {c : Chan} (ha : s.At c) (hh : c.host = none)
include ha hh

theorem exec_reset_refused (h : ¬(idleOrArmed c && !c.drainRunning) = true) : exec .reset s = .refused .resetPrecondition := by
  rw [exec_reset_at ha, resetStep, hh]
  simp only [resetRequest_refused (l := ⟨c, s.shared⟩) h, andThen_refused]

theorem exec_start_refused (pitch lines : Nat) (h : ¬idleOrArmed c = true) :
    exec (.start pitch lines) s = .refused .startPrecondition := by
  rw [exec_start_at ha, startStep, hh]
  simp only [startValidate, if_neg h, andThen_refused]

theorem exec_currentWriteIndex_absent (h : c.ringState = .absent) : ∃ x, exec .currentWriteIndex s = .refused x := by
  obtain ⟨-, heffect⟩ := currentWriteIndexEffect
  exact (heffect s c ha hh).2 h

end

/-- Settles O48: the busy HOST, the channel that does not exist, and each call's own precondition. -/
theorem operationsWithoutStep : Obligations.OperationsWithoutStep := by
  refine ⟨fun s c w i ha hh hi hw => exec_host_busy ha hh hi hw, fun s i h => ⟨_, exec_no_channel h i⟩,
    fun s c pitch lines i ha hh => ⟨fun hstate => ?state, fun hdrain => ?pass, fun habsent => ?absent⟩⟩
  case state =>
    have hneither : ¬idleOrArmed c = true := by
      rw [idleOrArmed_iff]
      rcases hstate with h | h <;> simp [h]
    exact ⟨⟨_, exec_reset_refused ha hh (by simp [hneither])⟩, ⟨_, exec_start_refused ha hh pitch lines hneither⟩⟩
  case pass => exact ⟨_, exec_reset_refused ha hh (by simp [hdrain])⟩
  case absent =>
    exact ⟨exec_installTables_refused ha hh ⟨_, withRing_absent habsent _⟩, exec_currentWriteIndex_absent ha hh habsent,
      exec_readSlot_refused ha hh (.inl habsent)⟩

/-! ### Distances on a ring of slots (44 R203) -/

theorem behind_eq {a b n : Nat} (ha : a < n) (hb : b < n) : (a + n - b) % n = if b ≤ a then a - b else a + n - b := by
  split
  · rw [show a + n - b = a - b + n by omega, Nat.add_mod_right, Nat.mod_eq_of_lt (by omega)]
  · rw [Nat.mod_eq_of_lt (by omega)]

theorem ahead_eq {a j n : Nat} (ha : a < n) (hj : j < n) : (a + j) % n = if a + j < n then a + j else a + j - n := by
  split
  · rw [Nat.mod_eq_of_lt (by assumption)]
  · rw [Nat.mod_eq_sub_mod (by omega), Nat.mod_eq_of_lt (by omega)]

/-- A slot `j` further on lies `j` less behind. -/
theorem behind_ahead {w a j n : Nat} (hw : w < n) (ha : a < n) (hj : j ≤ (w + n - a) % n) :
    (w + n - (a + j) % n) % n = (w + n - a) % n - j := by
  have hlt : (w + n - a) % n < n := Nat.mod_lt _ (by omega)
  rw [behind_eq hw (Nat.mod_lt _ (by omega)), ahead_eq ha (by omega)]
  rw [behind_eq hw ha] at hj ⊢
  split_ifs at hj ⊢ <;> omega

/-- The slot that lies a given distance behind the index, counted from one that lies further behind. -/
theorem ahead_behind {w a i n : Nat} (hw : w < n) (ha : a < n) (hi : i < n) (h : (w + n - i) % n ≤ (w + n - a) % n) :
    i = (a + ((w + n - a) % n - (w + n - i) % n)) % n := by
  have hlt : (w + n - a) % n < n := Nat.mod_lt _ (by omega)
  rw [ahead_eq ha (by omega)]
  rw [behind_eq hw ha, behind_eq hw hi] at *
  split_ifs at * <;> omega

/-- The count of a pass that begins is formed with the write index its read leaves in the register. -/
theorem drainBegin_left {s t : State} {c c' : Chan} {r : Ring} (ha : s.At c) (hring : c.ring = some r)
    (h : exec .drainBegin s = .next t) (hat : t.At c') :
    c'.drainLeft = drainCount s.cfg.margin (c'.writeIndex.toNat % r.nSlots) c.readIndex r.nSlots := by
  obtain ⟨c₀, l, ha₀, hl, rfl⟩ := onChannel_eq_next.mp (show execDrainBegin s = .next t from h)
  obtain rfl : c₀ = c := Option.some.inj (ha₀.symm.trans ha)
  obtain ⟨henabled, hbegin⟩ := whenEnabled_eq_next.mp hl
  obtain ⟨-, -, hstate⟩ := (drainBeginEnabled_iff _).mp henabled
  obtain ⟨x, sp, n, -, -, hread⟩ :=
    currentWriteIndex_cases s.cfg (l := ⟨{ c₀ with drainRunning := true }, s.shared⟩) hring hstate
  rw [drainBegin_of_read (l := ⟨c₀, s.shared⟩) hring hstate hread] at hbegin
  obtain rfl := Outcome.next.inj hbegin
  obtain rfl := Option.some.inj ((put_at ha _).symm.trans hat)
  rfl

/-- Settles O49: slot `j` of the pass lies `j` less behind the write index than `read_index` does, and the count leaves out the last
`MARGIN` of them. -/
theorem drainStaysBehindMargin : Obligations.DrainStaysBehindMargin := by
  intro s t c c' r ha hring hlt hexec hat j hj w slot
  have hw : w < r.nSlots := Nat.mod_lt _ (by omega)
  rw [drainBegin_left ha hring hexec hat, drainCount, distance_of_lt _ hlt] at hj
  have hbehind : (w + r.nSlots - slot) % r.nSlots = (w + r.nSlots - c.readIndex) % r.nSlots - j :=
    behind_ahead hw hlt (show j ≤ (c'.writeIndex.toNat % r.nSlots + r.nSlots - c.readIndex) % r.nSlots by omega)
  rw [hbehind]
  show _ ≤ (c'.writeIndex.toNat % r.nSlots + r.nSlots - c.readIndex) % r.nSlots - j ∧ _
  exact ⟨by omega, Nat.sub_le _ _⟩

/-- With no pass running, a slot is drainable where its distance behind the write index lies between the margin and that of
`read_index`. -/
theorem slotDrainable_iff {margin : Margin} {c : Chan} {r : Ring} {i : Nat} (hring : c.ring = some r)
    (hstate : c.ringState = .streaming) (hidle : c.drainRunning = false) (hread : c.readIndex < r.nSlots) (hi : i < r.nSlots) :
    slotDrainable margin c i = true ↔
      margin.slots < (c.writeIndex.toNat % r.nSlots + r.nSlots - i) % r.nSlots ∧
      (c.writeIndex.toNat % r.nSlots + r.nSlots - i) % r.nSlots ≤
        (c.writeIndex.toNat % r.nSlots + r.nSlots - c.readIndex) % r.nSlots := by
  have hself : i = c.writeIndex.toNat % r.nSlots → (c.writeIndex.toNat % r.nSlots + r.nSlots - i) % r.nSlots = 0 := by
    rintro rfl
    rw [Nat.add_sub_cancel_left, Nat.mod_self]
  simp only [slotDrainable, hring, slotState, hstate, hidle, distance_of_lt _ hi, distance_of_lt _ hread]
  generalize (c.writeIndex.toNat % r.nSlots + r.nSlots - i) % r.nSlots = d at *
  generalize (c.writeIndex.toNat % r.nSlots + r.nSlots - c.readIndex) % r.nSlots = d' at *
  by_cases hw : i = c.writeIndex.toNat % r.nSlots
  · simp [hw, hself hw]
  · simp [hw]
    omega

/-- Settles O50: counted from `read_index`, the slots of a pass are those whose distance behind the write index is above the
margin. -/
theorem drainableSlotsDrained : Obligations.DrainableSlotsDrained := by
  intro margin c r i hring hstate hidle hread hi
  rw [slotDrainable_iff hring hstate hidle hread hi, drainCount, distance_of_lt _ hread]
  have hw : c.writeIndex.toNat % r.nSlots < r.nSlots := Nat.mod_lt _ (by omega)
  constructor
  · rintro ⟨hmargin, hbehind⟩
    exact ⟨_, by omega, ahead_behind hw hread hi hbehind⟩
  · rintro ⟨j, hj, rfl⟩
    rw [behind_ahead hw hread (by omega)]
    omega

/-! ### DRAIN_END (44 R205) -/

theorem drainEndEnabled_iff (c : Chan) : drainEndEnabled c = true ↔ c.drainRunning = true ∧ c.drainLeft = 0 := by
  simp [drainEndEnabled]

/-- Settles O47: the step is `endPass` under its enabling condition. -/
theorem drainEndEffect : Obligations.DrainEndEffect := by
  refine ⟨rfl, fun s c ha hrunning hleft => ⟨agent_at ha ((drainEndEnabled_iff c).mpr ⟨hrunning, hleft⟩) _,
    fun hpending hring => ?again⟩, fun s c ha hfails => ⟨.notEnabled, agent_refused ha (fun he => ?refused) _⟩⟩
  case again => exact (drainBeginEnabled_iff _).mpr ⟨Nat.sub_pos_of_lt hpending, rfl, hring⟩
  case refused =>
    obtain ⟨hrunning, hleft⟩ := (drainEndEnabled_iff c).mp he
    simp [hrunning, hleft] at hfails

/-! ### CAP_BYTE (45 R240) -/

theorem landingCondition_iff (margin : Margin) (c : Chan) :
    landingCondition margin c = true ↔
      ∀ e ∈ c.inflight, ((c.writeIndex.toNat + 1) % (c.slotCountM1.toNat + 1) + (c.slotCountM1.toNat + 1) -
        e.slot.toNat % (c.slotCountM1.toNat + 1)) % (c.slotCountM1.toNat + 1) ≤ margin.slots := by
  simp [landingCondition, distance, advancedIndex, nextIndex, modeSlots]

theorem capByteEnabled_iff (margin : Margin) (c : Chan) :
    capByteEnabled margin c = true ↔
      c.en = true ∧ c.rst = false ∧ (c.blockSize.toNat ≤ c.fillPos + 1 → landingCondition margin c = true) := by
  simp only [capByteEnabled, lastOfSlot, Bool.and_eq_true, Bool.or_eq_true, Bool.not_eq_true', decide_eq_false_iff_not,
    and_assoc, imp_iff_not_or]

theorem translate_inside (l : Local) (i : Fin 8) {b : Nat} (hb : b < 2097152) : ∃ a, translateOffset l i b = .next a := by
  have hentry : b / Config.pageSize < Config.entriesPerTable := by unfold Config.pageSize Config.entriesPerTable; omega
  exact ⟨_, if_pos hentry⟩

section
variable {s : State} {c : Chan} (ha : s.At c)
include ha

theorem exec_capByte_refused (h : ¬capByteEnabled s.cfg.margin c = true) : exec .capByte s = .refused .notEnabled :=
  agent_refused ha h _

/-- The byte drawn joins the queue and the position moves on. -/
theorem exec_capByte_at (he : capByteEnabled s.cfg.margin c = true) {addr : Addr} {b : Byte} {waiting : List Byte} {draws : Nat}
    (haddr : translateOffset ⟨c, s.shared⟩ c.writeIndex.toFin c.fillPos = .next addr)
    (hdraw : drawPortByte ⟨c, s.shared⟩ = (b, ⟨{ c with portIn := waiting }, { s.shared with draws := draws }⟩)) :
    exec .capByte s = .next (s.put
      ⟨advanceCapture { c with inflight := c.inflight ++ [⟨c.writeIndex, addr, b⟩], portIn := waiting },
        { s.shared with draws := draws }⟩) := by
  rw [show exec .capByte s = execCapByte s from rfl, execCapByte, agent_at ha he, captureByte, haddr]
  simp only [andThen_next, hdraw, Local.withChan]

theorem exec_capByte_past (hpast : 2097152 ≤ c.fillPos) : ∃ r, exec .capByte s = .refused r := by
  by_cases he : capByteEnabled s.cfg.margin c = true
  · refine ⟨.entryOutOfTable, ?_⟩
    rw [show exec .capByte s = execCapByte s from rfl, execCapByte, agent_at ha he, captureByte,
      translate_past_table _ _ hpast]
    rfl
  · exact ⟨_, exec_capByte_refused ha he⟩

end

theorem advanceCapture_inside {c : Chan} (h : c.fillPos + 1 < c.blockSize.toNat) :
    advanceCapture c = { c with fillPos := c.fillPos + 1 } := by
  rw [advanceCapture, if_neg (by simpa [lastOfSlot] using h)]

theorem advanceCapture_last {c : Chan} (h : c.blockSize.toNat ≤ c.fillPos + 1) :
    advanceCapture c = { c with
      fillPos := 0, writeIndex := BitVec.ofNat 3 ((c.writeIndex.toNat + 1) % (c.slotCountM1.toNat + 1)), intStatus := true } := by
  rw [advanceCapture, if_pos (by simpa [lastOfSlot] using h)]
  rfl

/-- Settles O51: the step is enabled inside a slot, and at its end where the landing condition holds; the address is the
translation's, the byte the draw's (`drawPortByte_cases`). -/
theorem capByteEffect : Obligations.CapByteEffect := by
  refine ⟨rfl, fun s c ha hstopped => ?stopped, fun s c ha hen hrst => ⟨fun hinside => ?takes, fun hlast hfar => ?waits,
    exec_capByte_past ha⟩⟩
  case stopped =>
    refine ⟨_, exec_capByte_refused ha fun he => ?_⟩
    obtain ⟨hen, hrst, -⟩ := (capByteEnabled_iff _ _).mp he
    simp [hen, hrst] at hstopped
  case takes =>
    obtain ⟨addr, haddr⟩ := translate_inside ⟨c, s.shared⟩ c.writeIndex.toFin hinside
    obtain ⟨b, waiting, draws, hdraw, hwaiting⟩ := drawPortByte_cases ⟨c, s.shared⟩
    refine ⟨addr, b, waiting, draws, haddr, hwaiting, fun hfill => ?inside, fun hlast hlanded => ?last⟩
    case inside =>
      rw [exec_capByte_at ha ((capByteEnabled_iff _ _).mpr ⟨hen, hrst, fun hlast => by omega⟩) haddr hdraw,
        advanceCapture_inside]
      exact hfill
    case last =>
      rw [exec_capByte_at ha
        ((capByteEnabled_iff _ _).mpr ⟨hen, hrst, fun _ => (landingCondition_iff _ _).mpr hlanded⟩) haddr hdraw,
        advanceCapture_last]
      exact hlast
  case waits =>
    refine ⟨_, exec_capByte_refused ha fun he => ?_⟩
    obtain ⟨-, -, hcondition⟩ := (capByteEnabled_iff _ _).mp he
    obtain ⟨e, hmem, hdistance⟩ := hfar
    exact absurd ((landingCondition_iff _ _).mp (hcondition hlast) e hmem) (not_le.mpr hdistance)

end Sys2Proof.Machine
end

section
/-! SUPPORT. Proofs of the statements about streams of packets (43 R190): a buffer with a marker every 188 bytes, and slots of such a
stream drained one after the other. -/

namespace Sys2Proof.Machine

/-! ### One buffer (43 R190a) -/

/-- The buffer has a marker at `k` and at every 188th byte after it. -/
def Marked (k : Nat) (bs : List Byte) : Prop := ∀ m, k + 188 * m < bs.length → bs[k + 188 * m]? = some 0x47#8

/-- No run of three markers begins before `k`. -/
def NoEarlierRun (k : Nat) (bs : List Byte) : Prop :=
  ∀ i, i < k → ¬(bs[i]? = some 0x47#8 ∧ bs[i + 188]? = some 0x47#8 ∧ bs[i + 376]? = some 0x47#8)

theorem scan_marked {bs : List Byte} {k : Nat} (hk : k ≤ 187) (hlen : k + 377 ≤ bs.length) (hm : Marked k bs)
    (hrun : NoEarlierRun k bs) : scan bs none = (.resynced, some k) := by
  have hmarkers : threeMarkers bs k = true :=
    (threeMarkers_iff bs k).mpr ⟨by omega, hm 0 (by omega), hm 1 (by omega), hm 2 (by omega)⟩
  have hfirst : ∀ j, j < k → ¬threeMarkers bs j = true := fun j hj hthree =>
    hrun j hj ((threeMarkers_iff bs j).mp hthree).2
  exact scan_resynced (by simp [keepsOffset]) ((search_eq_some_iff bs k).mpr ⟨hk, hmarkers, hfirst⟩)

theorem align_fresh {bs : List Byte} {k : Nat} (h : k < bs.length) :
    (align bs k []).1 = (bs.drop k).take (188 * ((bs.length - k) / 188)) := by
  rw [align, if_neg (not_le.mpr h)]
  simp [stageFits, Config.packetSize]

/-- Settles O40: the run of three at `k` is the first one, and with nothing staged ALIGN gives the whole packets from `k` on. -/
theorem scanRoundTrip : Obligations.ScanRoundTrip := by
  intro bs k hk hlen hm hrun
  have hout := align_fresh (bs := bs) (k := k) (by omega)
  refine ⟨scan_marked hk hlen hm hrun, hout, fun m hin => ?_⟩
  rw [hout, List.length_take] at hin
  have hinside : k + 188 * m < bs.length := by
    rw [List.length_drop] at hin
    omega
  rw [hout, List.getElem?_take_of_lt (by omega), List.getElem?_drop]
  exact hm m hinside

/-! ### A stream cut into slots (43 R190b) -/

/-- Every slot of a stream with a marker every 188 bytes from `k` on has its markers from `k` on, where the slot's size is a whole number
of packets. -/
theorem marked_of_flatten {k size : Nat} {slots : List (List Byte)} (hsize : size % 188 = 0)
    (hlen : ∀ b ∈ slots, b.length = size) (hm : Marked k slots.flatten) : ∀ b ∈ slots, Marked k b := by
  induction slots with
  | nil => simp
  | cons b bs ih =>
    have hb : b.length = size := hlen b (by simp)
    rw [List.flatten_cons] at hm
    have hhead : Marked k b := fun m hin => by
      have := hm m (by rw [List.length_append]; omega)
      rwa [List.getElem?_append_left hin] at this
    have htail : Marked k bs.flatten := fun m hin => by
      have hplace : k + 188 * (m + size / 188) = b.length + (k + 188 * m) := by rw [hb]; omega
      have := hm (m + size / 188) (by rw [hplace, List.length_append]; omega)
      rwa [hplace, List.getElem?_append_right (by omega), Nat.add_sub_cancel_left] at this
    intro x hx
    rcases List.mem_cons.mp hx with rfl | hx
    · exact hhead
    · exact ih (fun y hy => hlen y (by simp [hy])) htail x hx

/-- What a slot of an in-step stream leaves staged: nothing where it ends with a packet, and else the begun packet. -/
def InStepStage (k : Nat) (stage : List Byte) : Prop :=
  k = 0 ∧ stage = [] ∨ 0 < k ∧ stage.length + k = 188 ∧ stage[0]? = some 0x47#8

theorem InStepStage.length_eq {k : Nat} {stage : List Byte} (h : InStepStage k stage) : stage.length = (188 - k) % 188 := by
  rcases h with ⟨rfl, rfl⟩ | ⟨hpos, hlen, -⟩
  · rfl
  · omega

section
variable {k size : Nat} {b : List Byte} (hk : k ≤ 187) (hsize : size % 188 = 0) (hmin : 564 ≤ size) (hb : b.length = size)
  (hm : Marked k b)
include hk hsize hmin hb

include hm in
theorem align_stage_inStep (stage : List Byte) : InStepStage k (align b k stage).2 := by
  rw [align_tail (by omega), hb]
  rcases Nat.eq_zero_or_pos k with rfl | hpos
  · exact .inl ⟨rfl, List.drop_eq_nil_of_le (by omega)⟩
  · have hpackets : (size - k) / 188 = size / 188 - 1 := by omega
    refine .inr ⟨hpos, ?_, ?_⟩
    · rw [List.length_drop]
      omega
    · rw [List.getElem?_drop, hpackets, Nat.add_zero]
      exact hm _ (by omega)

/-- Between the slots of an in-step stream nothing is dropped. -/
theorem align_inStep {stage : List Byte} (hstage : InStepStage k stage) :
    (align b k stage).1 ++ (align b k stage).2 = stage ++ b := by
  rw [align_out_append_tail (by omega)]
  rcases hstage with ⟨rfl, rfl⟩ | ⟨-, hlength, hmarker⟩
  · simp [stageFits]
  · rw [if_pos ((stageFits_iff k stage).mpr ⟨hlength, hmarker⟩)]

include hm

/-- Every slot but the first fills a buffer of its own size. -/
theorem align_out_inStep {stage : List Byte} (hstage : InStepStage k stage) :
    (align b k stage).1.length = size ∧ (align b k stage).1[0]? = some 0x47#8 := by
  have hall := align_inStep hk hsize hmin hb hstage
  have hstaged := hstage.length_eq
  have hrest := (align_stage_inStep hk hsize hmin hb hm stage).length_eq
  have hlength := congrArg List.length hall
  have hhead := congrArg (·[0]?) hall
  simp only [List.length_append, hb] at hlength
  have hout : (align b k stage).1.length = size := by omega
  refine ⟨hout, ?_⟩
  simp only [List.getElem?_append_left (show 0 < (align b k stage).1.length by omega)] at hhead
  rw [hhead]
  rcases hstage with ⟨rfl, rfl⟩ | ⟨-, hlen, hmarker⟩
  · exact hm 0 (by omega)
  · rw [List.getElem?_append_left (by omega), hmarker]

end

/-- A slot that a scan finds in step, with a buffer that begins with a marker, is forwarded to the sink. -/
theorem consumeSlot_forwards {n k : Nat} {b : List Byte} {c : Chan} {status : ScanStatus}
    (hscan : scan b c.resyncOffset = (status, some k)) (hsync : status ≠ .desynchronized)
    (hmarker : (align b k c.stage).1[0]? = some 0x47#8) :
    consumeSlot n b c = { c with
      resyncOffset := some k, stage := (align b k c.stage).2, sinkOut := c.sinkOut ++ [(align b k c.stage).1],
      readIndex := (c.readIndex + 1) % n, drainLeft := c.drainLeft - 1 } := by
  obtain ⟨stage, out, rejected, hconsumed, -, hfound⟩ := consumeSlot_eq n b c
  obtain ⟨rfl, hforward⟩ := hfound k (by rw [hscan])
  have hnonempty : (align b k c.stage).1 ≠ [] := by
    intro hnil
    simp [hnil] at hmarker
  rw [if_neg hnonempty, if_pos hmarker] at hforward
  obtain ⟨rfl, rfl⟩ := Prod.mk.inj hforward
  rw [hconsumed, hscan]
  simp only [if_neg hsync, Nat.add_zero]

/-- Slots drained one after the other. -/
def consumeAll (n : Nat) (slots : List (List Byte)) (c : Chan) : Chan := slots.foldl (fun acc b => consumeSlot n b acc) c

/-- The channel after an in-step slot: what the sink has been given and what is staged. -/
structure Forwarded (k : Nat) (bufs : List (List Byte)) (c c' : Chan) : Prop where
  sinkOut : c'.sinkOut = c.sinkOut ++ bufs
  offset : c'.resyncOffset = some k
  stage : InStepStage k c'.stage
  sinkRejected : c'.sinkRejected = c.sinkRejected
  log : c'.log = c.log

/-- The slots after the first: each gives the sink a buffer of the slot's size, and no byte is lost or repeated between them. -/
theorem consumeAll_inStep {n k size : Nat} {slots : List (List Byte)} {c : Chan} (hk : k ≤ 187) (hsize : size % 188 = 0)
    (hmin : 564 ≤ size) (hlen : ∀ b ∈ slots, b.length = size) (hm : ∀ b ∈ slots, Marked k b) (hoffset : c.resyncOffset = some k)
    (hstage : InStepStage k c.stage) :
    ∃ bufs, Forwarded k bufs c (consumeAll n slots c) ∧ bufs.length = slots.length ∧ (∀ x ∈ bufs, x.length = size) ∧
      bufs.flatten ++ (consumeAll n slots c).stage = c.stage ++ slots.flatten := by
  induction slots generalizing c with
  | nil => exact ⟨[], ⟨by simp [consumeAll], hoffset, hstage, rfl, rfl⟩, rfl, by simp, by simp [consumeAll]⟩
  | cons b bs ih =>
    have hb : b.length = size := hlen b (by simp)
    have hmb : Marked k b := hm b (by simp)
    have hkept : scan b c.resyncOffset = (.kept, some k) := by
      rw [hoffset]
      exact scan_kept ((keepsOffset_iff _ _).mpr ⟨k, rfl, hmb 0 (by omega)⟩)
    obtain ⟨hout, hmarker⟩ := align_out_inStep hk hsize hmin hb hmb hstage
    have hconsumed := consumeSlot_forwards (n := n) hkept (by simp) hmarker
    have hrest := align_stage_inStep hk hsize hmin hb hmb c.stage
    have hall := align_inStep hk hsize hmin hb hstage
    obtain ⟨bufs, hfwd, hcount, hsizes, hbytes⟩ := ih (c := consumeSlot n b c) (fun x hx => hlen x (by simp [hx]))
      (fun x hx => hm x (by simp [hx])) (by rw [hconsumed]) (by rw [hconsumed]; exact hrest)
    have hstep : consumeAll n (b :: bs) c = consumeAll n bs (consumeSlot n b c) := rfl
    rw [hstep]
    refine ⟨(align b k c.stage).1 :: bufs, ⟨?_, hfwd.offset, hfwd.stage, ?_, ?_⟩, by simp [hcount], ?_, ?_⟩
    · rw [hfwd.sinkOut, hconsumed]
      simp
    · rw [hfwd.sinkRejected, hconsumed]
    · rw [hfwd.log, hconsumed]
    · intro x hx
      rcases List.mem_cons.mp hx with rfl | hx
      · exact hout
      · exact hsizes x hx
    · rw [List.flatten_cons, List.append_assoc, hbytes, hconsumed]
      simp only [← List.append_assoc, hall, List.flatten_cons]

/-- The first slot: the whole packets from its first marker on go to the sink, the begun one is staged. -/
theorem consumeSlot_first {n k size : Nat} {b : List Byte} {c : Chan} (hk : k ≤ 187) (hsize : size % 188 = 0)
    (hmin : 564 ≤ size) (hb : b.length = size) (hm : Marked k b) (hrun : NoEarlierRun k b) (hoffset : c.resyncOffset = none)
    (hstage : c.stage = []) :
    ∃ head, Forwarded k [head] c (consumeSlot n b c) ∧ head ++ (consumeSlot n b c).stage = b.drop k := by
  have hscan : scan b c.resyncOffset = (.resynced, some k) := by
    rw [hoffset]
    exact scan_marked hk (by omega) hm hrun
  have hmarker : (align b k c.stage).1[0]? = some 0x47#8 := by
    rw [hstage, align_fresh (by omega), List.getElem?_take_of_lt (by omega), List.getElem?_drop]
    exact hm 0 (by omega)
  have hconsumed := consumeSlot_forwards (n := n) hscan (by simp) hmarker
  rw [hconsumed]
  refine ⟨(align b k c.stage).1, ⟨rfl, rfl, align_stage_inStep hk hsize hmin hb hm _, rfl, rfl⟩, ?_⟩
  rw [align_out_append_tail (by omega), hstage, if_neg (by simp [stageFits])]

/-- Settles O42: the first slot is found at `k` (`consumeSlot_first`), every later one is in step with it (`consumeAll_inStep`). -/
theorem inStepStreamKept : Obligations.InStepStreamKept := by
  intro n k size first slots c hk hsize hmin hlen hoffset hstage hstream hrun
  have hm := marked_of_flatten hsize hlen hstream
  have hfirst : first.length = size := hlen first (by simp)
  obtain ⟨head, hhead, hheadBytes⟩ :=
    consumeSlot_first (n := n) hk hsize hmin hfirst (hm first (by simp)) hrun hoffset hstage
  obtain ⟨bufs, hbufs, hcount, hsizes, hbytes⟩ := consumeAll_inStep (n := n) (slots := slots) hk hsize hmin
    (fun b hb => hlen b (by simp [hb])) (fun b hb => hm b (by simp [hb])) hhead.offset hhead.stage
  refine ⟨head, bufs, ?_, hcount, hsizes, ?_, hbufs.offset, hbufs.sinkRejected.trans hhead.sinkRejected,
    hbufs.log.trans hhead.log⟩
  · refine hbufs.sinkOut.trans ?_
    rw [hhead.sinkOut, List.append_assoc, List.singleton_append]
  · calc (head :: bufs).flatten ++ (consumeAll n slots (consumeSlot n first c)).stage
      _ = head ++ (bufs.flatten ++ (consumeAll n slots (consumeSlot n first c)).stage) := by simp
      _ = head ++ (consumeSlot n first c).stage ++ slots.flatten := by rw [hbytes, List.append_assoc]
      _ = (first :: slots).flatten.drop k := by
        rw [hheadBytes, List.flatten_cons, List.drop_append_of_le_length (by omega)]

end Sys2Proof.Machine
end
